-- ==== Sys2Proof/Word.lean ====
section
/-! DEFINITION. The word types of the block: a byte of the buffer, a 32-bit register or offset, and the 24-bit
length and command-code fields of the wire format (00_scope.md R9, R10; 30_encoding.md R91, R95). Every value is
an unsigned integer (R10); nothing here is signed. -/

namespace Sys2Proof

/-- One octet of `BUF` (20_memory.md R60). -/
abbrev Byte := BitVec 8

/-- A host-visible register or an offset: `REGW = OFFW = 32` (00_scope.md R9). -/
abbrev Word := BitVec 32

/-- A 24-bit wire field: `avp_length`, `msg_length`, `command_code` (00_scope.md R10). -/
abbrev U24 := BitVec 24

end Sys2Proof
end

