-- ==== Sys2Proof/Config.lean ====
section
/-! DEFINITION. What is fixed for the block and what the spec leaves open: the parameters of 00_scope.md R9 and the
free values of 93_implementation_defined.md U3 and U4. `BUF_CAP` itself is open (92_eei_decisions.md D3), so it is
carried in `Machine.State` as data that no step changes: a statement over every state is a statement over every
`BUF_CAP`. `STRICT_RESERVED` and `STRICT_SUM` are fixed to false (D5, D6): no check of theirs exists. -/

namespace Sys2Proof

/-- The largest legal `BUF_CAP`, `2^32 - 4` (00_scope.md R9, decision D3). -/
def Config.bufCapMax : Nat := 4294967292

/-- `BUF_CAP` of the machine that `State.reset` is. DESIGN CHOICE (notes/assumptions/1.md): the spec leaves the
number open; statements are made for every legal value. -/
def Config.defaultBufCap : Nat := 4294967292

/-- `AVPT_CAP`: `0` if `BUF_CAP < 28`, else `min((BUF_CAP - 20) div 8, 2097150)` (00_scope.md R9, decision D4). -/
def Config.avptCap (bufCap : Nat) : Nat :=
  if bufCap < 28 then 0 else min ((bufCap - 20) / 8) 2097150

/-- FREE VALUE: `resetByte epoch addr` is the content of buffer byte `addr` until the host writes it, after `epoch` resets
(93_implementation_defined.md U3; 70_reset_and_hazards.md R312; notes/assumptions/2.md). -/
opaque Config.resetByte : Nat → Nat → Byte

/-- FREE VALUE: what the `k`-th read of a word of an `AVPT` entry that is not valid returns; two reads of the same
word may differ (93_implementation_defined.md U4; 43_host_commands.md R202; notes/assumptions/3.md). -/
opaque Config.tableWord : Nat → Word

end Sys2Proof
end

