-- ==== Sys2Proof/Syntax.lean ====
section
/-! DEFINITION. The instructions: one constructor per row of spec/opcode_table.json (30_encoding.md R108). Three are
the host's command words (format CMDW, R98); three are the wire records the parser decodes from the buffer (formats
AVP8, AVP12 and MSGH, R91 to R95), whose operands are the fields of the base header. A record's vendor id, data and
padding are operands in the buffer, named by the cursor, not fields of the 64-bit base header that the table matches. -/

namespace Sys2Proof

/-- An instruction of the block. In the AVP forms `m`, `p` and `rsv` are bits 6, 5 and [4:0] of the flags byte
(30_encoding.md R92); its bit 7, V, is what chooses the constructor (R99). -/
inductive Instr where
  /-- CLEAR, command word 0 (43_host_commands.md R208). -/
  | clear
  /-- DECODE_AVP, command word 1 (41_decode_avp.md R140, R151). -/
  | decodeAvp
  /-- DECODE_MSG, command word 2 (42_decode_msg.md R170, R179). -/
  | decodeMsg
  /-- AVP8: an AVP record whose V flag is clear, 8-byte header (41_decode_avp.md R152). -/
  | avp8 (code : Word) (m p : Bool) (rsv : BitVec 5) (len : U24)
  /-- AVP12: an AVP record whose V flag is set, 12-byte header (41_decode_avp.md R153). -/
  | avp12 (code : Word) (m p : Bool) (rsv : BitVec 5) (len : U24)
  /-- MSGH: the 20-byte Message header (42_decode_msg.md R172, R173). -/
  | msgh (version : Byte) (len : U24) (flags : Byte) (commandCode : U24) (appId hbhId e2eId : Word)
  deriving DecidableEq, Repr

/-- The formats of 30_encoding.md R90, the two AVP forms taken together: they share the 64-bit base header and one
bit of it tells them apart (R99). Which format a run of bytes has is chosen by the command, not by the bytes (R90). -/
inductive Format where
  | cmdw
  | avp
  | msgh
  deriving DecidableEq, Repr

/-- The format an instruction is written in (30_encoding.md R108). -/
def Instr.format : Instr → Format
  | .clear => .cmdw
  | .decodeAvp => .cmdw
  | .decodeMsg => .cmdw
  | .avp8 _ _ _ _ _ => .avp
  | .avp12 _ _ _ _ _ => .avp
  | .msgh _ _ _ _ _ _ _ => .msgh

/-- Bytes of the part of a format that the opcode table matches: 4, 8 and 20 (30_encoding.md R91, R95, R98). -/
def Format.bytes : Format → Nat
  | .cmdw => 4
  | .avp => 8
  | .msgh => 20

end Sys2Proof
end

