-- ==== Sys2Proof/WellFormed.lean ====
section
/-! DEFINITION. The check an instruction must pass to be a legal encoding whatever buffer it stands in: the part of
30_encoding.md R103 that needs no buffer. A record that fails it is still decoded and run: it ends in the Structural
error the spec names (41_decode_avp.md R145, 42_decode_msg.md R172). The command words have nothing to check. -/

namespace Sys2Proof

/-- The declared length is at least the header: 8 for AVP8, 12 for AVP12, 20 for MSGH (30_encoding.md R103). -/
def Instr.wellFormed : Instr → Bool
  | .clear => true
  | .decodeAvp => true
  | .decodeMsg => true
  | .avp8 _ _ _ _ len => decide (8 ≤ len.toNat)
  | .avp12 _ _ _ _ len => decide (12 ≤ len.toNat)
  | .msgh _ len _ _ _ _ _ => decide (20 ≤ len.toNat)

end Sys2Proof
end

