-- ==== Sys2Proof/Decode.lean ====
section
/-! DEFINITION. Decoding, total on any bytes, and the encoder: big-endian field assembly (20_memory.md R61,
30_encoding.md R97), the three formats (R91 to R95, R98), and the opcode table's own numbering of the bits. -/

namespace Sys2Proof

/-- The number a byte string stands for, first byte most significant: `MemRead`'s sum (00_scope.md R13). -/
def beValue : List Byte → Nat
  | [] => 0
  | b :: bs => b.toNat * 256 ^ bs.length + beValue bs

/-- The low `8 * n` bits of `v` as `n` bytes, most significant first (20_memory.md R61). -/
def beBytes : Nat → Nat → List Byte
  | 0, _ => []
  | n + 1, v => BitVec.ofNat 8 (v / 256 ^ n) :: beBytes n v

/-- The `n`-byte field at byte offset `k` of a record (30_encoding.md R97). -/
def fieldAt (bs : List Byte) (k n : Nat) : Nat :=
  beValue ((bs.drop k).take n)

/-- `has_vendor_id(flags)`: true iff bit 0x80 is set (40_helpers.md R124). -/
def hasVendorId (flags : Byte) : Bool :=
  flags.getLsbD 7

/-- The flags byte `V M P r r r r r`, most significant bit first (30_encoding.md R92). -/
def flagsByte (v m p : Bool) (rsv : BitVec 5) : Byte :=
  BitVec.ofBool v ++ BitVec.ofBool m ++ BitVec.ofBool p ++ rsv

/-- Why bytes are no instruction. -/
inductive DecodeError where
  /-- Fewer bytes than the format's fixed part. -/
  | tooShort (need have_ : Nat)
  /-- A `CMD` value other than 0, 1, 2 (30_encoding.md R104). -/
  | reservedOpcode (w : Word)
  deriving DecidableEq, Repr

/-- The command word, compared on all 32 bits (30_encoding.md R98, R104). -/
def decodeCmd (w : Word) : Except DecodeError Instr :=
  if w = 0 then .ok .clear
  else if w = 1 then .ok .decodeAvp
  else if w = 2 then .ok .decodeMsg
  else .error (.reservedOpcode w)

/-- The AVP form the base header's fields select: bit 0x80 of the flags picks AVP12 (30_encoding.md R99). -/
def avpInstr (code : Word) (flags : Byte) (len : U24) : Instr :=
  if hasVendorId flags then
    .avp12 code (flags.getLsbD 6) (flags.getLsbD 5) (flags.setWidth 5) len
  else
    .avp8 code (flags.getLsbD 6) (flags.getLsbD 5) (flags.setWidth 5) len

/-- The AVP base header, bytes 0 to 7 (30_encoding.md R91, R97). -/
def decodeAvpHeader (bs : List Byte) : Instr :=
  avpInstr (BitVec.ofNat 32 (fieldAt bs 0 4)) (BitVec.ofNat 8 (fieldAt bs 4 1)) (BitVec.ofNat 24 (fieldAt bs 5 3))

/-- The Message header, bytes 0 to 19 (30_encoding.md R95, R97). -/
def decodeMsgHeader (bs : List Byte) : Instr :=
  .msgh (BitVec.ofNat 8 (fieldAt bs 0 1)) (BitVec.ofNat 24 (fieldAt bs 1 3)) (BitVec.ofNat 8 (fieldAt bs 4 1))
    (BitVec.ofNat 24 (fieldAt bs 5 3)) (BitVec.ofNat 32 (fieldAt bs 8 4)) (BitVec.ofNat 32 (fieldAt bs 12 4))
    (BitVec.ofNat 32 (fieldAt bs 16 4))

/-- The decoder: the instruction that stands at the front of `bs` in format `f`, and the bytes after it. A command
word is a number, not a byte string (20_memory.md R62); its bytes are written here most significant first, which no
rule depends on (notes/assumptions/8.md). -/
def decode (f : Format) (bs : List Byte) : Except DecodeError (Instr × List Byte) :=
  if bs.length < f.bytes then .error (.tooShort f.bytes bs.length)
  else
    match f with
    | .cmdw => (decodeCmd (BitVec.ofNat 32 (fieldAt bs 0 4))).map fun i => (i, bs.drop 4)
    | .avp => .ok (decodeAvpHeader bs, bs.drop 8)
    | .msgh => .ok (decodeMsgHeader bs, bs.drop 20)

/-- The bytes of an AVP base header (30_encoding.md R91). -/
def encodeAvpHeader (code : Word) (flags : Byte) (len : U24) : List Byte :=
  beBytes 4 code.toNat ++ (beBytes 1 flags.toNat ++ beBytes 3 len.toNat)

/-- The encoder: the bytes of an instruction's fixed part, in buffer order (30_encoding.md R91, R95, R98). -/
def encode : Instr → List Byte
  | .clear => beBytes 4 0
  | .decodeAvp => beBytes 4 1
  | .decodeMsg => beBytes 4 2
  | .avp8 code m p rsv len => encodeAvpHeader code (flagsByte false m p rsv) len
  | .avp12 code m p rsv len => encodeAvpHeader code (flagsByte true m p rsv) len
  | .msgh version len flags cc app hbh e2e =>
    beBytes 1 version.toNat ++ (beBytes 3 len.toNat ++ (beBytes 1 flags.toNat ++ (beBytes 3 cc.toNat ++
      (beBytes 4 app.toNat ++ (beBytes 4 hbh.toNat ++ beBytes 4 e2e.toNat)))))

/-- The instruction's bits as the opcode table numbers them: one big-endian number, bit 0 least significant
(30_encoding.md R91, R95, R108). -/
def encodeTableWord (i : Instr) : Nat :=
  beValue (encode i)

/-- The format whose table rows have `nbits` bits (spec/opcode_table.json, "width_bits"). -/
def formatOfBits (nbits : Nat) : Option Format :=
  if nbits = 32 then some .cmdw else if nbits = 64 then some .avp else if nbits = 160 then some .msgh else none

/-- The instruction of a decoder's answer. -/
def decodedInstr : Except DecodeError (Instr × List Byte) → Option Instr
  | .ok (i, _) => some i
  | .error _ => none

/-- The instruction the decoder reads from the `nbits`-bit number `w`, numbered as the opcode table numbers it. -/
def decodeTableWord (nbits w : Nat) : Option Instr :=
  if w < 2 ^ nbits then
    match formatOfBits nbits with
    | none => none
    | some f => decodedInstr (decode f (beBytes (nbits / 8) w))
  else none

end Sys2Proof
end

