-- ==== Sys2Proof/Machine/State.lean ====
section
/-! DEFINITION. The state of one block (10_state.md R20): the register space `REG` (R21), the descriptor table `AVPT`
(R46), the buffer memory `BUF` (R48), the hidden registers (R49) and the line `done` (R50); and, because the host is
the second agent of the total order (20_memory.md R70), the turns still to come. All of it is plain data. -/

namespace Sys2Proof.Machine

/-- `STATUS.STATE` (10_state.md R23); its two-bit code is `RunState.code`. -/
inductive RunState where
  | idle
  | busy
  | doneOk
  | doneErr
  deriving DecidableEq, Repr

/-- The phases of the decoder FSM, in the spec's order (44_fsm.md R231). `PH` has no architectural encoding. -/
inductive Phase where
  | aAvail
  | aHdr
  | aCheck
  | aVid
  | aAdv
  | mAvail
  | mLen
  | mCheck
  | mHdr
  | mLoop
  | mAppend
  | commit
  | fail
  deriving DecidableEq, Repr

/-- `TOP`: which decode command runs (10_state.md R49). -/
inductive Top where
  | avp
  | msg
  deriving DecidableEq, Repr

/-- The six fields of a decoded AVP: group `AVP`, an `AVPT` entry or the staged `S_AVP` (10_state.md R32 to R37, R46,
R49), each at its "width used". -/
structure Desc where
  code : Word
  flags : Byte
  vendorId : Word
  len : U24
  dataOff : Word
  dataLen : U24
  deriving DecidableEq, Repr

/-- The descriptor all of whose fields are 0. -/
def Desc.zero : Desc :=
  { code := 0, flags := 0, vendorId := 0, len := 0, dataOff := 0, dataLen := 0 }

/-- The seven scalars of a Message: group `MSG` without its count, or the staged `S_MSG` (10_state.md R38 to R43, R45,
R49). -/
structure MsgScalars where
  version : Byte
  length : U24
  flags : Byte
  commandCode : U24
  appId : Word
  hbhId : Word
  e2eId : Word
  deriving DecidableEq, Repr

/-- The scalars all of which are 0. -/
def MsgScalars.zero : MsgScalars :=
  { version := 0, length := 0, flags := 0, commandCode := 0, appId := 0, hbhId := 0, e2eId := 0 }

/-- `ERR` (10_state.md R29): `KIND` = bits [1:0], `CAUSE` = bits [10:8]; the other bits read 0. -/
structure ErrReg where
  kind : BitVec 2
  cause : BitVec 3
  deriving DecidableEq, Repr

/-- The register space `REG` (10_state.md R21); reserved offsets hold nothing. -/
structure Regs where
  /-- `CMD`, bits [1:0]: the last accepted opcode (R22). -/
  cmd : BitVec 2
  /-- `STATUS.STATE` (R23). -/
  status : RunState
  /-- `BUF_LEN` (R24). -/
  bufLen : Word
  /-- `OFFSET` (R25). -/
  offset : Word
  /-- `NEW_OFFSET` (R28). -/
  newOffset : Word
  /-- `ERR` (R29). -/
  err : ErrReg
  /-- `ERR_OFFSET` (R29). -/
  errOffset : Word
  /-- Group `AVP` (R31 to R37). -/
  avp : Desc
  /-- Group `MSG` less the count (R31, R38 to R43, R45). -/
  msg : MsgScalars
  /-- `MSG_AVP_COUNT`, bits [21:0] (R44). -/
  avpCount : BitVec 22
  deriving DecidableEq, Repr

/-- The hidden registers (10_state.md R49): they mean something only while BUSY. -/
structure Hidden where
  ph : Phase
  top : Top
  cur : Word
  base : Word
  lenL : Word
  avail : Word
  mlen : U24
  /-- `HS`, 8 or 12. -/
  hs : BitVec 4
  alen : U24
  sAvp : Desc
  sMsg : MsgScalars
  n : BitVec 22
  ecause : BitVec 3
  eat : Word
  deriving DecidableEq, Repr

/-- Buffer memory: the bytes the host has written since reset, addresses strictly rising. An unlisted address is one the
host has not written; what it reads as is `byteAt`'s business (notes/assumptions/2.md). -/
abbrev Memory := List Host.Cell

/-- The descriptor table: the entries the parser has written since reset, by index, strictly rising. -/
abbrev Table := List (Nat × Desc)

/-- The host's moves (43_host_commands.md R200): register, table and buffer accesses, and reset. `size` is the width of
the access in bytes; only 4 has a meaning for `REG` and `AVPT` (R201). -/
inductive HostMove where
  | rdReg (size off : Nat)
  | wrReg (size off : Nat) (v : Word)
  /-- Write the value the host last read: the second half of `NEXT` (30_encoding.md R106). -/
  | wrRegLast (size off : Nat)
  | rdTbl (size off : Nat)
  | rdBuf (addr : Nat)
  | wrBuf (addr : Nat) (v : Byte)
  | reset
  deriving DecidableEq, Repr

/-- Who moves next in the total order of 20_memory.md R70. -/
inductive Turn where
  /-- A host move. -/
  | host (m : HostMove)
  /-- One parser transition (44_fsm.md R246). -/
  | parser
  /-- The parser transitions that decode the header of the record at the cursor, taken as one step: "an implementation
  may merge or split phases, and the host can observe none of it" (44_fsm.md R248; notes/assumptions/5.md). -/
  | record
  /-- `WAIT`: the host reads `STATUS` until it is DONE (30_encoding.md R106); the parser moves meanwhile. -/
  | wait
  deriving DecidableEq, Repr

/-- The block, its buffer, and the turns to come. -/
structure State where
  /-- `BUF_CAP`, a parameter and not state of the block (10_state.md R20): no step changes it. -/
  bufCap : Nat
  regs : Regs
  /-- `AVPT` (10_state.md R46). -/
  avpt : Table
  /-- `BUF` (10_state.md R48). -/
  buf : Memory
  hid : Hidden
  /-- The line `done` (10_state.md R50). -/
  done : Bool
  /-- MODEL's own: the host's moves and the parser's turns still to come, in order; when empty, the parser's turn. -/
  turns : List Turn
  /-- MODEL's own: the value the host last read (a register of the host, not of the block). -/
  rdata : Word
  /-- MODEL's own: how many resets there have been; it names the unspecified buffer content (`Config.resetByte`). -/
  epoch : Nat
  /-- MODEL's own: how many unspecified table words have been read (`Config.tableWord`). -/
  fresh : Nat
  deriving DecidableEq, Repr

/-- Why the machine stops with a fault. The block has no trap (60_exceptions.md R274): both reasons mark an action the
spec gives no meaning to and proves the parser never takes, so they are raised in no state that meets `Inv`. -/
inductive Fault where
  /-- Raised by a parser phase or a record whose `MemRead` is outside its domain `addr + n <= BUF_LEN` (00_scope.md R13);
  20_memory.md R66 says none is. Safe. -/
  | readOutsideBuffer
  /-- Raised by `M_APPEND` when `N` is not below `AVPT_CAP`; 42_decode_msg.md R186 says it always is. Safe. -/
  | tableOverflow
  deriving DecidableEq, Repr

/-- Why a move has no meaning. -/
inductive Refusal where
  /-- Raised by `exec`'s arm of an instruction that has no meaning yet: none is left. Safe. -/
  | notModelled (mnemonic : String)
  /-- Raised by DECODE_AVP and DECODE_MSG accepted with `BUF_LEN > BUF_CAP`: the premise `BufLenFits` fails and "the
  command has no meaning" (70_reset_and_hazards.md R316; 93_implementation_defined.md U2). Safe. -/
  | bufLenExceedsCap
  /-- Raised by a host write of a buffer byte while BUSY: the premise `HostQuiet` fails (20_memory.md R73;
  93_implementation_defined.md U1). Safe. -/
  | bufWriteWhileBusy
  /-- Raised by a register or table access that is not an aligned 32-bit word (43_host_commands.md R201;
  93_implementation_defined.md U5). Safe. -/
  | notAlignedWord
  /-- Raised by an access outside its address space (43_host_commands.md R203; 93_implementation_defined.md U5). Safe. -/
  | outsideAddressSpace
  deriving DecidableEq, Repr

/-- What a step or a meaning answers. -/
abbrev Out := Host.Outcome State Fault Refusal

/-- Every register of `REG` at 0 (10_state.md R51). -/
def Regs.reset : Regs :=
  { cmd := 0, status := .idle, bufLen := 0, offset := 0, newOffset := 0, err := { kind := 0, cause := 0 },
    errOffset := 0, avp := .zero, msg := .zero, avpCount := 0 }

/-- The hidden registers after reset. The spec calls them "unspecified and unobservable" (10_state.md R51): these values
are a DESIGN CHOICE (notes/assumptions/4.md). -/
def Hidden.reset : Hidden :=
  { ph := .aAvail, top := .avp, cur := 0, base := 0, lenL := 0, avail := 0, mlen := 0, hs := 0, alen := 0,
    sAvp := .zero, sMsg := .zero, n := 0, ecause := 0, eat := 0 }

/-- The block right after reset (10_state.md R51, 70_reset_and_hazards.md R310), for a given `BUF_CAP` and a given list of
turns to come. `BUF` and `AVPT` list nothing: each of their bytes and entries is unspecified. -/
def State.resetWith (bufCap : Nat) (turns : List Turn) : State :=
  { bufCap := bufCap, regs := .reset, avpt := [], buf := [], hid := .reset, done := false, turns := turns, rdata := 0,
    epoch := 0, fresh := 0 }

/-- The machine right after reset, with no turn pending. -/
def State.reset : State :=
  State.resetWith Config.defaultBufCap []

/-! One update per field that a step writes. -/

def State.setRegs (s : State) (r : Regs) : State := { s with regs := r }
def State.setAvpt (s : State) (t : Table) : State := { s with avpt := t }
def State.setBuf (s : State) (m : Memory) : State := { s with buf := m }
def State.setHid (s : State) (h : Hidden) : State := { s with hid := h }
def State.setDone (s : State) (d : Bool) : State := { s with done := d }
def State.setTurns (s : State) (ts : List Turn) : State := { s with turns := ts }
def State.setRdata (s : State) (v : Word) : State := { s with rdata := v }
def State.setFresh (s : State) (k : Nat) : State := { s with fresh := k }

end Sys2Proof.Machine
end

