-- ==== Sys2Proof/Machine/Flags.lean ====
section
/-! DEFINITION. The flags of the block. It has no condition codes (10_state.md R29): its flags are the error record, the
state code and the line `done`; and the helpers over the AVP flags byte and over lengths (40_helpers.md). -/

namespace Sys2Proof.Machine

/-- `padded_length(n) = 4 * ((n + 3) div 4)` (40_helpers.md R120), over the naturals (93_implementation_defined.md U6). -/
def paddedLength (n : Nat) : Nat :=
  4 * ((n + 3) / 4)

/-- The bit formula `(n + 3) & ~3` of 40_helpers.md R120 and R122 in the 32-bit datapath. -/
def paddedLengthBits (n : Word) : Word :=
  (n + 3) &&& ~~~3

/-- `header_size(flags)`: 12 if the V bit is set, else 8 (40_helpers.md R126). -/
def headerSize (flags : Byte) : Nat :=
  if hasVendorId flags then 12 else 8

/-- `STATUS.STATE`'s code: 0 IDLE, 1 BUSY, 2 DONE_OK, 3 DONE_ERR (10_state.md R23). -/
def RunState.code : RunState → BitVec 2
  | .idle => 0
  | .busy => 1
  | .doneOk => 2
  | .doneErr => 3

/-- DONE_OK or DONE_ERR: when the line `done` is 1 (10_state.md R50). -/
def RunState.isDone : RunState → Bool
  | .idle => false
  | .busy => false
  | .doneOk => true
  | .doneErr => true

/-- The two error kinds (60_exceptions.md R270). No rule ever raises Semantic (R271). -/
inductive ErrKind where
  | structural
  | semantic
  deriving DecidableEq, Repr

/-- `ERR.KIND`'s code: 1 Structural, 2 Semantic (60_exceptions.md R270). -/
def ErrKind.code : ErrKind → BitVec 2
  | .structural => 1
  | .semantic => 2

/-- The six causes, one per check (60_exceptions.md R272). -/
inductive Cause where
  | avpHdrShort
  | avpLenLtHdr
  | avpLenGtAvail
  | msgHdrShort
  | msgLenLtHdr
  | msgLenGtAvail
  deriving DecidableEq, Repr

/-- `ERR.CAUSE`'s code (60_exceptions.md R272). -/
def Cause.code : Cause → BitVec 3
  | .avpHdrShort => 1
  | .avpLenLtHdr => 2
  | .avpLenGtAvail => 3
  | .msgHdrShort => 4
  | .msgLenLtHdr => 5
  | .msgLenGtAvail => 6

/-- `ERR` as the host reads it: `KIND | CAUSE << 8` (10_state.md R29). -/
def ErrReg.word (e : ErrReg) : Word :=
  e.kind.setWidth 32 ||| (e.cause.setWidth 32 <<< 8)

end Sys2Proof.Machine
end

