-- ==== Sys2Proof/Machine/Operands.lean ====
section
/-! DEFINITION. The operand forms. The parser has one addressing mode, record base plus constant displacement, and loads
of 1, 3 and 4 bytes (40_helpers.md R127). The host has the register map (10_state.md R21), the table layout (R46) and
the buffer bytes. -/

namespace Sys2Proof.Machine

/-- The entry of a sparse list at key `a`; the list has strictly rising keys. -/
def sparseGet {α : Type} : List (Nat × α) → Nat → Option α
  | [], _ => none
  | (b, w) :: rest, a => if a = b then some w else sparseGet rest a

/-- `BUF[a]`: the byte the host last wrote there since reset, else the unspecified byte of that address
(20_memory.md R70; 93_implementation_defined.md U3). -/
def byteAt (s : State) (a : Nat) : Byte :=
  (sparseGet s.buf a).getD (Config.resetByte s.epoch a)

/-- `n` bytes from address `a` on, lowest address first: `MemSlice(a, n)` (00_scope.md R13). -/
def slice (read : Nat → Byte) (a : Nat) : Nat → List Byte
  | 0 => []
  | n + 1 => read a :: slice read (a + 1) n

/-- The big-endian number of the `n` bytes at `a` (00_scope.md R13, 20_memory.md R61). -/
def beRead (read : Nat → Byte) (a n : Nat) : Nat :=
  beValue (slice read a n)

/-- `MemRead(addr, n)` of a running command: defined only inside the buffer, `addr + n <= BUF_LEN` (00_scope.md R13),
where `BUF_LEN` is the latched `LEN_L` (44_fsm.md R232). -/
def memRead (s : State) (addr n : Nat) : Option Nat :=
  if addr + n ≤ s.hid.lenL.toNat then some (beRead (byteAt s) addr n) else none

/-- The registers of 10_state.md R21. -/
inductive RegName where
  | cmd | status | bufLen | offset | newOffset | err | errOffset
  | avpCode | avpFlags | avpVendorId | avpLen | avpDataOff | avpDataLen
  | msgVersion | msgLength | msgFlags | msgCommandCode | msgAppId | msgHbhId | msgE2eId | msgAvpCount
  deriving DecidableEq, Repr

/-- Byte offset of a register in `REG` (10_state.md R21). -/
def RegName.off : RegName → Nat
  | .cmd => 0x00
  | .status => 0x04
  | .bufLen => 0x08
  | .offset => 0x0C
  | .newOffset => 0x10
  | .err => 0x14
  | .errOffset => 0x18
  | .avpCode => 0x20
  | .avpFlags => 0x24
  | .avpVendorId => 0x28
  | .avpLen => 0x2C
  | .avpDataOff => 0x30
  | .avpDataLen => 0x34
  | .msgVersion => 0x40
  | .msgLength => 0x44
  | .msgFlags => 0x48
  | .msgCommandCode => 0x4C
  | .msgAppId => 0x50
  | .msgHbhId => 0x54
  | .msgE2eId => 0x58
  | .msgAvpCount => 0x5C

/-- All registers, in the map's order. -/
def RegName.all : List RegName :=
  [.cmd, .status, .bufLen, .offset, .newOffset, .err, .errOffset,
   .avpCode, .avpFlags, .avpVendorId, .avpLen, .avpDataOff, .avpDataLen] ++
  [.msgVersion, .msgLength, .msgFlags, .msgCommandCode, .msgAppId, .msgHbhId, .msgE2eId, .msgAvpCount]

/-- The register at an offset; none at a reserved one (10_state.md R21). -/
def regAt (off : Nat) : Option RegName :=
  RegName.all.find? fun r => decide (r.off = off)

/-- A register as the 32-bit word the host reads: narrower fields zero-extended, unused bits 0 (10_state.md R21). -/
def RegName.read (r : Regs) : RegName → Word
  | .cmd => r.cmd.setWidth 32
  | .status => r.status.code.setWidth 32
  | .bufLen => r.bufLen
  | .offset => r.offset
  | .newOffset => r.newOffset
  | .err => r.err.word
  | .errOffset => r.errOffset
  | .avpCode => r.avp.code
  | .avpFlags => r.avp.flags.setWidth 32
  | .avpVendorId => r.avp.vendorId
  | .avpLen => r.avp.len.setWidth 32
  | .avpDataOff => r.avp.dataOff
  | .avpDataLen => r.avp.dataLen.setWidth 32
  | .msgVersion => r.msg.version.setWidth 32
  | .msgLength => r.msg.length.setWidth 32
  | .msgFlags => r.msg.flags.setWidth 32
  | .msgCommandCode => r.msg.commandCode.setWidth 32
  | .msgAppId => r.msg.appId
  | .msgHbhId => r.msg.hbhId
  | .msgE2eId => r.msg.e2eId
  | .msgAvpCount => r.avpCount.setWidth 32

/-- What a host read of offset `off` returns: the register there, 0 at a reserved offset (43_host_commands.md R201,
R202). -/
def regRead (r : Regs) (off : Nat) : Word :=
  match regAt off with
  | some name => name.read r
  | none => 0

/-- The fields of an `AVPT` entry (10_state.md R46). -/
inductive TblField where
  | code | flags | vendorId | len | dataOff | dataLen
  deriving DecidableEq, Repr

/-- Byte offset of a field in its entry (10_state.md R46). -/
def TblField.off : TblField → Nat
  | .code => 0x00
  | .flags => 0x04
  | .vendorId => 0x08
  | .len => 0x0C
  | .dataOff => 0x10
  | .dataLen => 0x14

/-- The word at byte offset `k` of a valid entry; the reserved words +0x18 and +0x1C read 0 (10_state.md R46). -/
def entryWord (d : Desc) (k : Nat) : Word :=
  if k = 0x00 then d.code
  else if k = 0x04 then d.flags.setWidth 32
  else if k = 0x08 then d.vendorId
  else if k = 0x0C then d.len.setWidth 32
  else if k = 0x10 then d.dataOff
  else if k = 0x14 then d.dataLen.setWidth 32
  else 0

/-- A register or table access must be an aligned 32-bit word (43_host_commands.md R201). -/
def alignedWord (size off : Nat) : Bool :=
  decide (size = 4) && decide (off % 4 = 0)

end Sys2Proof.Machine
end

