-- ==== Sys2Proof/Machine/Ops.lean ====
section
/-! DEFINITION. The named operations over memory and registers: sparse lists in canonical form, clearing the results,
accept, CLEAR, taking an error (the fail step, the block's counterpart of trap entry, 60_exceptions.md R280), and the
two commits. There is no return from an error: DONE_ERR is left by CLEAR or a new command (R283). -/

namespace Sys2Proof.Machine

/-- Set the entry at key `a`, keeping the keys strictly rising. -/
def sparseSet {α : Type} : List (Nat × α) → Nat → α → List (Nat × α)
  | [], a, v => [(a, v)]
  | (b, w) :: rest, a, v =>
    if a < b then (a, v) :: (b, w) :: rest
    else if a = b then (a, v) :: rest
    else (b, w) :: sparseSet rest a v

/-- The keys rise strictly and are at least `lo`. -/
def risingFrom {α : Type} : Nat → List (Nat × α) → Bool
  | _, [] => true
  | lo, (b, _) :: rest => decide (lo ≤ b) && risingFrom (b + 1) rest

/-- Every key is below `cap`. -/
def keysBelow {α : Type} (cap : Nat) (l : List (Nat × α)) : Bool :=
  l.all fun e => decide (e.1 < cap)

/-- The canonical form of buffer memory: addresses strictly rising. An unlisted address reads as "not written", which no
entry is, so nothing more is needed. -/
def Memory.wf (m : Memory) : Bool :=
  risingFrom 0 m

/-- The canonical form of the table: indexes strictly rising. -/
def Table.wf (t : Table) : Bool :=
  risingFrom 0 t

/-- Go on with `f` if `o` is a next state. -/
def andThen (o : Out) (f : State → Out) : Out :=
  match o with
  | .next s => f s
  | .fault r => .fault r
  | .refused r => .refused r

/-- Go on with the value of a `MemRead`, or fault if it was outside the buffer (00_scope.md R13). -/
def withRead (o : Option Nat) (f : Nat → Out) : Out :=
  match o with
  | some v => f v
  | none => .fault .readOutsideBuffer

/-- The registers with every result at 0: `NEW_OFFSET`, `ERR`, `ERR_OFFSET`, group `AVP`, group `MSG`
(43_host_commands.md R206, R208). -/
def clearResults (r : Regs) : Regs :=
  { r with newOffset := 0, err := { kind := 0, cause := 0 }, errOffset := 0, avp := .zero, msg := .zero, avpCount := 0 }

/-- The first phase of a command (44_fsm.md R232). -/
def firstPhase : Top → Phase
  | .avp => .aAvail
  | .msg => .mAvail

/-- The accept step (43_host_commands.md R206, 44_fsm.md R232): results cleared, BUSY, `done` low, operands latched. The
table is left as it is: no entry is valid once `MSG_AVP_COUNT` is 0. DESIGN CHOICE: so are the hidden registers not latched
here (notes/assumptions/13.md, 20.md). -/
def acceptStep (top : Top) (w : BitVec 2) (s : State) : State :=
  ((s.setRegs { clearResults s.regs with cmd := w, status := .busy }).setDone false).setHid
    { s.hid with ph := firstPhase top, top := top, cur := s.regs.offset, base := s.regs.offset, lenL := s.regs.bufLen,
                 n := 0 }

/-- Accepting a decode command: dropped while BUSY (43_host_commands.md R204), refused if `BUF_LEN > BUF_CAP` (R205,
70_reset_and_hazards.md R316), else the accept step. -/
def accept (top : Top) (w : BitVec 2) (s : State) : Out :=
  if s.regs.status = .busy then .next s
  else if s.regs.bufLen.toNat ≤ s.bufCap then .next (acceptStep top w s)
  else .refused .bufLenExceedsCap

/-- CLEAR's one step (43_host_commands.md R208). DESIGN CHOICE: the hidden registers and the table's data stay as they
stood (notes/assumptions/20.md, 13.md). -/
def clearStep (s : State) : State :=
  (s.setRegs { clearResults s.regs with cmd := 0, status := .idle }).setDone false

/-- `raise Structural(cause)` for the record at `eat` (00_scope.md R14): note it and go to `FAIL` (44_fsm.md R233, R235,
R238, R240). -/
def raiseStructural (c : Cause) (eat : Word) (s : State) : State :=
  s.setHid { s.hid with ecause := c.code, eat := eat, ph := .fail }

/-- The fail step (60_exceptions.md R280, 44_fsm.md R245). Nothing else changes: no mode, no vector, no stack.
DESIGN CHOICE: the hidden registers and the table's data stay as they stood (notes/assumptions/20.md, 13.md). -/
def failStep (s : State) : State :=
  (s.setRegs { s.regs with err := { kind := ErrKind.structural.code, cause := s.hid.ecause }, errOffset := s.hid.eat,
                           newOffset := s.hid.base, status := .doneErr }).setDone true

/-- Commit of DECODE_AVP (41_decode_avp.md R151, 44_fsm.md R244). DESIGN CHOICE: the hidden registers stay as they stood
(notes/assumptions/20.md). -/
def commitAvp (s : State) : State :=
  (s.setRegs { s.regs with avp := s.hid.sAvp, newOffset := s.hid.cur, status := .doneOk }).setDone true

/-- Commit of DECODE_MSG (42_decode_msg.md R179, 44_fsm.md R244). DESIGN CHOICE: the hidden registers, and the table's data
at and above the count, stay as they stood (notes/assumptions/20.md, 13.md). -/
def commitMsg (s : State) : State :=
  (s.setRegs { s.regs with msg := s.hid.sMsg, avpCount := s.hid.n, newOffset := s.hid.cur, status := .doneOk }).setDone true

/-- The state right after reset (70_reset_and_hazards.md R310, R311): the block as `State.resetWith` has it; the host's
own register and its moves to come are not the block's, and the unspecified contents are new. -/
def resetStep (s : State) : State :=
  { State.resetWith s.bufCap s.turns with rdata := s.rdata, epoch := s.epoch + 1, fresh := s.fresh }

end Sys2Proof.Machine
end

