-- ==== Sys2Proof/Machine/Commands.lean ====
section
/-! DEFINITION. The three commands (43_host_commands.md R205 to R208). A decode command's own step is its accept; the
FSM's steps then carry it to commit or fail. -/

namespace Sys2Proof.Machine

/-- CLEAR (43_host_commands.md R208); dropped while BUSY (R204). -/
def execClear (s : State) : Out :=
  if s.regs.status = .busy then .next s else .next (clearStep s)

/-- DECODE_AVP, command word 1 (41_decode_avp.md R151). -/
def execDecodeAvp (s : State) : Out :=
  accept .avp 1 s

/-- DECODE_MSG, command word 2 (42_decode_msg.md R179). -/
def execDecodeMsg (s : State) : Out :=
  accept .msg 2 s

end Sys2Proof.Machine
end

