-- ==== Sys2Proof/Machine/Avp.lean ====
section
/-! DEFINITION. The AVP engine (44_fsm.md R233 to R237): its five phases, and the meaning of the record forms AVP8 and
AVP12 (41_decode_avp.md R152, R153), which is those phases on a record whose base header has been decoded. -/

namespace Sys2Proof.Machine

/-- The bytes from `at_` to the end of the buffer, 0 past the end (41_decode_avp.md R141, 42_decode_msg.md R171). -/
def bytesLeft (lenL at_ : Word) : Word :=
  if at_.toNat ≤ lenL.toNat then lenL - at_ else 0

/-- Phase `A_AVAIL` (44_fsm.md R233). -/
def phAAvail (s : State) : State :=
  let s1 := s.setHid { s.hid with avail := bytesLeft s.hid.lenL s.hid.cur }
  if s1.hid.avail.toNat < 8 then raiseStructural .avpHdrShort s.hid.cur s1
  else s1.setHid { s1.hid with ph := .aHdr }

/-- The writes of phase `A_HDR` for a header already read (44_fsm.md R234). -/
def latchAvpHeader (code : Word) (flags : Byte) (len : U24) (s : State) : State :=
  s.setHid { s.hid with sAvp := { s.hid.sAvp with code := code, flags := flags, len := len }, alen := len, ph := .aCheck }

/-- Phase `A_HDR` (44_fsm.md R234): `MemRead(CUR, 4)`, `MemRead(CUR+4, 1)`, `MemRead(CUR+5, 3)`. -/
def phAHdr (s : State) : Out :=
  withRead (memRead s s.hid.cur.toNat 4) fun code =>
  withRead (memRead s (s.hid.cur.toNat + 4) 1) fun flags =>
  withRead (memRead s (s.hid.cur.toNat + 5) 3) fun len =>
    .next (latchAvpHeader (BitVec.ofNat 32 code) (BitVec.ofNat 8 flags) (BitVec.ofNat 24 len) s)

/-- Phase `A_CHECK` (44_fsm.md R235): `AVP_LEN_LT_HDR` is tested first (41_decode_avp.md R146, decision D25). -/
def phACheck (s : State) : State :=
  let s1 := s.setHid { s.hid with hs := BitVec.ofNat 4 (headerSize s.hid.sAvp.flags) }
  if s1.hid.alen.toNat < s1.hid.hs.toNat then raiseStructural .avpLenLtHdr s.hid.cur s1
  else if s1.hid.avail.toNat < s1.hid.alen.toNat then raiseStructural .avpLenGtAvail s.hid.cur s1
  else s1.setHid { s1.hid with ph := .aVid }

/-- The writes of phase `A_VID` for a vendor id already read, or 0 (44_fsm.md R236). -/
def latchVendorId (v : Word) (s : State) : State :=
  s.setHid { s.hid with sAvp := { s.hid.sAvp with vendorId := v }, ph := .aAdv }

/-- Phase `A_VID` (44_fsm.md R236): `MemRead(CUR+8, 4)` if `HS = 12`, else 0 and nothing is read. -/
def phAVid (s : State) : Out :=
  if s.hid.hs = 12 then
    withRead (memRead s (s.hid.cur.toNat + 8) 4) fun v => .next (latchVendorId (BitVec.ofNat 32 v) s)
  else .next (latchVendorId 0 s)

/-- Where the AVP engine returns to (44_fsm.md R237). -/
def afterAvp : Top → Phase
  | .avp => .commit
  | .msg => .mAppend

/-- Phase `A_ADV` (44_fsm.md R237): the view of the data, and the cursor's advance by the padded record. -/
def phAAdv (s : State) : State :=
  let dl := s.hid.alen.toNat - s.hid.hs.toNat
  s.setHid { s.hid with
    sAvp := { s.hid.sAvp with dataLen := BitVec.ofNat 24 dl,
                              dataOff := BitVec.ofNat 32 (s.hid.cur.toNat + s.hid.hs.toNat) },
    cur := BitVec.ofNat 32 (s.hid.cur.toNat + s.hid.hs.toNat + paddedLength dl),
    ph := afterAvp s.hid.top }

/-- Go on unless the error path was taken (44_fsm.md R246: `FAIL` is left only by the fail step). -/
def unlessFail (f : State → Out) (s : State) : Out :=
  if s.hid.ph = .fail then .next s else f s

/-- An AVP record whose base header is `code`, `flags`, `len`, at the cursor: the AVP engine from `A_AVAIL` to its return
or to `FAIL`. This is `DecodeAvp` (41_decode_avp.md R140) with the header given. -/
def avpRecord (code : Word) (flags : Byte) (len : U24) (s : State) : Out :=
  unlessFail (fun s1 =>
    unlessFail (fun s2 => andThen (phAVid s2) fun s3 => .next (phAAdv s3))
      (phACheck (latchAvpHeader code flags len s1)))
    (phAAvail s)

/-- AVP8 (41_decode_avp.md R152): V clear, so `HS = 8` and no vendor id is read. -/
def execAvp8 (code : Word) (m p : Bool) (rsv : BitVec 5) (len : U24) (s : State) : Out :=
  avpRecord code (flagsByte false m p rsv) len s

/-- AVP12 (41_decode_avp.md R153): V set, so `HS = 12` and the vendor id is `MemRead(CUR+8, 4)`. -/
def execAvp12 (code : Word) (m p : Bool) (rsv : BitVec 5) (len : U24) (s : State) : Out :=
  avpRecord code (flagsByte true m p rsv) len s

end Sys2Proof.Machine
end

