-- ==== Sys2Proof/Machine/Msg.lean ====
section
/-! DEFINITION. The Message engine (44_fsm.md R238 to R243): its six phases, and the meaning of the record form MSGH
(42_decode_msg.md R171 to R174), which is the four header phases on a header that has been decoded. -/

namespace Sys2Proof.Machine

/-- Phase `M_AVAIL` (44_fsm.md R238). -/
def phMAvail (s : State) : State :=
  let s1 := s.setHid { s.hid with avail := bytesLeft s.hid.lenL s.hid.base }
  if s1.hid.avail.toNat < 20 then raiseStructural .msgHdrShort s.hid.base s1
  else s1.setHid { s1.hid with ph := .mLen }

/-- The writes of phase `M_LEN` for fields already read (44_fsm.md R239). -/
def latchMsgLen (version : Byte) (len : U24) (s : State) : State :=
  s.setHid { s.hid with sMsg := { s.hid.sMsg with version := version, length := len }, mlen := len, ph := .mCheck }

/-- Phase `M_LEN` (44_fsm.md R239): `MemRead(BASE, 1)`, `MemRead(BASE+1, 3)`. -/
def phMLen (s : State) : Out :=
  withRead (memRead s s.hid.base.toNat 1) fun version =>
  withRead (memRead s (s.hid.base.toNat + 1) 3) fun len =>
    .next (latchMsgLen (BitVec.ofNat 8 version) (BitVec.ofNat 24 len) s)

/-- Phase `M_CHECK` (44_fsm.md R240). -/
def phMCheck (s : State) : State :=
  if s.hid.mlen.toNat < 20 then raiseStructural .msgLenLtHdr s.hid.base s
  else if s.hid.avail.toNat < s.hid.mlen.toNat then raiseStructural .msgLenGtAvail s.hid.base s
  else s.setHid { s.hid with ph := .mHdr }

/-- The writes of phase `M_HDR` for fields already read; the cursor goes to the first byte after the header
(44_fsm.md R241). -/
def latchMsgHeader (flags : Byte) (cc : U24) (app hbh e2e : Word) (s : State) : State :=
  s.setHid { s.hid with
    sMsg := { s.hid.sMsg with flags := flags, commandCode := cc, appId := app, hbhId := hbh, e2eId := e2e },
    cur := BitVec.ofNat 32 (s.hid.base.toNat + 20), ph := .mLoop }

/-- Phase `M_HDR` (44_fsm.md R241). -/
def phMHdr (s : State) : Out :=
  withRead (memRead s (s.hid.base.toNat + 4) 1) fun flags =>
  withRead (memRead s (s.hid.base.toNat + 5) 3) fun cc =>
  withRead (memRead s (s.hid.base.toNat + 8) 4) fun app =>
  withRead (memRead s (s.hid.base.toNat + 12) 4) fun hbh =>
  withRead (memRead s (s.hid.base.toNat + 16) 4) fun e2e =>
    .next (latchMsgHeader (BitVec.ofNat 8 flags) (BitVec.ofNat 24 cc) (BitVec.ofNat 32 app) (BitVec.ofNat 32 hbh)
      (BitVec.ofNat 32 e2e) s)

/-- Phase `M_LOOP` (44_fsm.md R242): the strict test of the running offset against the declared length. -/
def phMLoop (s : State) : State :=
  if s.hid.cur.toNat - s.hid.base.toNat < s.hid.mlen.toNat then s.setHid { s.hid with ph := .aAvail }
  else s.setHid { s.hid with ph := .commit }

/-- Phase `M_APPEND` (44_fsm.md R243). The table cannot overflow (42_decode_msg.md R186); were `N` not below `AVPT_CAP`
there would be no entry to write. -/
def phMAppend (s : State) : Out :=
  if s.hid.n.toNat < Config.avptCap s.bufCap then
    .next ((s.setAvpt (sparseSet s.avpt s.hid.n.toNat s.hid.sAvp)).setHid
      { s.hid with n := s.hid.n + 1, ph := .mLoop })
  else .fault .tableOverflow

/-- MSGH (42_decode_msg.md R171 to R174): the header phases of the Message engine, from `M_AVAIL` to `M_LOOP` or to
`FAIL`, on the header given. -/
def execMsgh (version : Byte) (len : U24) (flags : Byte) (cc : U24) (app hbh e2e : Word) (s : State) : Out :=
  unlessFail (fun s1 =>
    unlessFail (fun s2 => .next (latchMsgHeader flags cc app hbh e2e s2))
      (phMCheck (latchMsgLen version len s1)))
    (phMAvail s)

end Sys2Proof.Machine
end

