-- ==== Sys2Proof/Machine/Dispatch.lean ====
section
/-! DEFINITION. One arm per constructor of Instr. -/

namespace Sys2Proof.Machine

def exec (i : Instr) (s : State) : Host.Outcome State Fault Refusal :=
  match i with
  | .clear => Sys2Proof.Machine.execClear s
  | .decodeAvp => Sys2Proof.Machine.execDecodeAvp s
  | .decodeMsg => Sys2Proof.Machine.execDecodeMsg s
  | .avp8 code m p rsv len => Sys2Proof.Machine.execAvp8 code m p rsv len s
  | .avp12 code m p rsv len => Sys2Proof.Machine.execAvp12 code m p rsv len s
  | .msgh version len flags cc app hbh e2e => Sys2Proof.Machine.execMsgh version len flags cc app hbh e2e s

end Sys2Proof.Machine
end

