-- ==== Sys2Proof/Machine/Fsm.lean ====
section
/-! DEFINITION. The parser agent: one transition of the decoder FSM (44_fsm.md R246). -/

namespace Sys2Proof.Machine

/-- The commit of the command that runs (44_fsm.md R244). -/
def phCommit (s : State) : State :=
  match s.hid.top with
  | .avp => commitAvp s
  | .msg => commitMsg s

/-- One transition of a BUSY parser (44_fsm.md R246). -/
def phaseStep (s : State) : Out :=
  match s.hid.ph with
  | .aAvail => .next (phAAvail s)
  | .aHdr => phAHdr s
  | .aCheck => .next (phACheck s)
  | .aVid => phAVid s
  | .aAdv => .next (phAAdv s)
  | .mAvail => .next (phMAvail s)
  | .mLen => phMLen s
  | .mCheck => .next (phMCheck s)
  | .mHdr => phMHdr s
  | .mLoop => .next (phMLoop s)
  | .mAppend => phMAppend s
  | .commit => .next (phCommit s)
  | .fail => .next (failStep s)

/-- The parser's turn: a transition while BUSY; in IDLE and the DONE states it has no step and nothing changes
(44_fsm.md R230, 60_exceptions.md R298). -/
def parserTurn (s : State) : Out :=
  if s.regs.status = .busy then phaseStep s else .next s

end Sys2Proof.Machine
end

