-- ==== Sys2Proof/Machine/HostMoves.lean ====
section
/-! DEFINITION. The host agent's moves other than a write to `CMD` (43_host_commands.md R200 to R204). A read changes
nothing of the block (R201); the value it returns goes to the host's own register `rdata`. -/

namespace Sys2Proof.Machine

/-- Read a register: allowed in every state (43_host_commands.md R202). -/
def hostReadReg (size off : Nat) (s : State) : Out :=
  if alignedWord size off then
    if off < 256 then .next (s.setRdata (regRead s.regs off)) else .refused .outsideAddressSpace
  else .refused .notAlignedWord

/-- The effect of a register write at an offset other than `CMD`'s: `BUF_LEN` and `OFFSET` are stored; read-only and
reserved offsets drop it; everything drops it while BUSY (10_state.md R21, 43_host_commands.md R201, R204). -/
def storeReg (off : Nat) (v : Word) (s : State) : State :=
  if s.regs.status = .busy then s
  else
    match regAt off with
    | some .bufLen => s.setRegs { s.regs with bufLen := v }
    | some .offset => s.setRegs { s.regs with offset := v }
    | _ => s

/-- Write a register other than `CMD`. -/
def hostWriteReg (size off : Nat) (v : Word) (s : State) : Out :=
  if alignedWord size off then
    if off < 256 then .next (storeReg off v s) else .refused .outsideAddressSpace
  else .refused .notAlignedWord

/-- The word of `AVPT` at byte offset `off`, and the state after reading it: a valid entry's word, else an unspecified
value that may differ from read to read (43_host_commands.md R202, 93_implementation_defined.md U4). -/
def tableRead (off : Nat) (s : State) : State :=
  match (if off / 32 < s.regs.avpCount.toNat then sparseGet s.avpt (off / 32) else none) with
  | some d => s.setRdata (entryWord d (off % 32))
  | none => (s.setRdata (Config.tableWord s.fresh)).setFresh (s.fresh + 1)

/-- Read a table word: allowed in every state (43_host_commands.md R202). -/
def hostReadTbl (size off : Nat) (s : State) : Out :=
  if alignedWord size off then
    if off < 32 * Config.avptCap s.bufCap then .next (tableRead off s) else .refused .outsideAddressSpace
  else .refused .notAlignedWord

/-- Read a buffer byte: allowed in every state (43_host_commands.md R203). -/
def hostReadBuf (addr : Nat) (s : State) : Out :=
  if addr < s.bufCap then .next (s.setRdata ((byteAt s addr).setWidth 32)) else .refused .outsideAddressSpace

/-- Write a buffer byte: `MemWrite(a, 1, v)`, which has a meaning only while the block is not BUSY (43_host_commands.md
R203, 20_memory.md R73). -/
def hostWriteBuf (addr : Nat) (v : Byte) (s : State) : Out :=
  if addr < s.bufCap then
    if s.regs.status = .busy then .refused .bufWriteWhileBusy else .next (s.setBuf (sparseSet s.buf addr v))
  else .refused .outsideAddressSpace

/-- A host move. A write to `CMD` is an instruction: `fetch` hands it to `exec` before it comes here. -/
def hostMove (m : HostMove) (s : State) : Out :=
  match m with
  | .rdReg size off => hostReadReg size off s
  | .wrReg size off v => hostWriteReg size off v s
  | .wrRegLast size off => hostWriteReg size off s.rdata s
  | .rdTbl size off => hostReadTbl size off s
  | .rdBuf addr => hostReadBuf addr s
  | .wrBuf addr v => hostWriteBuf addr v s
  | .reset => .next (resetStep s)

end Sys2Proof.Machine
end

