-- ==== Sys2Proof/Machine/Fetch.lean ====
section
/-! DEFINITION. Where an instruction comes from. A command word is the value of a host write to `CMD` (10_state.md R22); a
record's header is the bytes at the cursor, "since the bytes of the buffer are what the decoder executes" (20_memory.md
R73). `fetch` says what the next step is: an instruction to run, or an answer that needs none. -/

namespace Sys2Proof.Machine

/-- What the next step is. -/
inductive Fetched where
  /-- Run instruction `i` in state `s`. -/
  | run (i : Instr) (s : State)
  /-- The step's answer; no instruction is run. -/
  | act (o : Out)

/-- Run the instruction a decoder answers, in state `s`; where it answers none, the step's answer is `o`. -/
def runDecoded (s : State) (o : Out) : Except DecodeError (Instr × List Byte) → Fetched
  | .ok (i, _) => .run i s
  | .error _ => .act o

/-- A host write of `w` to `CMD`: the instruction it decodes to; a reserved opcode is dropped (10_state.md R22,
30_encoding.md R104). -/
def fetchCmd (w : Word) (s : State) : Fetched :=
  runDecoded s (.next s) (decode .cmdw (beBytes 4 w.toNat))

/-- The value a host move writes to `CMD`, if it is an aligned 32-bit write to offset 0x00 (10_state.md R21). -/
def cmdWrite (m : HostMove) (s : State) : Option Word :=
  match m with
  | .rdReg _ _ => none
  | .wrReg size off v => if size = 4 ∧ off = RegName.cmd.off then some v else none
  | .wrRegLast size off => if size = 4 ∧ off = RegName.cmd.off then some s.rdata else none
  | .rdTbl _ _ => none
  | .rdBuf _ => none
  | .wrBuf _ _ => none
  | .reset => none

/-- A host turn. -/
def fetchHost (m : HostMove) (s : State) : Fetched :=
  match cmdWrite m s with
  | some w => fetchCmd w s
  | none => .act (hostMove m s)

/-- The header of format `f` at address `a`, if the buffer holds all of it; else an ordinary parser transition, which is
then the one that finds the header short (41_decode_avp.md R142, 42_decode_msg.md R171). -/
def fetchHeader (f : Format) (a : Nat) (s : State) : Fetched :=
  if a + f.bytes ≤ s.hid.lenL.toNat then runDecoded s (phaseStep s) (decode f (slice (byteAt s) a f.bytes))
  else .act (phaseStep s)

/-- A record turn: the record at the cursor where the FSM is about to take one up (`A_AVAIL`, `M_AVAIL`), else an
ordinary parser turn. -/
def fetchRecord (s : State) : Fetched :=
  if s.regs.status = .busy then
    if s.hid.ph = .aAvail then fetchHeader .avp s.hid.cur.toNat s
    else if s.hid.ph = .mAvail then fetchHeader .msgh s.hid.base.toNat s
    else .act (phaseStep s)
  else .act (.next s)

/-- `WAIT`: the host reads `STATUS`; DONE ends the wait, and until then the parser moves (30_encoding.md R106,
70_reset_and_hazards.md R330). -/
def waitTurn (rest : List Turn) (s : State) : Out :=
  let s1 := s.setRdata (regRead s.regs RegName.status.off)
  if s.regs.status.isDone then .next (s1.setTurns rest) else parserTurn s1

/-- The next step, by the first turn of the list; when the list is empty, the parser's turn. -/
def fetch (s : State) : Fetched :=
  match s.turns with
  | [] => .act (parserTurn s)
  | .host m :: rest => fetchHost m (s.setTurns rest)
  | .parser :: rest => .act (parserTurn (s.setTurns rest))
  | .record :: rest => fetchRecord (s.setTurns rest)
  | .wait :: rest => .act (waitTurn rest s)

/-- `bs` written to `BUF` from address `a` on. -/
def writeBytes (m : Memory) (a : Nat) : List Byte → Memory
  | [] => m
  | b :: bs => writeBytes (sparseSet m a b) (a + 1) bs

/-- The host about to write `w` to `CMD`. -/
def placeCmd (s : State) (w : Nat) : State :=
  s.setTurns (.host (.wrReg 4 RegName.cmd.off (BitVec.ofNat 32 w)) :: s.turns)

/-- The parser about to take up, in phase `ph`, the record at address `a`, whose bytes are `bs` and then zeros, 20 in
all. -/
def placeRecord (s : State) (ph : Phase) (a : Word) (bs : List Byte) : State :=
  ((((s.setBuf (writeBytes s.buf a.toNat (bs ++ List.replicate (20 - bs.length) 0))).setRegs
    { s.regs with status := .busy }).setDone false).setHid
    { s.hid with ph := ph, lenL := BitVec.ofNat 32 (max s.hid.lenL.toNat (a.toNat + 20)) }).setTurns
    (.record :: s.turns)

/-- `withFetchWord`'s work: the `nbits`-bit number `w` placed where the next step takes its instruction
(notes/assumptions/7.md). A Message header is decoded only by DECODE_MSG, so `TOP` is then MSG. -/
def placeWord (s : State) (nbits w : Nat) : State :=
  match formatOfBits nbits with
  | some .cmdw => placeCmd s w
  | some .avp => placeRecord s .aAvail s.hid.cur (beBytes 8 w)
  | some .msgh => placeRecord (s.setHid { s.hid with top := .msg }) .mAvail s.hid.base (beBytes 20 w)
  | none => s

end Sys2Proof.Machine
end

