-- ==== Sys2Proof/Machine/Step.lean ====
section
/-! DEFINITION. One step of the total order of 20_memory.md R70, with its three outcomes. -/

namespace Sys2Proof.Machine

/-- The answer of a step: `exec` of the instruction fetched, or the answer that needs none. -/
def runFetched : Fetched → Out
  | .run i s => exec i s
  | .act o => o

/-- One step: the next turn's instruction is run, or the turn is answered without one. -/
def step (s : State) : Host.Outcome State Fault Refusal :=
  runFetched (fetch s)

/-- `s` with the instruction of the `nbits`-bit number `w` where `step` takes its next instruction. -/
def State.withFetchWord (s : State) (nbits w : Nat) : State :=
  placeWord s nbits w

end Sys2Proof.Machine
end

