-- ==== Sys2Proof/Machine/Script.lean ====
section
/-! DEFINITION. The host-script notation (30_encoding.md R105, R106) as turns, and the textual form of records (R107) as
bytes. A program of this block is a host script (95_test_vectors.md section 7). -/

namespace Sys2Proof.Machine

/-- Statements and pseudo-statements of a host script (30_encoding.md R105, R106). -/
inductive Stmt where
  | load (a : Nat) (bs : List Byte)
  | setLen (n : Word)
  | setOff (n : Word)
  | davp
  | dmsg
  | clr
  | rd (r : RegName)
  | rdt (i : Nat) (f : TblField)
  | wait
  | next
  | buffer (bs : List Byte)
  deriving DecidableEq, Repr

/-- `LOAD a, b0 b1 ...`: one byte write for each byte (30_encoding.md R105). -/
def loadTurns (a : Nat) : List Byte → List Turn
  | [] => []
  | b :: bs => .host (.wrBuf a b) :: loadTurns (a + 1) bs

/-- A write of a register by name. -/
def wrTurn (r : RegName) (v : Word) : Turn :=
  .host (.wrReg 4 r.off v)

/-- The host accesses a statement stands for (30_encoding.md R105, R106). -/
def Stmt.turns : Stmt → List Turn
  | .load a bs => loadTurns a bs
  | .setLen n => [wrTurn .bufLen n]
  | .setOff n => [wrTurn .offset n]
  | .davp => [wrTurn .cmd 1]
  | .dmsg => [wrTurn .cmd 2]
  | .clr => [wrTurn .cmd 0]
  | .rd r => [.host (.rdReg 4 r.off)]
  | .rdt i f => [.host (.rdTbl 4 (32 * i + f.off))]
  | .wait => [.wait]
  | .next => [.host (.rdReg 4 RegName.newOffset.off), .host (.wrRegLast 4 RegName.offset.off)]
  | .buffer bs => loadTurns 0 bs ++ [wrTurn .bufLen (BitVec.ofNat 32 bs.length)]

/-- A whole script. -/
def scriptTurns : List Stmt → List Turn
  | [] => []
  | st :: rest => st.turns ++ scriptTurns rest

/-- `avp(code=, flags=[, vendor=], data=[, pad=][, len=])` (30_encoding.md R107). -/
def avpText (code : Word) (flags : Byte) (vendor : Option Word) (data : List Byte) (pad : Option (List Byte))
    (len : Option U24) : List Byte :=
  encodeAvpHeader code flags (len.getD (BitVec.ofNat 24 (headerSize flags + data.length))) ++
    ((match vendor with
      | some v => beBytes 4 v.toNat
      | none => []) ++
      (data ++ pad.getD (List.replicate (paddedLength data.length - data.length) 0)))

/-- `msg(ver=, len=, flags=, cmd=, app=, hbh=, e2e=)` (30_encoding.md R107). -/
def msgText (ver : Byte) (len : U24) (flags : Byte) (cc : U24) (app hbh e2e : Word) : List Byte :=
  encode (.msgh ver len flags cc app hbh e2e)

end Sys2Proof.Machine
end

