-- ==== Sys2Proof/Machine/Functions.lean ====
section
/-! DEFINITION. The decoding functions of the spec in one piece each, `DecodeAvp` (41_decode_avp.md R140) and `DecodeMsg`
(42_decode_msg.md R170), over the naturals, and the logical values of 10_state.md R47. No step uses them: statements
hold the FSM against them (44_fsm.md R247). A buffer is a read function and a length. -/

namespace Sys2Proof.Machine

/-- `Ok(result, new_offset)` or `Err(kind, cause, at)` (00_scope.md R14). -/
inductive DecodeResult (α : Type) where
  | ok (v : α) (newOffset : Nat)
  | err (kind : ErrKind) (cause : Cause) (at_ : Nat)
  deriving DecidableEq, Repr

/-- A decoded Message: its scalars and its AVPs in wire order (42_decode_msg.md R170, R182). -/
structure Message where
  scalars : MsgScalars
  avps : List Desc
  deriving DecidableEq, Repr

/-- `available` and `remaining`: 0 past the end of the buffer (41_decode_avp.md R141, 42_decode_msg.md R171). -/
def availableAt (bufLen s : Nat) : Nat :=
  if s ≤ bufLen then bufLen - s else 0

/-- `DecodeAvp(s)` (41_decode_avp.md R140). -/
def decodeAvpAt (read : Nat → Byte) (bufLen s : Nat) : DecodeResult Desc :=
  let available := availableAt bufLen s
  if available < 8 then .err .structural .avpHdrShort s
  else
    let code := beRead read s 4
    let flags : Byte := BitVec.ofNat 8 (beRead read (s + 4) 1)
    let avpLength := beRead read (s + 5) 3
    let hs := headerSize flags
    if avpLength < hs then .err .structural .avpLenLtHdr s
    else if available < avpLength then .err .structural .avpLenGtAvail s
    else
      let vendorId := if hasVendorId flags then beRead read (s + 8) 4 else 0
      let dataLength := avpLength - hs
      .ok { code := BitVec.ofNat 32 code, flags := flags, vendorId := BitVec.ofNat 32 vendorId,
            len := BitVec.ofNat 24 avpLength, dataOff := BitVec.ofNat 32 (s + hs),
            dataLen := BitVec.ofNat 24 dataLength }
        (s + hs + paddedLength dataLength)

/-- The loop of `DecodeMsg` (42_decode_msg.md R175, R176) from cursor `cur`, for at most `fuel` AVPs. The loop ends by
itself within `msg_length / 8` of them (R185), so the fuel is never what ends it. -/
def decodeAvpsAt (read : Nat → Byte) (bufLen s msgLength : Nat) : Nat → Nat → DecodeResult (List Desc)
  | 0, cur => .ok [] cur
  | fuel + 1, cur =>
    if cur - s < msgLength then
      match decodeAvpAt read bufLen cur with
      | .err k c a => .err k c a
      | .ok d n =>
        match decodeAvpsAt read bufLen s msgLength fuel n with
        | .err k c a => .err k c a
        | .ok ds n' => .ok (d :: ds) n'
    else .ok [] cur

/-- The scalars of the Message header at `s` (42_decode_msg.md R172, R173). -/
def scalarsAt (read : Nat → Byte) (s : Nat) : MsgScalars :=
  { version := BitVec.ofNat 8 (beRead read s 1), length := BitVec.ofNat 24 (beRead read (s + 1) 3),
    flags := BitVec.ofNat 8 (beRead read (s + 4) 1), commandCode := BitVec.ofNat 24 (beRead read (s + 5) 3),
    appId := BitVec.ofNat 32 (beRead read (s + 8) 4), hbhId := BitVec.ofNat 32 (beRead read (s + 12) 4),
    e2eId := BitVec.ofNat 32 (beRead read (s + 16) 4) }

/-- `DecodeMsg(s)` (42_decode_msg.md R170). -/
def decodeMsgAt (read : Nat → Byte) (bufLen s : Nat) : DecodeResult Message :=
  let remaining := availableAt bufLen s
  if remaining < 20 then .err .structural .msgHdrShort s
  else
    let msgLength := beRead read (s + 1) 3
    if msgLength < 20 then .err .structural .msgLenLtHdr s
    else if remaining < msgLength then .err .structural .msgLenGtAvail s
    else
      match decodeAvpsAt read bufLen s msgLength msgLength (s + 20) with
      | .err k c a => .err k c a
      | .ok ds n => .ok { scalars := scalarsAt read s, avps := ds } n

/-- The source's AVP (10_state.md R47). -/
structure LogicalAvp where
  code : Word
  flags : Byte
  vendorId : Word
  data : List Byte
  deriving DecidableEq, Repr

/-- The logical AVP of a descriptor: its data is the slice its view names (10_state.md R47). -/
def logicalAvp (read : Nat → Byte) (d : Desc) : LogicalAvp :=
  { code := d.code, flags := d.flags, vendorId := d.vendorId, data := slice read d.dataOff.toNat d.dataLen.toNat }

/-- The source's Message (10_state.md R47): the declared length is not part of it. -/
structure LogicalMsg where
  version : Byte
  flags : Byte
  commandCode : U24
  appId : Word
  hbhId : Word
  e2eId : Word
  avps : List LogicalAvp
  deriving DecidableEq, Repr

/-- The logical Message of a decoded one (10_state.md R47). -/
def logicalMsg (read : Nat → Byte) (m : Message) : LogicalMsg :=
  { version := m.scalars.version, flags := m.scalars.flags, commandCode := m.scalars.commandCode,
    appId := m.scalars.appId, hbhId := m.scalars.hbhId, e2eId := m.scalars.e2eId,
    avps := m.avps.map (logicalAvp read) }

/-- A descriptor whose view starts `k` bytes further on. -/
def shiftDesc (k : Nat) (d : Desc) : Desc :=
  { d with dataOff := BitVec.ofNat 32 (d.dataOff.toNat + k) }

end Sys2Proof.Machine
end

