-- ==== Sys2Proof/Safety.lean ====
section
/-! DEFINITION. The terms statements use: runs, the invariant of the block, reachable states. `Inv` rules out the states
no run reaches, in which a parser phase could read outside the buffer or the table could be full. -/

namespace Sys2Proof.Machine

/-- `k` steps, stopping at the first fault or refusal. -/
def runSteps : Nat → State → Out
  | 0, s => .next s
  | k + 1, s => andThen (step s) (runSteps k)

/-- A descriptor as a successful decode leaves it: its length covers its header, its data view is `LEN` less the header,
starts after a header and lies inside the buffer memory, and an AVP8's vendor id is 0 (10_state.md R34 to R37,
20_memory.md R67). -/
abbrev DescOk (cap : Nat) (d : Desc) : Prop :=
  headerSize d.flags ≤ d.len.toNat ∧ d.dataLen.toNat = d.len.toNat - headerSize d.flags ∧
    headerSize d.flags ≤ d.dataOff.toNat ∧ d.dataOff.toNat + d.dataLen.toNat ≤ cap ∧
    (hasVendorId d.flags = false → d.vendorId = 0)

/-- Entry `i` of the table has been written and is a decoded AVP. -/
def entryOk (cap : Nat) (t : Table) (i : Nat) : Bool :=
  match sparseGet t i with
  | some d => decide (DescOk cap d)
  | none => false

/-- A cause code some check produces: 1 to 6 (60_exceptions.md R272). -/
abbrev CauseOk (c : BitVec 3) : Prop :=
  1 ≤ c.toNat ∧ c.toNat ≤ 6

/-- The opcode of the command that runs (44_fsm.md R232). -/
def Top.opcode : Top → BitVec 2
  | .avp => 1
  | .msg => 2

/-- The register space, state by state (43_host_commands.md R209, 10_state.md R29, R31). -/
abbrev RegsOk (s : State) : Prop :=
  (s.regs.status = .doneErr ↔ s.regs.err.kind ≠ 0) ∧
  (s.regs.status ≠ .doneErr → s.regs.err = { kind := 0, cause := 0 } ∧ s.regs.errOffset = 0) ∧
  (s.regs.status = .doneErr → s.regs.err.kind = 1 ∧ CauseOk s.regs.err.cause) ∧
  (s.regs.status = .idle → s.regs.cmd = 0) ∧
  (s.regs.status = .busy → s.regs.cmd = s.hid.top.opcode) ∧
  (s.regs.status.isDone = true → s.regs.cmd = 1 ∨ s.regs.cmd = 2) ∧
  (s.regs.status.isDone = false → s.regs.newOffset = 0) ∧
  (s.regs.status ≠ .doneOk → s.regs.avp = .zero ∧ s.regs.msg = .zero ∧ s.regs.avpCount = 0) ∧
  (s.regs.status = .doneOk → s.regs.newOffset.toNat ≤ s.bufCap + 3) ∧
  (s.regs.status = .doneOk → s.regs.cmd = 1 →
    DescOk s.bufCap s.regs.avp ∧ s.regs.msg = .zero ∧ s.regs.avpCount = 0) ∧
  (s.regs.status = .doneOk → s.regs.cmd = 2 → s.regs.avp = .zero ∧ 20 ≤ s.regs.msg.length.toNat) ∧
  (∀ i, i < s.regs.avpCount.toNat → entryOk s.bufCap s.avpt i = true)

/-- The Message header has been accepted: the declared length is legal and lies inside the buffer. -/
abbrev MsgRunning (h : Hidden) : Prop :=
  h.top = .msg ∧ 20 ≤ h.mlen.toNat ∧ h.base.toNat + h.mlen.toNat ≤ h.lenL.toNat ∧ h.sMsg.length = h.mlen

/-- The AVP engine is at a record's start (44_fsm.md R232, R242). -/
abbrev AvpStart (h : Hidden) : Prop :=
  (h.top = .avp → h.cur = h.base ∧ h.n = 0) ∧
  (h.top = .msg → MsgRunning h ∧ h.base.toNat + 20 + 8 * h.n.toNat ≤ h.cur.toNat ∧
    h.cur.toNat < h.base.toNat + h.mlen.toNat)

/-- The base header of the record at the cursor lies in the buffer. -/
abbrev AvpHeaderIn (h : Hidden) : Prop :=
  AvpStart h ∧ h.cur.toNat + 8 ≤ h.lenL.toNat ∧ h.avail.toNat = h.lenL.toNat - h.cur.toNat

/-- Both length checks of the record at the cursor have passed. -/
abbrev AvpChecked (h : Hidden) : Prop :=
  AvpHeaderIn h ∧ h.sAvp.len = h.alen ∧ h.hs.toNat = headerSize h.sAvp.flags ∧
    headerSize h.sAvp.flags ≤ h.alen.toNat ∧ h.alen.toNat ≤ h.avail.toNat

/-- The cursor stands between two AVPs of a Message, or after the last. -/
abbrev BetweenAvps (h : Hidden) : Prop :=
  MsgRunning h ∧ h.base.toNat + 20 + 8 * h.n.toNat ≤ h.cur.toNat ∧ h.cur.toNat ≤ h.lenL.toNat + 3

/-- The Message engine before its first AVP. -/
abbrev MsgStart (h : Hidden) : Prop :=
  h.top = .msg ∧ h.cur = h.base ∧ h.n = 0

/-- The header of the Message lies in the buffer. -/
abbrev MsgHeaderIn (h : Hidden) : Prop :=
  MsgStart h ∧ h.base.toNat + 20 ≤ h.lenL.toNat ∧ h.avail.toNat = h.lenL.toNat - h.base.toNat

/-- What the hidden registers hold in each phase while BUSY (44_fsm.md R232 to R245). -/
abbrev BusyOk (cap : Nat) (t : Table) (h : Hidden) : Prop :=
  h.lenL.toNat ≤ cap ∧
  (h.base.toNat ≤ h.cur.toNat ∧ (h.cur.toNat - h.base.toNat) % 4 = 0) ∧
  (∀ i, i < h.n.toNat → entryOk cap t i = true) ∧
  (h.ph = .aAvail → AvpStart h) ∧
  (h.ph = .aHdr → AvpHeaderIn h) ∧
  (h.ph = .aCheck → AvpHeaderIn h ∧ h.sAvp.len = h.alen) ∧
  (h.ph = .aVid → AvpChecked h) ∧
  (h.ph = .aAdv → AvpChecked h ∧ (hasVendorId h.sAvp.flags = false → h.sAvp.vendorId = 0)) ∧
  (h.ph = .mAvail → MsgStart h) ∧
  (h.ph = .mLen → MsgHeaderIn h) ∧
  (h.ph = .mCheck → MsgHeaderIn h ∧ h.sMsg.length = h.mlen) ∧
  (h.ph = .mHdr → MsgHeaderIn h ∧ MsgRunning h) ∧
  (h.ph = .mLoop → BetweenAvps h) ∧
  (h.ph = .mAppend → BetweenAvps h ∧ h.base.toNat + 28 + 8 * h.n.toNat ≤ h.cur.toNat ∧
    h.base.toNat + 28 + 8 * h.n.toNat ≤ h.lenL.toNat ∧ 20 + 8 * h.n.toNat < h.mlen.toNat ∧ DescOk cap h.sAvp) ∧
  (h.ph = .commit → h.top = .avp → DescOk cap h.sAvp ∧ h.base.toNat + 8 ≤ h.cur.toNat ∧
    h.cur.toNat ≤ h.lenL.toNat + 3) ∧
  (h.ph = .commit → h.top = .msg → BetweenAvps h ∧ h.base.toNat + h.mlen.toNat ≤ h.cur.toNat) ∧
  (h.ph = .fail → CauseOk h.ecause)

/-- The invariant of the block: memories in canonical form and in range, `done` follows the state (10_state.md R50), the
registers as each state leaves them, and the hidden registers as each phase leaves them. -/
structure Inv (s : State) : Prop where
  cap : s.bufCap ≤ Config.bufCapMax
  bufWf : Memory.wf s.buf = true
  bufBelow : keysBelow s.bufCap s.buf = true
  avptWf : Table.wf s.avpt = true
  avptBelow : keysBelow (Config.avptCap s.bufCap) s.avpt = true
  done : s.done = s.regs.status.isDone
  regs : RegsOk s
  busy : s.regs.status = .busy → BusyOk s.bufCap s.avpt s.hid

/-- A turn that keeps the premise `HostQuiet` and stays inside the spec: no buffer write, no reset, only accesses that have
a meaning (70_reset_and_hazards.md R316, 43_host_commands.md R201, R203). -/
def quietTurn (cap : Nat) : Turn → Bool
  | .host (.rdReg size off) => alignedWord size off && decide (off < 256)
  | .host (.wrReg size off _) => alignedWord size off && decide (off < 256)
  | .host (.wrRegLast size off) => alignedWord size off && decide (off < 256)
  | .host (.rdTbl size off) => alignedWord size off && decide (off < 32 * Config.avptCap cap)
  | .host (.rdBuf addr) => decide (addr < cap)
  | .host (.wrBuf _ _) => false
  | .host .reset => false
  | .parser => true
  | .record => true
  | .wait => true

/-- The states a block of any legal capacity reaches from reset, under any host: any list of host moves and parser turns. -/
inductive Reachable : State → Prop where
  | reset (cap : Nat) (turns : List Turn) (h : cap ≤ Config.bufCapMax) : Reachable (State.resetWith cap turns)
  | step (s t : State) (hs : Reachable s) (h : step s = .next t) : Reachable t

end Sys2Proof.Machine
end

