-- ==== Sys2Proof/Certificates/Slice0/Obligations.lean ====
section
/-! DEFINITION. The statements for the provers. Each docstring names the rules of spec/ it rests on. Where a statement holds
only in states a run can reach it takes `Inv` as a premise; that every step keeps `Inv` is a statement of its own. -/

open Sys2Proof Sys2Proof.Machine

/-! Encodings. -/

/-- 30_encoding.md R98: the command word is decoded on all 32 bits. -/
def Obligations.CommandWordDecodesOnAllBits : Prop :=
  ∀ w : Word,
    decode .cmdw (beBytes 4 w.toNat) =
      if w = 0 then .ok (.clear, []) else if w = 1 then .ok (.decodeAvp, []) else if w = 2 then .ok (.decodeMsg, [])
      else .error (.reservedOpcode w)

/-- 30_encoding.md sections 1 to 3: no bit of an encoding is dropped; what stands after the record is handed back. -/
def Obligations.DecodeOfEncodeIsTheInstruction : Prop :=
  ∀ (i : Instr) (rest : List Byte),
    decode i.format (encode i ++ rest) = .ok (i, rest) ∧
    decodeTableWord (8 * i.format.bytes) (encodeTableWord i) = some i

/-- 30_encoding.md sections 1 to 3: bytes that decode are the encoding of what they decode to, so no two byte strings
decode alike. -/
def Obligations.EncodeOfDecodeIsTheBytes : Prop :=
  ∀ (f : Format) (bs rest : List Byte) (i : Instr),
    decode f bs = .ok (i, rest) → i.format = f ∧ encode i ++ rest = bs

/-- Words written out from 30_encoding.md R91, R92, R95, R98 and the opcode table's patterns. -/
def Obligations.WordsOfTheTableDecode : Prop :=
  decodeTableWord 32 0 = some .clear ∧ decodeTableWord 32 1 = some .decodeAvp ∧
  decodeTableWord 32 2 = some .decodeMsg ∧ decodeTableWord 32 3 = none ∧ decodeTableWord 32 0x80000001 = none ∧
  decodeTableWord 64 0x0000000240000008 = some (.avp8 2 true false 0 8) ∧
  decodeTableWord 64 0x0000010AC0000010 = some (.avp12 266 true false 0 16) ∧
  decodeTableWord 64 0x00000002BF00000C = some (.avp12 2 false true 31 12) ∧
  decodeTableWord 160 0x0100001480000101000000001122334455667788 =
    some (.msgh 1 20 0x80 257 0 0x11223344 0x55667788)

/-- 30_encoding.md section 4: the V bit, mask 0x80 of record byte 4, and nothing else picks the AVP form. -/
def Obligations.VBitPicksTheAvpForm : Prop :=
  ∀ (bs rest : List Byte) (i : Instr), decode .avp bs = .ok (i, rest) →
    ((∃ code m p rsv len, i = .avp12 code m p rsv len) ↔ (bs.getD 4 0) &&& 0x80 ≠ 0) ∧
    ((∃ code m p rsv len, i = .avp8 code m p rsv len) ↔ (bs.getD 4 0) &&& 0x80 = 0)

/-! A step runs the decoded instruction. -/

/-- 10_state.md R22, 43_host_commands.md R205: a host write to `CMD` runs the instruction its value decodes to, on the
state without that turn. -/
def Obligations.StepRunsTheCommandWord : Prop :=
  ∀ (s : State) (ts : List Turn) (w : Word) (i : Instr) (rest : List Byte),
    decode .cmdw (beBytes 4 w.toNat) = .ok (i, rest) →
    (s.turns = .host (.wrReg 4 0x00 w) :: ts → step s = exec i (s.setTurns ts)) ∧
    (s.turns = .host (.wrRegLast 4 0x00) :: ts → s.rdata = w → step s = exec i (s.setTurns ts))

/-- 20_memory.md R73: "the bytes of the buffer are what the decoder executes". A record turn at the start of a record runs
the instruction its header decodes to, on the state without that turn. That records run in one step is the model's choice
(notes/assumptions/5.md); `RecordTurnMergesPhases` says it changes nothing. -/
def Obligations.StepRunsTheRecordAtTheCursor : Prop :=
  ∀ (s : State) (ts : List Turn) (i : Instr) (rest : List Byte),
    s.turns = .record :: ts → s.regs.status = .busy →
    (s.hid.ph = .aAvail → s.hid.cur.toNat + 8 ≤ s.hid.lenL.toNat →
      decode .avp (slice (byteAt s) s.hid.cur.toNat 8) = .ok (i, rest) → step s = exec i (s.setTurns ts)) ∧
    (s.hid.ph = .mAvail → s.hid.base.toNat + 20 ≤ s.hid.lenL.toNat →
      decode .msgh (slice (byteAt s) s.hid.base.toNat 20) = .ok (i, rest) → step s = exec i (s.setTurns ts))

/-- The host's `withFetchWord` places a table word where the very next step takes it, for each of the three widths
(notes/assumptions/7.md: the model's own loading of an instruction). -/
def Obligations.PlacedTableWordIsRunNext : Prop :=
  ∀ (s : State) (w : Nat) (i : Instr),
    (decodeTableWord 32 w = some i → step (s.withFetchWord 32 w) = exec i s) ∧
    (decodeTableWord 64 w = some i → s.hid.cur.toNat + 20 < 2 ^ 32 →
      step (s.withFetchWord 64 w) = exec i ((s.withFetchWord 64 w).setTurns s.turns)) ∧
    (decodeTableWord 160 w = some i → s.hid.base.toNat + 20 < 2 ^ 32 →
      step (s.withFetchWord 160 w) = exec i ((s.withFetchWord 160 w).setTurns s.turns))

/-- 30_encoding.md R104: a reserved opcode is dropped in every state, BUSY or not. -/
def Obligations.ReservedOpcodeIsDropped : Prop :=
  ∀ (s : State) (ts : List Turn) (w : Word),
    s.turns = .host (.wrReg 4 0x00 w) :: ts → w ≠ 0 → w ≠ 1 → w ≠ 2 → step s = .next (s.setTurns ts)

/-! The commands. -/

/-- 43_host_commands.md R208: CLEAR completes in every state that is not BUSY, with exactly these writes; in IDLE it
changes nothing but `CMD`. That the table's data and the hidden registers stay as they stood is the model's
choice and no rule of the spec (notes/assumptions/13.md and 20.md; 93_implementation_defined.md U4, U10). -/
def Obligations.ClearDropsTheResults : Prop :=
  ∀ s : State, s.regs.status ≠ .busy →
    decode .cmdw [0, 0, 0, 0] = .ok (.clear, []) ∧
    exec .clear s = .next
      { s with
        regs := { s.regs with
          cmd := 0, status := .idle, newOffset := 0, err := { kind := 0, cause := 0 }, errOffset := 0,
          avp := Desc.zero, msg := MsgScalars.zero, avpCount := 0 }
        done := false } ∧
    (Inv s → s.regs.status = .idle → exec .clear s = .next { s with regs := { s.regs with cmd := 0 } })

/-- 43_host_commands.md R206: the accept step of both decode commands, which completes in every state that is not BUSY
when `BUF_LEN <= BUF_CAP` (70_reset_and_hazards.md R316); and from there on a command uses `BASE` and `LEN_L`, not the
registers: other values of `BUF_LEN` and `OFFSET` change no parser step. That accept leaves the table's data, and
the hidden registers it does not latch, as they stood is the model's choice and no rule of the spec
(notes/assumptions/13.md and 20.md; 93_implementation_defined.md U4, U10). -/
def Obligations.AcceptLatchesTheOperands : Prop :=
  (∀ s : State, s.regs.status ≠ .busy → s.regs.bufLen.toNat ≤ s.bufCap →
    exec .decodeAvp s = .next
      { s with
        regs := { s.regs with
          cmd := 1, status := .busy, newOffset := 0, err := { kind := 0, cause := 0 }, errOffset := 0,
          avp := Desc.zero, msg := MsgScalars.zero, avpCount := 0 }
        done := false
        hid := { s.hid with
          base := s.regs.offset, lenL := s.regs.bufLen, cur := s.regs.offset, n := 0, top := .avp, ph := .aAvail } } ∧
    exec .decodeMsg s = .next
      { s with
        regs := { s.regs with
          cmd := 2, status := .busy, newOffset := 0, err := { kind := 0, cause := 0 }, errOffset := 0,
          avp := Desc.zero, msg := MsgScalars.zero, avpCount := 0 }
        done := false
        hid := { s.hid with
          base := s.regs.offset, lenL := s.regs.bufLen, cur := s.regs.offset, n := 0, top := .msg, ph := .mAvail } }) ∧
  (∀ (s t : State) (b o : Word), s.regs.status = .busy → s.turns = [] → step s = .next t →
    step { s with regs := { s.regs with bufLen := b, offset := o } } =
      .next { t with regs := { t.regs with bufLen := b, offset := o } })

/-- 93_implementation_defined.md U2: a decode command accepted with `BUF_LEN > BUF_CAP` has no meaning and is refused. -/
def Obligations.DecodeRefusedBeyondCapacity : Prop :=
  ∀ s : State, s.regs.status ≠ .busy → s.bufCap < s.regs.bufLen.toNat →
    exec .decodeAvp s = .refused .bufLenExceedsCap ∧ exec .decodeMsg s = .refused .bufLenExceedsCap

/-- 43_host_commands.md R204: while BUSY, host writes to `CMD`, `BUF_LEN` and `OFFSET` are dropped; and no host move but
reset stops the running command or touches its hidden registers. -/
def Obligations.BusyDropsHostWrites : Prop :=
  ∀ (s : State) (ts : List Turn), s.regs.status = .busy →
    (∀ (off : Nat) (v : Word), off = 0x00 ∨ off = 0x08 ∨ off = 0x0C → s.turns = .host (.wrReg 4 off v) :: ts →
      step s = .next (s.setTurns ts)) ∧
    (∀ (m : HostMove) (t : State), m ≠ .reset → s.turns = .host m :: ts → step s = .next t →
      t.regs = s.regs ∧ t.hid = s.hid ∧ t.done = s.done)

/-- The frame of the commands: 43_host_commands.md R206, R208; 10_state.md R24, R25. They write no buffer byte and
neither operand register. That they leave the table's data (`t.avpt = s.avpt`), and the hidden registers R206 does not name,
as they stood is the model's choice and no rule of the spec (notes/assumptions/13.md and 20.md;
93_implementation_defined.md U4, U10). -/
def Obligations.CommandFrame : Prop :=
  ∀ (i : Instr) (s t : State), i.format = .cmdw → exec i s = .next t →
    (∀ a, byteAt t a = byteAt s a) ∧ t.buf = s.buf ∧ t.avpt = s.avpt ∧ t.bufCap = s.bufCap ∧
    t.regs.bufLen = s.regs.bufLen ∧ t.regs.offset = s.regs.offset ∧
    t.turns = s.turns ∧ t.rdata = s.rdata ∧ t.epoch = s.epoch ∧ t.fresh = s.fresh ∧
    t.hid = { s.hid with ph := t.hid.ph, top := t.hid.top, cur := t.hid.cur, base := t.hid.base, lenL := t.hid.lenL,
                         n := t.hid.n } ∧
    (i = .clear → t.hid = s.hid)

/-- 41_decode_avp.md R151: DECODE_AVP, accepted and run with no host move pending, ends with exactly these registers,
written in one step; up to it the registers are as accept left them. -/
def Obligations.DecodeAvpCommandResult : Prop :=
  ∀ s : State, s.regs.status ≠ .busy → s.regs.bufLen.toNat ≤ s.bufCap → s.bufCap ≤ Config.bufCapMax → s.turns = [] →
    ∃ (s1 u t : State) (k : Nat), exec .decodeAvp s = .next s1 ∧
      step (s.setTurns [.host (.wrReg 4 0x00 1)]) = .next s1 ∧
      runSteps k s1 = .next u ∧ u.regs = s1.regs ∧ step u = .next t ∧
      t.done = true ∧ t.avpt = s.avpt ∧ t.buf = s.buf ∧ t.bufCap = s.bufCap ∧ t.turns = [] ∧
      t.rdata = s.rdata ∧ t.epoch = s.epoch ∧ t.fresh = s.fresh ∧
      match decodeAvpAt (byteAt s) s.regs.bufLen.toNat s.regs.offset.toNat with
      | .ok d n =>
        n < 2 ^ 32 ∧
        t.regs =
          { s.regs with
            cmd := 1, status := .doneOk, avp := d, newOffset := BitVec.ofNat 32 n,
            err := { kind := 0, cause := 0 }, errOffset := 0, msg := MsgScalars.zero, avpCount := 0 }
      | .err kind c a =>
        kind = .structural ∧ a = s.regs.offset.toNat ∧
        t.regs =
          { s.regs with
            cmd := 1, status := .doneErr, err := { kind := 1, cause := c.code }, errOffset := s.regs.offset,
            newOffset := s.regs.offset, avp := Desc.zero, msg := MsgScalars.zero, avpCount := 0 }

/-- 42_decode_msg.md R179: DECODE_MSG, accepted and run with no host move pending, ends with exactly these registers and
valid table entries, the registers written in one step; up to it they are as accept left them. -/
def Obligations.DecodeMsgCommandResult : Prop :=
  ∀ s : State, Inv s → s.regs.status ≠ .busy → s.regs.bufLen.toNat ≤ s.bufCap → s.turns = [] →
    ∃ (s1 u t : State) (k : Nat), exec .decodeMsg s = .next s1 ∧
      step (s.setTurns [.host (.wrReg 4 0x00 2)]) = .next s1 ∧
      runSteps k s1 = .next u ∧ u.regs = s1.regs ∧ step u = .next t ∧
      t.done = true ∧ t.buf = s.buf ∧ t.bufCap = s.bufCap ∧ t.turns = [] ∧
      t.rdata = s.rdata ∧ t.epoch = s.epoch ∧ t.fresh = s.fresh ∧
      match decodeMsgAt (byteAt s) s.regs.bufLen.toNat s.regs.offset.toNat with
      | .ok m n =>
        n < 2 ^ 32 ∧ m.avps.length ≤ Config.avptCap s.bufCap ∧
        t.regs =
          { s.regs with
            cmd := 2, status := .doneOk, msg := m.scalars, avpCount := BitVec.ofNat 22 m.avps.length,
            newOffset := BitVec.ofNat 32 n, err := { kind := 0, cause := 0 }, errOffset := 0, avp := Desc.zero } ∧
        ∀ i, i < m.avps.length → sparseGet t.avpt i = m.avps[i]?
      | .err kind c a =>
        kind = .structural ∧ a < 2 ^ 32 ∧
        t.regs =
          { s.regs with
            cmd := 2, status := .doneErr, err := { kind := 1, cause := c.code }, errOffset := BitVec.ofNat 32 a,
            newOffset := s.regs.offset, avp := Desc.zero, msg := MsgScalars.zero, avpCount := 0 }

/-- 44_fsm.md R247: the FSM agrees with the functions, whatever quiet turns (host reads, dropped writes, merged parser
turns) are interleaved with it. -/
def Obligations.FsmAgreesWithTheFunctions : Prop :=
  ∀ s : State, Inv s → s.regs.status ≠ .busy → s.regs.bufLen.toNat ≤ s.bufCap →
    (∀ x ∈ s.turns, quietTurn s.bufCap x = true) →
    (∃ (s1 u : State) (k : Nat), exec .decodeAvp s = .next s1 ∧ runSteps k s1 = .next u ∧ u.regs.status = .busy ∧
      match decodeAvpAt (byteAt s) s.regs.bufLen.toNat s.regs.offset.toNat with
      | .ok d n => u.hid.ph = .commit ∧ u.hid.sAvp = d ∧ u.hid.cur.toNat = n
      | .err kind c a => kind = .structural ∧ u.hid.ph = .fail ∧ u.hid.ecause = c.code ∧ u.hid.eat.toNat = a) ∧
    (∃ (s1 u : State) (k : Nat), exec .decodeMsg s = .next s1 ∧ runSteps k s1 = .next u ∧ u.regs.status = .busy ∧
      match decodeMsgAt (byteAt s) s.regs.bufLen.toNat s.regs.offset.toNat with
      | .ok m n =>
        u.hid.ph = .commit ∧ u.hid.sMsg = m.scalars ∧ u.hid.cur.toNat = n ∧ u.hid.n.toNat = m.avps.length ∧
        ∀ i, i < m.avps.length → sparseGet u.avpt i = m.avps[i]?
      | .err kind c a => kind = .structural ∧ u.hid.ph = .fail ∧ u.hid.ecause = c.code ∧ u.hid.eat.toNat = a)

/-- 44_fsm.md section 6, the step counts: 2, 4 or 6 steps after accept for DECODE_AVP, `4 + 7k + 2` for a DECODE_MSG that
decodes `k` AVPs; before the last of them the block is BUSY. -/
def Obligations.StepCounts : Prop :=
  ∀ s : State, Inv s → s.regs.status ≠ .busy → s.regs.bufLen.toNat ≤ s.bufCap → s.turns = [] →
    (∃ s1 u t : State, exec .decodeAvp s = .next s1 ∧
      match decodeAvpAt (byteAt s) s.regs.bufLen.toNat s.regs.offset.toNat with
      | .ok _ _ => runSteps 5 s1 = .next u ∧ u.regs.status = .busy ∧ step u = .next t ∧ t.regs.status = .doneOk
      | .err _ .avpHdrShort _ =>
        runSteps 1 s1 = .next u ∧ u.regs.status = .busy ∧ step u = .next t ∧ t.regs.status = .doneErr
      | .err _ _ _ => runSteps 3 s1 = .next u ∧ u.regs.status = .busy ∧ step u = .next t ∧ t.regs.status = .doneErr) ∧
    (∀ m n, decodeMsgAt (byteAt s) s.regs.bufLen.toNat s.regs.offset.toNat = .ok m n →
      ∃ s1 u t : State, exec .decodeMsg s = .next s1 ∧ runSteps (4 + 7 * m.avps.length + 1) s1 = .next u ∧
        u.regs.status = .busy ∧ step u = .next t ∧ t.regs.status = .doneOk)

/-! The record forms. -/

/-- 41_decode_avp.md R152: an AVP8 at the cursor. Legal length: the record is decoded; the errors otherwise. -/
def Obligations.Avp8AtTheCursor : Prop :=
  ∀ (s : State) (code : Word) (m p : Bool) (rsv : BitVec 5) (len : U24), s.hid.lenL.toNat ≤ Config.bufCapMax →
    (8 ≤ len.toNat → s.hid.cur.toNat + len.toNat ≤ s.hid.lenL.toNat →
      ∃ t, exec (.avp8 code m p rsv len) s = .next t ∧
        t.hid.sAvp.code = code ∧ t.hid.sAvp.flags = flagsByte false m p rsv ∧ t.hid.sAvp.vendorId = 0 ∧
        t.hid.sAvp.len = len ∧ t.hid.sAvp.dataOff.toNat = s.hid.cur.toNat + 8 ∧
        t.hid.sAvp.dataLen.toNat = len.toNat - 8 ∧
        t.hid.cur.toNat = s.hid.cur.toNat + 8 + paddedLength (len.toNat - 8) ∧
        t.hid.ph = (match s.hid.top with | .avp => .commit | .msg => .mAppend)) ∧
    (len.toNat < 8 → s.hid.cur.toNat + 8 ≤ s.hid.lenL.toNat →
      ∃ t, exec (.avp8 code m p rsv len) s = .next t ∧
        t.hid.ph = .fail ∧ t.hid.ecause = Cause.avpLenLtHdr.code ∧ t.hid.eat = s.hid.cur) ∧
    (8 ≤ len.toNat → s.hid.cur.toNat + 8 ≤ s.hid.lenL.toNat → s.hid.lenL.toNat < s.hid.cur.toNat + len.toNat →
      ∃ t, exec (.avp8 code m p rsv len) s = .next t ∧
        t.hid.ph = .fail ∧ t.hid.ecause = Cause.avpLenGtAvail.code ∧ t.hid.eat = s.hid.cur) ∧
    (s.hid.lenL.toNat < s.hid.cur.toNat + 8 →
      ∃ t, exec (.avp8 code m p rsv len) s = .next t ∧
        t.hid.ph = .fail ∧ t.hid.ecause = Cause.avpHdrShort.code ∧ t.hid.eat = s.hid.cur)

/-- 41_decode_avp.md R153: an AVP12 at the cursor. -/
def Obligations.Avp12AtTheCursor : Prop :=
  ∀ (s : State) (code : Word) (m p : Bool) (rsv : BitVec 5) (len : U24), s.hid.lenL.toNat ≤ Config.bufCapMax →
    (12 ≤ len.toNat → s.hid.cur.toNat + len.toNat ≤ s.hid.lenL.toNat →
      ∃ t, exec (.avp12 code m p rsv len) s = .next t ∧
        t.hid.sAvp.code = code ∧ t.hid.sAvp.flags = flagsByte true m p rsv ∧
        t.hid.sAvp.vendorId.toNat = beRead (byteAt s) (s.hid.cur.toNat + 8) 4 ∧
        t.hid.sAvp.len = len ∧ t.hid.sAvp.dataOff.toNat = s.hid.cur.toNat + 12 ∧
        t.hid.sAvp.dataLen.toNat = len.toNat - 12 ∧
        t.hid.cur.toNat = s.hid.cur.toNat + 12 + paddedLength (len.toNat - 12) ∧
        t.hid.ph = (match s.hid.top with | .avp => .commit | .msg => .mAppend)) ∧
    (len.toNat < 12 → s.hid.cur.toNat + 8 ≤ s.hid.lenL.toNat →
      ∃ t, exec (.avp12 code m p rsv len) s = .next t ∧
        t.hid.ph = .fail ∧ t.hid.ecause = Cause.avpLenLtHdr.code ∧ t.hid.eat = s.hid.cur) ∧
    (12 ≤ len.toNat → s.hid.cur.toNat + 8 ≤ s.hid.lenL.toNat → s.hid.lenL.toNat < s.hid.cur.toNat + len.toNat →
      ∃ t, exec (.avp12 code m p rsv len) s = .next t ∧
        t.hid.ph = .fail ∧ t.hid.ecause = Cause.avpLenGtAvail.code ∧ t.hid.eat = s.hid.cur) ∧
    (s.hid.lenL.toNat < s.hid.cur.toNat + 8 →
      ∃ t, exec (.avp12 code m p rsv len) s = .next t ∧
        t.hid.ph = .fail ∧ t.hid.ecause = Cause.avpHdrShort.code ∧ t.hid.eat = s.hid.cur)

/-- 42_decode_msg.md sections 1 and 2 (the steps 1 to 4): a Message header at `BASE`. -/
def Obligations.MsghAtTheBase : Prop :=
  ∀ (s : State) (version : Byte) (len : U24) (flags : Byte) (cc : U24) (app hbh e2e : Word),
    s.hid.lenL.toNat ≤ Config.bufCapMax →
    (20 ≤ len.toNat → s.hid.base.toNat + len.toNat ≤ s.hid.lenL.toNat →
      ∃ t, exec (.msgh version len flags cc app hbh e2e) s = .next t ∧
        t.hid.sMsg = { version := version, length := len, flags := flags, commandCode := cc, appId := app, hbhId := hbh,
                       e2eId := e2e } ∧
        t.hid.mlen = len ∧ t.hid.cur.toNat = s.hid.base.toNat + 20 ∧ t.hid.ph = .mLoop) ∧
    (len.toNat < 20 → s.hid.base.toNat + 20 ≤ s.hid.lenL.toNat →
      ∃ t, exec (.msgh version len flags cc app hbh e2e) s = .next t ∧
        t.hid.ph = .fail ∧ t.hid.ecause = Cause.msgLenLtHdr.code ∧ t.hid.eat = s.hid.base) ∧
    (20 ≤ len.toNat → s.hid.base.toNat + 20 ≤ s.hid.lenL.toNat → s.hid.lenL.toNat < s.hid.base.toNat + len.toNat →
      ∃ t, exec (.msgh version len flags cc app hbh e2e) s = .next t ∧
        t.hid.ph = .fail ∧ t.hid.ecause = Cause.msgLenGtAvail.code ∧ t.hid.eat = s.hid.base) ∧
    (s.hid.lenL.toNat < s.hid.base.toNat + 20 →
      ∃ t, exec (.msgh version len flags cc app hbh e2e) s = .next t ∧
        t.hid.ph = .fail ∧ t.hid.ecause = Cause.msgHdrShort.code ∧ t.hid.eat = s.hid.base)

/-- The frame of the record forms (20_memory.md R60, 44_fsm.md R232): only hidden registers change, and of those not
`TOP`, `BASE`, `LEN_L`, `N`; an AVP leaves the Message's own, a Message header leaves the AVP engine's. -/
def Obligations.RecordFrame : Prop :=
  ∀ (i : Instr) (s t : State), i.format ≠ .cmdw → exec i s = .next t →
    t = s.setHid t.hid ∧ (∀ a, byteAt t a = byteAt s a) ∧
    t.hid.top = s.hid.top ∧ t.hid.base = s.hid.base ∧ t.hid.lenL = s.hid.lenL ∧ t.hid.n = s.hid.n ∧
    (i.format = .avp → t.hid.sMsg = s.hid.sMsg ∧ t.hid.mlen = s.hid.mlen) ∧
    (i.format = .msgh → t.hid.sAvp = s.hid.sAvp ∧ t.hid.hs = s.hid.hs ∧ t.hid.alen = s.hid.alen)

/-- 44_fsm.md R248 lets an implementation merge phases, the host seeing nothing of it: a record turn is a run of one to
five ordinary parser steps (notes/assumptions/5.md: that there is such a turn is the model's choice). -/
def Obligations.RecordTurnMergesPhases : Prop :=
  ∀ (s : State) (ts : List Turn), Inv s → s.regs.status = .busy → s.turns = .record :: ts →
    ∃ (k : Nat) (t : State), 1 ≤ k ∧ k ≤ 5 ∧ step s = .next (t.setTurns ts) ∧ runSteps k (s.setTurns []) = .next t

/-! The FSM. -/

/-- 44_fsm.md R233 to R237: the five phases of the AVP engine. -/
def Obligations.AvpEnginePhases : Prop :=
  ∀ s : State, s.regs.status = .busy → s.turns = [] →
    (s.hid.ph = .aAvail →
      let avail : Word := if s.hid.cur.toNat ≤ s.hid.lenL.toNat then s.hid.lenL - s.hid.cur else 0
      step s = .next { s with hid :=
        if avail.toNat < 8 then
          { s.hid with avail := avail, ecause := Cause.avpHdrShort.code, eat := s.hid.cur, ph := .fail }
        else { s.hid with avail := avail, ph := .aHdr } }) ∧
    (s.hid.ph = .aHdr → s.hid.cur.toNat + 8 ≤ s.hid.lenL.toNat →
      let alen : U24 := BitVec.ofNat 24 (beRead (byteAt s) (s.hid.cur.toNat + 5) 3)
      step s = .next { s with hid := { s.hid with
        sAvp := { s.hid.sAvp with
          code := BitVec.ofNat 32 (beRead (byteAt s) s.hid.cur.toNat 4),
          flags := BitVec.ofNat 8 (beRead (byteAt s) (s.hid.cur.toNat + 4) 1), len := alen },
        alen := alen, ph := .aCheck } }) ∧
    (s.hid.ph = .aCheck →
      let hs := headerSize s.hid.sAvp.flags
      let h : Hidden := { s.hid with hs := BitVec.ofNat 4 hs }
      step s = .next { s with hid :=
        if s.hid.alen.toNat < hs then { h with ecause := Cause.avpLenLtHdr.code, eat := s.hid.cur, ph := .fail }
        else if s.hid.alen.toNat > s.hid.avail.toNat then
          { h with ecause := Cause.avpLenGtAvail.code, eat := s.hid.cur, ph := .fail }
        else { h with ph := .aVid } }) ∧
    (s.hid.ph = .aVid → (s.hid.hs = 12 → s.hid.cur.toNat + 12 ≤ s.hid.lenL.toNat) →
      step s = .next { s with hid := { s.hid with
        sAvp := { s.hid.sAvp with
          vendorId := if s.hid.hs = 12 then BitVec.ofNat 32 (beRead (byteAt s) (s.hid.cur.toNat + 8) 4) else 0 },
        ph := .aAdv } }) ∧
    (s.hid.ph = .aAdv →
      let hs := s.hid.hs.toNat
      let dl := s.hid.alen.toNat - hs
      step s = .next { s with hid := { s.hid with
        sAvp := { s.hid.sAvp with dataLen := BitVec.ofNat 24 dl, dataOff := BitVec.ofNat 32 (s.hid.cur.toNat + hs) },
        cur := BitVec.ofNat 32 (s.hid.cur.toNat + hs + paddedLength dl),
        ph := match s.hid.top with | .avp => .commit | .msg => .mAppend } })

/-- 44_fsm.md R238 to R243: the six phases of the Message engine. -/
def Obligations.MessageEnginePhases : Prop :=
  ∀ s : State, s.regs.status = .busy → s.turns = [] →
    (s.hid.ph = .mAvail →
      let avail : Word := if s.hid.base.toNat ≤ s.hid.lenL.toNat then s.hid.lenL - s.hid.base else 0
      step s = .next { s with hid :=
        if avail.toNat < 20 then
          { s.hid with avail := avail, ecause := Cause.msgHdrShort.code, eat := s.hid.base, ph := .fail }
        else { s.hid with avail := avail, ph := .mLen } }) ∧
    (s.hid.ph = .mLen → s.hid.base.toNat + 20 ≤ s.hid.lenL.toNat →
      let mlen : U24 := BitVec.ofNat 24 (beRead (byteAt s) (s.hid.base.toNat + 1) 3)
      step s = .next { s with hid := { s.hid with
        sMsg := { s.hid.sMsg with
          version := BitVec.ofNat 8 (beRead (byteAt s) s.hid.base.toNat 1), length := mlen },
        mlen := mlen, ph := .mCheck } }) ∧
    (s.hid.ph = .mCheck →
      step s = .next { s with hid :=
        if s.hid.mlen.toNat < 20 then
          { s.hid with ecause := Cause.msgLenLtHdr.code, eat := s.hid.base, ph := .fail }
        else if s.hid.mlen.toNat > s.hid.avail.toNat then
          { s.hid with ecause := Cause.msgLenGtAvail.code, eat := s.hid.base, ph := .fail }
        else { s.hid with ph := .mHdr } }) ∧
    (s.hid.ph = .mHdr → s.hid.base.toNat + 20 ≤ s.hid.lenL.toNat →
      step s = .next { s with hid := { s.hid with
        sMsg := { s.hid.sMsg with
          flags := BitVec.ofNat 8 (beRead (byteAt s) (s.hid.base.toNat + 4) 1),
          commandCode := BitVec.ofNat 24 (beRead (byteAt s) (s.hid.base.toNat + 5) 3),
          appId := BitVec.ofNat 32 (beRead (byteAt s) (s.hid.base.toNat + 8) 4),
          hbhId := BitVec.ofNat 32 (beRead (byteAt s) (s.hid.base.toNat + 12) 4),
          e2eId := BitVec.ofNat 32 (beRead (byteAt s) (s.hid.base.toNat + 16) 4) },
        cur := BitVec.ofNat 32 (s.hid.base.toNat + 20), ph := .mLoop } }) ∧
    (s.hid.ph = .mLoop →
      step s = .next { s with hid := { s.hid with
        ph := if s.hid.cur.toNat - s.hid.base.toNat < s.hid.mlen.toNat then .aAvail else .commit } }) ∧
    (s.hid.ph = .mAppend → s.hid.n.toNat < Config.avptCap s.bufCap →
      ∃ t, step s = .next t ∧ sparseGet t.avpt s.hid.n.toNat = some s.hid.sAvp ∧
        (∀ i, i ≠ s.hid.n.toNat → sparseGet t.avpt i = sparseGet s.avpt i) ∧
        t = { s with avpt := t.avpt, hid := { s.hid with n := s.hid.n + 1, ph := .mLoop } })

/-- 44_fsm.md R244: COMMIT, one step. That it leaves the hidden registers, and after DECODE_MSG the table's data at and above
the count, as they stood is the model's choice and no rule of the spec (notes/assumptions/20.md and 13.md;
93_implementation_defined.md U10, U4). -/
def Obligations.CommitWritesTheResults : Prop :=
  ∀ s : State, s.regs.status = .busy → s.turns = [] → s.hid.ph = .commit →
    (s.hid.top = .avp → step s = .next
      { s with
        regs := { s.regs with avp := s.hid.sAvp, newOffset := s.hid.cur, status := .doneOk }
        done := true }) ∧
    (s.hid.top = .msg → step s = .next
      { s with
        regs := { s.regs with msg := s.hid.sMsg, avpCount := s.hid.n, newOffset := s.hid.cur, status := .doneOk }
        done := true })

/-- 60_exceptions.md R280: the fail step, one step, after which every other result register is 0. That it leaves the
table's data and the hidden registers as they stood is the model's choice and no rule of the spec
(notes/assumptions/13.md and 20.md; 93_implementation_defined.md U4, U10). -/
def Obligations.FailStepRecordsTheError : Prop :=
  ∀ s : State, s.regs.status = .busy → s.turns = [] → s.hid.ph = .fail →
    step s = .next
      { s with
        regs := { s.regs with
          err := { kind := 1, cause := s.hid.ecause }, errOffset := s.hid.eat, newOffset := s.hid.base,
          status := .doneErr }
        done := true } ∧
    (Inv s → ∀ t, step s = .next t →
      t.regs.avp = Desc.zero ∧ t.regs.msg = MsgScalars.zero ∧ t.regs.avpCount = 0)

/-- 44_fsm.md section 5, the transition table: from every phase exactly the rows the table has, the quiescent states
having none. -/
def Obligations.TransitionTable : Prop :=
  ∀ s : State, Inv s → s.turns = [] →
    (s.regs.status ≠ .busy → step s = .next s) ∧
    (s.regs.status = .busy → ∃ t, step s = .next t ∧
      (s.hid.ph = .commit → t.regs.status = .doneOk) ∧
      (s.hid.ph = .fail → t.regs.status = .doneErr) ∧
      (s.hid.ph ≠ .commit → s.hid.ph ≠ .fail → t.regs.status = .busy) ∧
      (s.hid.ph = .aAvail → t.hid.ph = if t.hid.avail.toNat < 8 then .fail else .aHdr) ∧
      (s.hid.ph = .aHdr → t.hid.ph = .aCheck) ∧
      (s.hid.ph = .aCheck → t.hid.ph =
        if t.hid.alen.toNat < t.hid.hs.toNat then .fail
        else if t.hid.alen.toNat > t.hid.avail.toNat then .fail else .aVid) ∧
      (s.hid.ph = .aVid → t.hid.ph = .aAdv) ∧
      (s.hid.ph = .aAdv → s.hid.top = .avp → t.hid.ph = .commit) ∧
      (s.hid.ph = .aAdv → s.hid.top = .msg → t.hid.ph = .mAppend) ∧
      (s.hid.ph = .mAvail → t.hid.ph = if t.hid.avail.toNat < 20 then .fail else .mLen) ∧
      (s.hid.ph = .mLen → t.hid.ph = .mCheck) ∧
      (s.hid.ph = .mCheck → t.hid.ph =
        if t.hid.mlen.toNat < 20 then .fail
        else if t.hid.mlen.toNat > t.hid.avail.toNat then .fail else .mHdr) ∧
      (s.hid.ph = .mHdr → t.hid.ph = .mLoop) ∧
      (s.hid.ph = .mLoop →
        t.hid.ph = if s.hid.cur.toNat - s.hid.base.toNat < s.hid.mlen.toNat then .aAvail else .commit) ∧
      (s.hid.ph = .mAppend → t.hid.ph = .mLoop))

/-- 44_fsm.md section 6 (control transfer) and 10_state.md section 3: within a command the cursor never moves backwards,
moves by multiples of 4, and never wraps; `BASE` and `LEN_L` stay. -/
def Obligations.CursorNeverMovesBack : Prop :=
  ∀ s t : State, Inv s → s.regs.status = .busy → step s = .next t → t.regs.status = .busy →
    s.hid.cur.toNat ≤ t.hid.cur.toNat ∧ (t.hid.cur.toNat - s.hid.cur.toNat) % 4 = 0 ∧
    t.hid.base = s.hid.base ∧ t.hid.lenL = s.hid.lenL ∧ t.hid.top = s.hid.top

/-- 42_decode_msg.md section 3 (termination) and 70_reset_and_hazards.md section 4: a BUSY block that keeps taking parser
steps is DONE after at most 2^24 of them; there is no input on which it hangs. -/
def Obligations.EveryCommandFinishes : Prop :=
  ∀ s : State, Inv s → s.regs.status = .busy → s.turns = [] →
    ∃ (k : Nat) (t : State), k ≤ 2 ^ 24 ∧ runSteps k s = .next t ∧ t.regs.status.isDone = true

/-! The host's moves. -/

/-- 43_host_commands.md R203: buffer access by the host. -/
def Obligations.HostBufferAccess : Prop :=
  ∀ (s : State) (ts : List Turn) (a : Nat) (v : Byte),
    (s.turns = .host (.wrBuf a v) :: ts → a < s.bufCap → s.regs.status ≠ .busy →
      ∃ t, step s = .next t ∧ byteAt t a = v ∧ (∀ b, b ≠ a → byteAt t b = byteAt s b) ∧
        t = (s.setTurns ts).setBuf t.buf) ∧
    (s.turns = .host (.wrBuf a v) :: ts → a < s.bufCap → s.regs.status = .busy →
      step s = .refused .bufWriteWhileBusy) ∧
    (s.turns = .host (.rdBuf a) :: ts → a < s.bufCap →
      step s = .next ((s.setTurns ts).setRdata ((byteAt s a).setWidth 32))) ∧
    (s.turns = .host (.wrBuf a v) :: ts ∨ s.turns = .host (.rdBuf a) :: ts → s.bufCap ≤ a →
      step s = .refused .outsideAddressSpace)

/-- 20_memory.md section 1: only a host write changes a buffer byte, and only the byte it writes; reset makes the contents
unspecified again. -/
def Obligations.OnlyTheHostWritesTheBuffer : Prop :=
  ∀ (s t : State) (a : Nat), step s = .next t → byteAt t a ≠ byteAt s a →
    (∃ v ts, s.turns = .host (.wrBuf a v) :: ts) ∨ (∃ ts, s.turns = .host .reset :: ts)

/-- 10_state.md R21: what a host read of each offset of `REG` returns, reserved offsets included, in every state. -/
def Obligations.RegisterMapReads : Prop :=
  ∀ (s : State) (ts : List Turn) (off : Nat), s.turns = .host (.rdReg 4 off) :: ts → off % 4 = 0 → off < 256 →
    step s = .next ((s.setTurns ts).setRdata
      (if off = 0x00 then s.regs.cmd.setWidth 32
       else if off = 0x04 then
         (match s.regs.status with | .idle => 0 | .busy => 1 | .doneOk => 2 | .doneErr => 3)
       else if off = 0x08 then s.regs.bufLen
       else if off = 0x0C then s.regs.offset
       else if off = 0x10 then s.regs.newOffset
       else if off = 0x14 then BitVec.ofNat 32 (s.regs.err.kind.toNat + 256 * s.regs.err.cause.toNat)
       else if off = 0x18 then s.regs.errOffset
       else if off = 0x20 then s.regs.avp.code
       else if off = 0x24 then s.regs.avp.flags.setWidth 32
       else if off = 0x28 then s.regs.avp.vendorId
       else if off = 0x2C then s.regs.avp.len.setWidth 32
       else if off = 0x30 then s.regs.avp.dataOff
       else if off = 0x34 then s.regs.avp.dataLen.setWidth 32
       else if off = 0x40 then s.regs.msg.version.setWidth 32
       else if off = 0x44 then s.regs.msg.length.setWidth 32
       else if off = 0x48 then s.regs.msg.flags.setWidth 32
       else if off = 0x4C then s.regs.msg.commandCode.setWidth 32
       else if off = 0x50 then s.regs.msg.appId
       else if off = 0x54 then s.regs.msg.hbhId
       else if off = 0x58 then s.regs.msg.e2eId
       else if off = 0x5C then s.regs.avpCount.setWidth 32
       else 0))

/-- 10_state.md section 2: while not BUSY a host write stores all 32 bits of `BUF_LEN` or `OFFSET`; a write to any other
offset but `CMD`'s is dropped. -/
def Obligations.RegisterMapWrites : Prop :=
  ∀ (s : State) (ts : List Turn) (off : Nat) (v : Word), s.turns = .host (.wrReg 4 off v) :: ts → off % 4 = 0 →
    off < 256 → s.regs.status ≠ .busy → off ≠ 0x00 →
    step s = .next
      (if off = 0x08 then { s with turns := ts, regs := { s.regs with bufLen := v } }
       else if off = 0x0C then { s with turns := ts, regs := { s.regs with offset := v } }
       else { s with turns := ts })

/-- 43_host_commands.md R201 (last sentence but one) and 93_implementation_defined.md U5: a read changes nothing of the
block; an access that is not an aligned 32-bit word of its space is refused. -/
def Obligations.HostReadsAndBadAccesses : Prop :=
  ∀ (s : State) (ts : List Turn) (size off : Nat),
    (∀ (m : HostMove) (t : State), m = .rdReg size off ∨ m = .rdTbl size off ∨ m = .rdBuf off →
      s.turns = .host m :: ts → step s = .next t →
      t.regs = s.regs ∧ t.avpt = s.avpt ∧ t.buf = s.buf ∧ t.hid = s.hid ∧ t.done = s.done ∧ t.bufCap = s.bufCap ∧
      t.epoch = s.epoch ∧ t.turns = ts) ∧
    (∀ (m : HostMove) (v : Word), m = .rdReg size off ∨ m = .rdTbl size off ∨ m = .wrReg size off v →
      s.turns = .host m :: ts → size ≠ 4 ∨ off % 4 ≠ 0 → step s = .refused .notAlignedWord)

/-- 10_state.md R46 with 43_host_commands.md R202: a valid entry's eight words; a word of any other entry is unspecified
and reading it changes nothing of the block. -/
def Obligations.TableReads : Prop :=
  ∀ (s : State) (ts : List Turn) (i k : Nat), Inv s → s.turns = .host (.rdTbl 4 (32 * i + 4 * k)) :: ts → k < 8 →
    (∀ d, i < s.regs.avpCount.toNat → sparseGet s.avpt i = some d →
      step s = .next ((s.setTurns ts).setRdata
        (if k = 0 then d.code else if k = 1 then d.flags.setWidth 32 else if k = 2 then d.vendorId
         else if k = 3 then d.len.setWidth 32 else if k = 4 then d.dataOff else if k = 5 then d.dataLen.setWidth 32
         else 0))) ∧
    (i < s.regs.avpCount.toNat → ∃ d, sparseGet s.avpt i = some d) ∧
    (s.regs.avpCount.toNat ≤ i → i < Config.avptCap s.bufCap →
      ∃ v, step s = .next (((s.setTurns ts).setRdata v).setFresh (s.fresh + 1)))

/-- 70_reset_and_hazards.md section 1: reset in any state, BUSY included, leaves every register 0, IDLE, `done` low, and
nothing of the abandoned command. The clauses `t.buf = []` and `t.avpt = []` are the model's choice of how the unspecified
contents are kept, and no rule of the spec (notes/assumptions/2.md, 13.md and 14.md; 93_implementation_defined.md U3,
U4): that no byte or entry is listed means that each reads as a free value. -/
def Obligations.ResetAbandonsTheCommand : Prop :=
  ∀ (s : State) (ts : List Turn), s.turns = .host .reset :: ts →
    ∃ t, step s = .next t ∧ t.regs.status = .idle ∧ t.done = false ∧ t.bufCap = s.bufCap ∧ t.turns = ts ∧
      (∀ off, regRead t.regs off = 0) ∧ t.buf = [] ∧ t.avpt = []

/-- 10_state.md section 10: the reset state; and a decode command issued straight after reset sees an empty buffer and
fails with the short-header cause. -/
def Obligations.ResetState : Prop :=
  (∀ off, regRead State.reset.regs off = 0) ∧ State.reset.regs.status = .idle ∧ State.reset.done = false ∧
  (∀ cap, ∃ t, runSteps 2 (State.resetWith cap (scriptTurns [.davp, .wait])) = .next t ∧
    ∃ u, runSteps 2 t = .next u ∧ u.regs.err.word = 0x00000101 ∧ u.regs.errOffset = 0 ∧ u.regs.newOffset = 0) ∧
  (∀ cap, ∃ t, runSteps 2 (State.resetWith cap (scriptTurns [.dmsg, .wait])) = .next t ∧
    ∃ u, runSteps 2 t = .next u ∧ u.regs.err.word = 0x00000401 ∧ u.regs.errOffset = 0 ∧ u.regs.newOffset = 0)

/-! The helpers and the functions. -/

/-- 40_helpers.md R121: the laws of `padded_length`. -/
def Obligations.PaddedLengthLaws : Prop :=
  (∀ n, paddedLength n % 4 = 0 ∧ n ≤ paddedLength n ∧ paddedLength n - n ≤ 3 ∧
    paddedLength n - n = (4 - n % 4) % 4) ∧
  (∀ m n, m ≤ n → paddedLength m ≤ paddedLength n) ∧
  (∀ n, paddedLength (paddedLength n) = paddedLength n) ∧
  (∀ n k, paddedLength (n + 4 * k) = paddedLength n + 4 * k)

/-- 40_helpers.md section 1: the bit formula in the 32-bit datapath equals the definition where `n + 3` does not wrap. -/
def Obligations.PaddedLengthBitFormula : Prop :=
  ∀ n : Word, n.toNat ≤ 2 ^ 32 - 4 → (paddedLengthBits n).toNat = paddedLength n.toNat

/-- 40_helpers.md R124 and R126: the flag accessor and the header size. -/
def Obligations.FlagHelpers : Prop :=
  ∀ flags : Byte, (hasVendorId flags = true ↔ flags &&& 0x80 ≠ 0) ∧
    headerSize flags = if flags &&& 0x80 ≠ 0 then 12 else 8

/-- 41_decode_avp.md R149: the consumed length of an AVP. -/
def Obligations.AvpConsumedLength : Prop :=
  ∀ (read : Nat → Byte) (bufLen s n : Nat) (d : Desc), decodeAvpAt read bufLen s = .ok d n →
    s ≤ n ∧ n - s = headerSize d.flags + paddedLength d.dataLen.toNat ∧ n - s = paddedLength d.len.toNat ∧
    (n - s) % 4 = 0 ∧ 8 ≤ n - s ∧ (hasVendorId d.flags = true → 12 ≤ n - s) ∧ n - s ≤ 2 ^ 24

/-- 41_decode_avp.md R150: overshoot past the end of the buffer, by at most 3, and what the next command then finds. -/
def Obligations.AvpOvershoot : Prop :=
  ∀ (read : Nat → Byte) (bufLen s n : Nat) (d : Desc), bufLen ≤ Config.bufCapMax →
    decodeAvpAt read bufLen s = .ok d n →
    n ≤ bufLen + 3 ∧
    (bufLen < n ↔ d.dataLen.toNat % 4 ≠ 0 ∧
      bufLen < d.dataOff.toNat + d.dataLen.toNat + (4 - d.dataLen.toNat % 4)) ∧
    (bufLen < n → decodeAvpAt read bufLen n = .err .structural .avpHdrShort n)

/-- 20_memory.md R67: the data slice of a decoded AVP lies inside the buffer; the padding after it need not: for each of 1,
2, 3 there is a record that decodes with that many padding bytes missing. -/
def Obligations.DataSliceInsideTheBuffer : Prop :=
  (∀ (read : Nat → Byte) (bufLen s n : Nat) (d : Desc), bufLen ≤ Config.bufCapMax →
    decodeAvpAt read bufLen s = .ok d n →
    d.dataOff.toNat + d.dataLen.toNat = s + d.len.toNat ∧ s + d.len.toNat ≤ s + availableAt bufLen s ∧
    s + availableAt bufLen s = bufLen) ∧
  (∀ k, 1 ≤ k → k ≤ 3 → ∃ (read : Nat → Byte) (bufLen s n : Nat) (d : Desc), decodeAvpAt read bufLen s = .ok d n ∧
    d.dataOff.toNat + paddedLength d.dataLen.toNat = bufLen + k)

/-- 20_memory.md R65: the buffer addresses the result of an AVP decode depends on. -/
def Obligations.AvpReadSet : Prop :=
  ∀ (read read' : Nat → Byte) (bufLen s : Nat),
    (8 ≤ availableAt bufLen s → ∀ a, s ≤ a → a < s + 8 → read a = read' a) →
    (∀ d n, decodeAvpAt read bufLen s = .ok d n → hasVendorId d.flags = true →
      ∀ a, s + 8 ≤ a → a < s + 12 → read a = read' a) →
    decodeAvpAt read bufLen s = decodeAvpAt read' bufLen s

/-- 41_decode_avp.md R154: offset independence. -/
def Obligations.AvpOffsetIndependence : Prop :=
  ∀ (read : Nat → Byte) (bufLen s : Nat), s ≤ bufLen → bufLen ≤ Config.bufCapMax →
    match decodeAvpAt read bufLen s, decodeAvpAt (fun a => read (s + a)) (bufLen - s) 0 with
    | .ok d n, .ok d' n' =>
      d = shiftDesc s d' ∧ d.dataOff.toNat = d'.dataOff.toNat + s ∧ n = n' + s ∧
      logicalAvp read d = logicalAvp (fun a => read (s + a)) d'
    | .err k c a, .err k' c' a' => k = k' ∧ c = c' ∧ a = s ∧ a' = 0
    | _, _ => False

/-- 42_decode_msg.md R183: offset independence of the Message. -/
def Obligations.MsgOffsetIndependence : Prop :=
  ∀ (read : Nat → Byte) (bufLen s : Nat), s ≤ bufLen → bufLen ≤ Config.bufCapMax →
    match decodeMsgAt read bufLen s, decodeMsgAt (fun a => read (s + a)) (bufLen - s) 0 with
    | .ok m n, .ok m' n' =>
      m.scalars = m'.scalars ∧ m.avps = m'.avps.map (shiftDesc s) ∧ m.avps.length = m'.avps.length ∧ n = n' + s ∧
      logicalMsg read m = logicalMsg (fun a => read (s + a)) m'
    | .err k c a, .err k' c' a' => k = k' ∧ c = c' ∧ a = a' + s
    | _, _ => False

/-- 42_decode_msg.md R185: the loop's bound. More fuel than `ceil((msg_length - 20) / 8)`, which is at most
`msg_length / 8`, never changes the result, so the loop ends by itself, error or not, within that many bodies. -/
def Obligations.MessageLoopTerminates : Prop :=
  (∀ (read : Nat → Byte) (bufLen s msgLength fuel : Nat), 20 ≤ msgLength →
    (msgLength - 20 + 7) / 8 ≤ fuel →
    decodeAvpsAt read bufLen s msgLength fuel (s + 20) =
      decodeAvpsAt read bufLen s msgLength ((msgLength - 20 + 7) / 8) (s + 20) ∧
    (msgLength - 20 + 7) / 8 ≤ msgLength / 8) ∧
  (∀ (read : Nat → Byte) (bufLen s n : Nat) (m : Message), decodeMsgAt read bufLen s = .ok m n →
    m.avps.length ≤ (m.scalars.length.toNat - 20 + 7) / 8 ∧ m.avps.length ≤ m.scalars.length.toNat / 8 ∧
    m.avps.length ≤ 2097150)

/-- 42_decode_msg.md R178: the final offset of a Message. -/
def Obligations.MessageFinalOffset : Prop :=
  ∀ (read : Nat → Byte) (bufLen s n : Nat) (m : Message), decodeMsgAt read bufLen s = .ok m n →
    s + m.scalars.length.toNat ≤ n ∧
    n = s + 20 + (m.avps.map fun d => paddedLength d.len.toNat).sum ∧ (n - s) % 4 = 0 ∧ n ≤ bufLen + 3 ∧
    (m.avps = [] → n = s + 20) ∧
    (n = s + m.scalars.length.toNat ↔
      20 + (m.avps.map fun d => paddedLength d.len.toNat).sum = m.scalars.length.toNat)

/-- 42_decode_msg.md R182: entry 0 is the AVP at `s + 20`, entry `i + 1` the AVP that starts where entry `i` ended. -/
def Obligations.MessageEntriesInWireOrder : Prop :=
  ∀ (read : Nat → Byte) (bufLen s n : Nat) (m : Message), decodeMsgAt read bufLen s = .ok m n →
    ∀ (i : Nat) (d : Desc), m.avps[i]? = some d →
      decodeAvpAt read bufLen (s + 20 + ((m.avps.take i).map fun e => paddedLength e.len.toNat).sum) =
        .ok d (s + 20 + ((m.avps.take (i + 1)).map fun e => paddedLength e.len.toNat).sum)

/-- 60_exceptions.md section 3: which record a failing Message names, and that the kind is always Structural. -/
def Obligations.MessageErrorNamesTheRecord : Prop :=
  ∀ (read : Nat → Byte) (bufLen s a : Nat) (k : ErrKind) (c : Cause), decodeMsgAt read bufLen s = .err k c a →
    k = .structural ∧
    (((c = .msgHdrShort ∨ c = .msgLenLtHdr ∨ c = .msgLenGtAvail) ∧ a = s) ∨
     ((c = .avpHdrShort ∨ c = .avpLenLtHdr ∨ c = .avpLenGtAvail) ∧ s + 20 ≤ a ∧
       decodeAvpAt read bufLen a = .err k c a))

/-- 00_scope.md R3: the result of a command is a function of `BUF[0 .. BUF_LEN-1]`, `BUF_LEN` and `OFFSET` as they stand at
accept; no result register, hidden register, table entry or earlier command matters. -/
def Obligations.ResultDependsOnTheInputsOnly : Prop :=
  ∀ (i : Instr) (s s' : State), i = .decodeAvp ∨ i = .decodeMsg →
    Inv s → Inv s' → s.regs.status ≠ .busy → s'.regs.status ≠ .busy → s.turns = [] → s'.turns = [] →
    s.regs.bufLen.toNat ≤ s.bufCap → s'.regs.bufLen.toNat ≤ s'.bufCap →
    s.regs.bufLen = s'.regs.bufLen → s.regs.offset = s'.regs.offset →
    (∀ a, a < s.regs.bufLen.toNat → byteAt s a = byteAt s' a) →
    ∃ (s1 s1' t t' : State) (k : Nat), exec i s = .next s1 ∧ exec i s' = .next s1' ∧
      runSteps k s1 = .next t ∧ runSteps k s1' = .next t' ∧ t.regs.status.isDone = true ∧
      t.regs = t'.regs ∧ t.done = t'.done ∧
      ∀ j, j < t.regs.avpCount.toNat → sparseGet t.avpt j = sparseGet t'.avpt j

/-! The invariant. -/

/-- The invariant holds right after reset, for every legal capacity and whatever the host will do. -/
def Obligations.ResetMeetsInv : Prop :=
  Inv State.reset ∧ ∀ (cap : Nat) (turns : List Turn), cap ≤ Config.bufCapMax → Inv (State.resetWith cap turns)

/-- Every step keeps the invariant: the memories stay in canonical form and in range, `done` follows `STATUS`, the results
are what each state leaves, every entry below the count is a decoded AVP, and the hidden registers hold what each phase
needs. -/
def Obligations.StepKeepsInv : Prop :=
  ∀ s t : State, Inv s → step s = .next t → Inv t

/-- 20_memory.md R66 and 42_decode_msg.md R186: in a state that meets the invariant the parser never reads at or beyond
`BUF_LEN` and the table never overflows: no step faults. -/
def Obligations.NoStepFaults : Prop :=
  ∀ (s : State) (r : Fault), Inv s → step s ≠ .fault r

/-- 60_exceptions.md R271: the block never raises Semantic. -/
def Obligations.ErrKindIsNoneOrStructural : Prop :=
  ∀ s : State, Reachable s →
    (s.regs.err.kind = 0 ∨ s.regs.err.kind = 1) ∧
    s.regs.err.word ∈ [0x00000000, 0x00000101, 0x00000201, 0x00000301, 0x00000401, 0x00000501, (0x00000601 : Word)]

/-- 10_state.md R50: the level of the line `done` at every moment. -/
def Obligations.DoneLineFollowsStatus : Prop :=
  ∀ s : State, Reachable s → (s.done = true ↔ s.regs.status = .doneOk ∨ s.regs.status = .doneErr)

/-- 43_host_commands.md R209: which results are valid when. -/
def Obligations.ResultsValidByState : Prop :=
  ∀ s : State, Reachable s →
    (s.regs.status = .idle ∨ s.regs.status = .busy →
      s.regs.newOffset = 0 ∧ s.regs.err.word = 0 ∧ s.regs.errOffset = 0 ∧ s.regs.avp = Desc.zero ∧
      s.regs.msg = MsgScalars.zero ∧ s.regs.avpCount = 0) ∧
    (s.regs.status = .doneOk →
      s.regs.err.word = 0 ∧ s.regs.errOffset = 0 ∧
      ((s.regs.cmd = 1 ∧ s.regs.msg = MsgScalars.zero ∧ s.regs.avpCount = 0) ∨
       (s.regs.cmd = 2 ∧ s.regs.avp = Desc.zero ∧
        ∀ i, i < s.regs.avpCount.toNat → ∃ d, sparseGet s.avpt i = some d))) ∧
    (s.regs.status = .doneErr →
      s.regs.err.kind = 1 ∧ s.regs.avp = Desc.zero ∧ s.regs.msg = MsgScalars.zero ∧ s.regs.avpCount = 0)
end

