-- ==== Sys2Proof/Laws/Bytes.lean ====
section
/-! SUPPORT. Big-endian assembly: lengths, bounds, and that `beBytes` and `beValue` undo each other. -/

namespace Sys2Proof

@[simp] theorem beBytes_length (n v : Nat) : (beBytes n v).length = n := by
  induction n with
  | zero => rfl
  | succ n ih => simp [beBytes, ih]

theorem beValue_lt (bs : List Byte) : beValue bs < 256 ^ bs.length := by
  induction bs with
  | nil => simp [beValue]
  | cons b bs ih =>
    have hb : b.toNat < 256 := b.isLt
    have h : b.toNat * 256 ^ bs.length + 256 ^ bs.length ≤ 256 * 256 ^ bs.length := by
      have := Nat.mul_le_mul_right (256 ^ bs.length) (Nat.succ_le_of_lt hb)
      rwa [Nat.succ_mul] at this
    simp only [beValue, List.length_cons, pow_succ]
    omega

/-- `beBytes n v` are the low `n` bytes of `v`. -/
theorem beValue_beBytes (n v : Nat) : beValue (beBytes n v) = v % 256 ^ n := by
  induction n with
  | zero => simp [beBytes, beValue, Nat.mod_one]
  | succ n ih =>
    have h : (BitVec.ofNat 8 (v / 256 ^ n)).toNat = v / 256 ^ n % 256 := by simp
    have hm := Nat.mod_mul (x := v) (a := 256 ^ n) (b := 256)
    simp only [beBytes, beValue, beBytes_length, ih, h]
    rw [pow_succ, hm, add_comm, mul_comm]

theorem beValue_beBytes_of_lt {n v : Nat} (h : v < 256 ^ n) : beValue (beBytes n v) = v := by
  rw [beValue_beBytes, Nat.mod_eq_of_lt h]

theorem beBytes_add_mul (n v k : Nat) : beBytes n (v + 256 ^ n * k) = beBytes n v := by
  induction n generalizing v k with
  | zero => rfl
  | succ n ih =>
    have h1 : (v + 256 ^ (n + 1) * k) / 256 ^ n = v / 256 ^ n + 256 * k := by
      rw [pow_succ, mul_assoc, Nat.add_mul_div_left _ _ (Nat.pow_pos (by decide))]
    have h2 : BitVec.ofNat 8 (v / 256 ^ n + 256 * k) = BitVec.ofNat 8 (v / 256 ^ n) := by
      apply BitVec.eq_of_toNat_eq
      simp only [BitVec.toNat_ofNat]
      omega
    have h3 : v + 256 ^ (n + 1) * k = v + 256 ^ n * (256 * k) := by ring
    simp only [beBytes, h1, h2]
    rw [h3, ih]

theorem beBytes_beValue (bs : List Byte) : beBytes bs.length (beValue bs) = bs := by
  induction bs with
  | nil => rfl
  | cons b bs ih =>
    have hlt := beValue_lt bs
    have hd : (b.toNat * 256 ^ bs.length + beValue bs) / 256 ^ bs.length = b.toNat := by
      rw [mul_comm, Nat.mul_add_div (Nat.pow_pos (by decide)), Nat.div_eq_of_lt hlt, add_zero]
    simp only [beValue, List.length_cons, beBytes, hd, BitVec.ofNat_toNat, BitVec.setWidth_eq]
    rw [add_comm, mul_comm, beBytes_add_mul, ih]

@[simp] theorem beValue_append (xs ys : List Byte) :
    beValue (xs ++ ys) = beValue xs * 256 ^ ys.length + beValue ys := by
  induction xs with
  | nil => simp [beValue]
  | cons x xs ih => simp [beValue, ih, pow_add]; ring

/-- A field of a record that starts with `xs`, beyond `xs`. -/
theorem fieldAt_append_right (xs ys : List Byte) (k n : Nat) :
    fieldAt (xs ++ ys) (xs.length + k) n = fieldAt ys k n := by
  have h : xs.drop (xs.length + k) = [] := List.drop_eq_nil_of_le (by omega)
  simp [fieldAt, List.drop_append, h]

/-- The field that is exactly the front of a record. -/
theorem fieldAt_append_left (xs ys : List Byte) : fieldAt (xs ++ ys) 0 xs.length = beValue xs := by
  simp [fieldAt]

theorem fieldAt_lt (bs : List Byte) (k n : Nat) : fieldAt bs k n < 256 ^ n := by
  have h := beValue_lt ((bs.drop k).take n)
  exact lt_of_lt_of_le h (Nat.pow_le_pow_right (by decide) (by simp))

end Sys2Proof
end

