-- ==== Sys2Proof/Laws/State.lean ====
section
/-! SUPPORT. One lemma per field per update of State, each true by rfl, so that no proof unfolds a record update. -/

namespace Sys2Proof.Machine

variable (s : State)

@[simp] theorem State.setRegs_bufCap (r : Regs) : (s.setRegs r).bufCap = s.bufCap := rfl
@[simp] theorem State.setRegs_regs (r : Regs) : (s.setRegs r).regs = r := rfl
@[simp] theorem State.setRegs_avpt (r : Regs) : (s.setRegs r).avpt = s.avpt := rfl
@[simp] theorem State.setRegs_buf (r : Regs) : (s.setRegs r).buf = s.buf := rfl
@[simp] theorem State.setRegs_hid (r : Regs) : (s.setRegs r).hid = s.hid := rfl
@[simp] theorem State.setRegs_done (r : Regs) : (s.setRegs r).done = s.done := rfl
@[simp] theorem State.setRegs_turns (r : Regs) : (s.setRegs r).turns = s.turns := rfl
@[simp] theorem State.setRegs_rdata (r : Regs) : (s.setRegs r).rdata = s.rdata := rfl
@[simp] theorem State.setRegs_epoch (r : Regs) : (s.setRegs r).epoch = s.epoch := rfl
@[simp] theorem State.setRegs_fresh (r : Regs) : (s.setRegs r).fresh = s.fresh := rfl
@[simp] theorem State.setRegs_self : s.setRegs s.regs = s := rfl
@[simp] theorem State.setRegs_setRegs (r r' : Regs) : (s.setRegs r).setRegs r' = s.setRegs r' := rfl

@[simp] theorem State.setAvpt_bufCap (t : Table) : (s.setAvpt t).bufCap = s.bufCap := rfl
@[simp] theorem State.setAvpt_regs (t : Table) : (s.setAvpt t).regs = s.regs := rfl
@[simp] theorem State.setAvpt_avpt (t : Table) : (s.setAvpt t).avpt = t := rfl
@[simp] theorem State.setAvpt_buf (t : Table) : (s.setAvpt t).buf = s.buf := rfl
@[simp] theorem State.setAvpt_hid (t : Table) : (s.setAvpt t).hid = s.hid := rfl
@[simp] theorem State.setAvpt_done (t : Table) : (s.setAvpt t).done = s.done := rfl
@[simp] theorem State.setAvpt_turns (t : Table) : (s.setAvpt t).turns = s.turns := rfl
@[simp] theorem State.setAvpt_rdata (t : Table) : (s.setAvpt t).rdata = s.rdata := rfl
@[simp] theorem State.setAvpt_epoch (t : Table) : (s.setAvpt t).epoch = s.epoch := rfl
@[simp] theorem State.setAvpt_fresh (t : Table) : (s.setAvpt t).fresh = s.fresh := rfl
@[simp] theorem State.setAvpt_self : s.setAvpt s.avpt = s := rfl
@[simp] theorem State.setAvpt_setAvpt (t t' : Table) : (s.setAvpt t).setAvpt t' = s.setAvpt t' := rfl

@[simp] theorem State.setBuf_bufCap (m : Memory) : (s.setBuf m).bufCap = s.bufCap := rfl
@[simp] theorem State.setBuf_regs (m : Memory) : (s.setBuf m).regs = s.regs := rfl
@[simp] theorem State.setBuf_avpt (m : Memory) : (s.setBuf m).avpt = s.avpt := rfl
@[simp] theorem State.setBuf_buf (m : Memory) : (s.setBuf m).buf = m := rfl
@[simp] theorem State.setBuf_hid (m : Memory) : (s.setBuf m).hid = s.hid := rfl
@[simp] theorem State.setBuf_done (m : Memory) : (s.setBuf m).done = s.done := rfl
@[simp] theorem State.setBuf_turns (m : Memory) : (s.setBuf m).turns = s.turns := rfl
@[simp] theorem State.setBuf_rdata (m : Memory) : (s.setBuf m).rdata = s.rdata := rfl
@[simp] theorem State.setBuf_epoch (m : Memory) : (s.setBuf m).epoch = s.epoch := rfl
@[simp] theorem State.setBuf_fresh (m : Memory) : (s.setBuf m).fresh = s.fresh := rfl
@[simp] theorem State.setBuf_self : s.setBuf s.buf = s := rfl
@[simp] theorem State.setBuf_setBuf (m m' : Memory) : (s.setBuf m).setBuf m' = s.setBuf m' := rfl

@[simp] theorem State.setHid_bufCap (h : Hidden) : (s.setHid h).bufCap = s.bufCap := rfl
@[simp] theorem State.setHid_regs (h : Hidden) : (s.setHid h).regs = s.regs := rfl
@[simp] theorem State.setHid_avpt (h : Hidden) : (s.setHid h).avpt = s.avpt := rfl
@[simp] theorem State.setHid_buf (h : Hidden) : (s.setHid h).buf = s.buf := rfl
@[simp] theorem State.setHid_hid (h : Hidden) : (s.setHid h).hid = h := rfl
@[simp] theorem State.setHid_done (h : Hidden) : (s.setHid h).done = s.done := rfl
@[simp] theorem State.setHid_turns (h : Hidden) : (s.setHid h).turns = s.turns := rfl
@[simp] theorem State.setHid_rdata (h : Hidden) : (s.setHid h).rdata = s.rdata := rfl
@[simp] theorem State.setHid_epoch (h : Hidden) : (s.setHid h).epoch = s.epoch := rfl
@[simp] theorem State.setHid_fresh (h : Hidden) : (s.setHid h).fresh = s.fresh := rfl
@[simp] theorem State.setHid_self : s.setHid s.hid = s := rfl
@[simp] theorem State.setHid_setHid (h h' : Hidden) : (s.setHid h).setHid h' = s.setHid h' := rfl

@[simp] theorem State.setDone_bufCap (d : Bool) : (s.setDone d).bufCap = s.bufCap := rfl
@[simp] theorem State.setDone_regs (d : Bool) : (s.setDone d).regs = s.regs := rfl
@[simp] theorem State.setDone_avpt (d : Bool) : (s.setDone d).avpt = s.avpt := rfl
@[simp] theorem State.setDone_buf (d : Bool) : (s.setDone d).buf = s.buf := rfl
@[simp] theorem State.setDone_hid (d : Bool) : (s.setDone d).hid = s.hid := rfl
@[simp] theorem State.setDone_done (d : Bool) : (s.setDone d).done = d := rfl
@[simp] theorem State.setDone_turns (d : Bool) : (s.setDone d).turns = s.turns := rfl
@[simp] theorem State.setDone_rdata (d : Bool) : (s.setDone d).rdata = s.rdata := rfl
@[simp] theorem State.setDone_epoch (d : Bool) : (s.setDone d).epoch = s.epoch := rfl
@[simp] theorem State.setDone_fresh (d : Bool) : (s.setDone d).fresh = s.fresh := rfl
@[simp] theorem State.setDone_self : s.setDone s.done = s := rfl
@[simp] theorem State.setDone_setDone (d d' : Bool) : (s.setDone d).setDone d' = s.setDone d' := rfl

@[simp] theorem State.setTurns_bufCap (ts : List Turn) : (s.setTurns ts).bufCap = s.bufCap := rfl
@[simp] theorem State.setTurns_regs (ts : List Turn) : (s.setTurns ts).regs = s.regs := rfl
@[simp] theorem State.setTurns_avpt (ts : List Turn) : (s.setTurns ts).avpt = s.avpt := rfl
@[simp] theorem State.setTurns_buf (ts : List Turn) : (s.setTurns ts).buf = s.buf := rfl
@[simp] theorem State.setTurns_hid (ts : List Turn) : (s.setTurns ts).hid = s.hid := rfl
@[simp] theorem State.setTurns_done (ts : List Turn) : (s.setTurns ts).done = s.done := rfl
@[simp] theorem State.setTurns_turns (ts : List Turn) : (s.setTurns ts).turns = ts := rfl
@[simp] theorem State.setTurns_rdata (ts : List Turn) : (s.setTurns ts).rdata = s.rdata := rfl
@[simp] theorem State.setTurns_epoch (ts : List Turn) : (s.setTurns ts).epoch = s.epoch := rfl
@[simp] theorem State.setTurns_fresh (ts : List Turn) : (s.setTurns ts).fresh = s.fresh := rfl
@[simp] theorem State.setTurns_self : s.setTurns s.turns = s := rfl
@[simp] theorem State.setTurns_setTurns (ts ts' : List Turn) : (s.setTurns ts).setTurns ts' = s.setTurns ts' := rfl

@[simp] theorem State.setRdata_bufCap (v : Word) : (s.setRdata v).bufCap = s.bufCap := rfl
@[simp] theorem State.setRdata_regs (v : Word) : (s.setRdata v).regs = s.regs := rfl
@[simp] theorem State.setRdata_avpt (v : Word) : (s.setRdata v).avpt = s.avpt := rfl
@[simp] theorem State.setRdata_buf (v : Word) : (s.setRdata v).buf = s.buf := rfl
@[simp] theorem State.setRdata_hid (v : Word) : (s.setRdata v).hid = s.hid := rfl
@[simp] theorem State.setRdata_done (v : Word) : (s.setRdata v).done = s.done := rfl
@[simp] theorem State.setRdata_turns (v : Word) : (s.setRdata v).turns = s.turns := rfl
@[simp] theorem State.setRdata_rdata (v : Word) : (s.setRdata v).rdata = v := rfl
@[simp] theorem State.setRdata_epoch (v : Word) : (s.setRdata v).epoch = s.epoch := rfl
@[simp] theorem State.setRdata_fresh (v : Word) : (s.setRdata v).fresh = s.fresh := rfl
@[simp] theorem State.setRdata_self : s.setRdata s.rdata = s := rfl
@[simp] theorem State.setRdata_setRdata (v v' : Word) : (s.setRdata v).setRdata v' = s.setRdata v' := rfl

@[simp] theorem State.setFresh_bufCap (k : Nat) : (s.setFresh k).bufCap = s.bufCap := rfl
@[simp] theorem State.setFresh_regs (k : Nat) : (s.setFresh k).regs = s.regs := rfl
@[simp] theorem State.setFresh_avpt (k : Nat) : (s.setFresh k).avpt = s.avpt := rfl
@[simp] theorem State.setFresh_buf (k : Nat) : (s.setFresh k).buf = s.buf := rfl
@[simp] theorem State.setFresh_hid (k : Nat) : (s.setFresh k).hid = s.hid := rfl
@[simp] theorem State.setFresh_done (k : Nat) : (s.setFresh k).done = s.done := rfl
@[simp] theorem State.setFresh_turns (k : Nat) : (s.setFresh k).turns = s.turns := rfl
@[simp] theorem State.setFresh_rdata (k : Nat) : (s.setFresh k).rdata = s.rdata := rfl
@[simp] theorem State.setFresh_epoch (k : Nat) : (s.setFresh k).epoch = s.epoch := rfl
@[simp] theorem State.setFresh_fresh (k : Nat) : (s.setFresh k).fresh = k := rfl
@[simp] theorem State.setFresh_self : s.setFresh s.fresh = s := rfl
@[simp] theorem State.setFresh_setFresh (k k' : Nat) : (s.setFresh k).setFresh k' = s.setFresh k' := rfl

/-! The turns are set last: an update of another field goes through. -/

theorem State.setRegs_setTurns (r : Regs) (ts : List Turn) : (s.setTurns ts).setRegs r = (s.setRegs r).setTurns ts := rfl
theorem State.setHid_setTurns (h : Hidden) (ts : List Turn) : (s.setTurns ts).setHid h = (s.setHid h).setTurns ts := rfl
theorem State.setDone_setTurns (d : Bool) (ts : List Turn) : (s.setTurns ts).setDone d = (s.setDone d).setTurns ts := rfl
theorem State.setRdata_setTurns (v : Word) (ts : List Turn) : (s.setTurns ts).setRdata v = (s.setRdata v).setTurns ts := rfl
theorem State.setBuf_setTurns (m : Memory) (ts : List Turn) : (s.setTurns ts).setBuf m = (s.setBuf m).setTurns ts := rfl
theorem State.setAvpt_setTurns (t : Table) (ts : List Turn) : (s.setTurns ts).setAvpt t = (s.setAvpt t).setTurns ts := rfl
theorem State.setFresh_setTurns (k : Nat) (ts : List Turn) : (s.setTurns ts).setFresh k = (s.setFresh k).setTurns ts := rfl

@[simp] theorem State.resetWith_regs (cap : Nat) (ts : List Turn) : (State.resetWith cap ts).regs = .reset := rfl
@[simp] theorem State.resetWith_turns (cap : Nat) (ts : List Turn) : (State.resetWith cap ts).turns = ts := rfl
@[simp] theorem State.resetWith_bufCap (cap : Nat) (ts : List Turn) : (State.resetWith cap ts).bufCap = cap := rfl
@[simp] theorem State.resetWith_buf (cap : Nat) (ts : List Turn) : (State.resetWith cap ts).buf = [] := rfl
@[simp] theorem State.resetWith_avpt (cap : Nat) (ts : List Turn) : (State.resetWith cap ts).avpt = [] := rfl

end Sys2Proof.Machine
end

