-- ==== Sys2Proof/Laws/Memory.lean ====
section
/-! SUPPORT. Sparse lists: read after write, and that writing keeps the canonical form and the range; then the same of
the buffer, read byte by byte. -/

namespace Sys2Proof.Machine

variable {α : Type}

@[simp] theorem sparseGet_set_self (l : List (Nat × α)) (a : Nat) (v : α) : sparseGet (sparseSet l a v) a = some v := by
  induction l with
  | nil => simp [sparseSet, sparseGet]
  | cons e l ih =>
    obtain ⟨b, w⟩ := e
    simp only [sparseSet]
    split
    · simp [sparseGet]
    · split
      · simp [sparseGet]
      · rename_i h
        simp [sparseGet, h, ih]

theorem sparseGet_set_other (l : List (Nat × α)) {a b : Nat} (v : α) (h : b ≠ a) :
    sparseGet (sparseSet l a v) b = sparseGet l b := by
  induction l with
  | nil => simp [sparseSet, sparseGet, h]
  | cons e l ih =>
    obtain ⟨c, w⟩ := e
    simp only [sparseSet]
    split
    · simp [sparseGet, h]
    · split
      · rename_i hc
        subst hc
        simp [sparseGet, h]
      · simp only [sparseGet, ih]

theorem sparseGet_set (l : List (Nat × α)) (a b : Nat) (v : α) :
    sparseGet (sparseSet l a v) b = if b = a then some v else sparseGet l b := by
  by_cases h : b = a
  · subst h; simp
  · simp [h, sparseGet_set_other]

theorem risingFrom_set (l : List (Nat × α)) (lo a : Nat) (v : α) (hl : risingFrom lo l = true) (ha : lo ≤ a) :
    risingFrom lo (sparseSet l a v) = true := by
  induction l generalizing lo with
  | nil => simpa [sparseSet, risingFrom] using ha
  | cons e l ih =>
    obtain ⟨b, w⟩ := e
    simp only [risingFrom, Bool.and_eq_true, decide_eq_true_eq] at hl
    simp only [sparseSet]
    split
    · simp only [risingFrom, Bool.and_eq_true, decide_eq_true_eq]
      exact ⟨ha, by omega, hl.2⟩
    · split
      · rename_i h
        subst h
        simp only [risingFrom, Bool.and_eq_true, decide_eq_true_eq]
        exact hl
      · simp only [risingFrom, Bool.and_eq_true, decide_eq_true_eq]
        exact ⟨hl.1, ih (b + 1) hl.2 (by omega)⟩

theorem keysBelow_set (l : List (Nat × α)) (cap a : Nat) (v : α) (hl : keysBelow cap l = true) (ha : a < cap) :
    keysBelow cap (sparseSet l a v) = true := by
  induction l with
  | nil => simpa [sparseSet, keysBelow] using ha
  | cons e l ih =>
    obtain ⟨b, w⟩ := e
    simp only [keysBelow, List.all_cons, Bool.and_eq_true, decide_eq_true_eq] at hl ih ⊢
    simp only [sparseSet]
    split
    · simpa using ⟨ha, hl.1, by simpa using hl.2⟩
    · split
      · simpa using ⟨ha, by simpa using hl.2⟩
      · simpa using ⟨hl.1, by simpa using ih hl.2⟩

/-- An entry that is listed is in range. -/
theorem lt_of_sparseGet (l : List (Nat × α)) (cap a : Nat) (v : α) (hl : keysBelow cap l = true)
    (h : sparseGet l a = some v) : a < cap := by
  induction l with
  | nil => simp [sparseGet] at h
  | cons e l ih =>
    obtain ⟨b, w⟩ := e
    simp only [keysBelow, List.all_cons, Bool.and_eq_true, decide_eq_true_eq] at hl ih
    simp only [sparseGet] at h
    split at h
    · rename_i hab
      omega
    · exact ih hl.2 h

/-- Writing a byte keeps the buffer's canonical form. -/
theorem Memory.wf_set (m : Memory) (a : Nat) (v : Byte) (h : Memory.wf m = true) :
    Memory.wf (sparseSet m a v) = true :=
  risingFrom_set m 0 a v h (Nat.zero_le a)

/-- Writing a run of entries keeps the table's canonical form. -/
theorem Table.wf_set (t : Table) (i : Nat) (d : Desc) (h : Table.wf t = true) : Table.wf (sparseSet t i d) = true :=
  risingFrom_set t 0 i d h (Nat.zero_le i)

theorem Memory.wf_reset (cap : Nat) (ts : List Turn) : Memory.wf (State.resetWith cap ts).buf = true := rfl

/-- Read after write of one byte. -/
theorem byteAt_setBuf (s : State) (a b : Nat) (v : Byte) :
    byteAt (s.setBuf (sparseSet s.buf a v)) b = if b = a then v else byteAt s b := by
  by_cases h : b = a <;> simp [byteAt, sparseGet_set, h]

/-- A byte's value depends on the buffer and the epoch alone. -/
theorem byteAt_congr {s t : State} (hb : t.buf = s.buf) (he : t.epoch = s.epoch) : byteAt t = byteAt s := by
  funext a
  simp [byteAt, hb, he]

@[simp] theorem slice_length (read : Nat → Byte) (a n : Nat) : (slice read a n).length = n := by
  induction n generalizing a with
  | zero => rfl
  | succ n ih => simp [slice, ih]

theorem slice_take (read : Nat → Byte) (a n k : Nat) (h : k ≤ n) : (slice read a n).take k = slice read a k := by
  induction n generalizing a k with
  | zero => simp [Nat.le_zero.mp h, slice]
  | succ n ih =>
    cases k with
    | zero => simp [slice]
    | succ k => simp [slice, ih (a + 1) k (by omega)]

theorem slice_drop (read : Nat → Byte) (a n k : Nat) (h : k ≤ n) :
    (slice read a n).drop k = slice read (a + k) (n - k) := by
  induction k generalizing a n with
  | zero => simp
  | succ k ih =>
    cases n with
    | zero => omega
    | succ n =>
      have : a + 1 + k = a + (k + 1) := by omega
      simp [slice, ih (a + 1) n (by omega), this]

/-- A field of a record that stands in the buffer is a `MemRead` at record base plus displacement (40_helpers.md R127). -/
theorem fieldAt_slice (read : Nat → Byte) (a n k w : Nat) (h : k + w ≤ n) :
    fieldAt (slice read a n) k w = beRead read (a + k) w := by
  simp [fieldAt, beRead, slice_drop read a n k (by omega), slice_take read (a + k) (n - k) w (by omega)]

theorem slice_congr {read read' : Nat → Byte} {a n : Nat} (h : ∀ b, a ≤ b → b < a + n → read b = read' b) :
    slice read a n = slice read' a n := by
  induction n generalizing a with
  | zero => rfl
  | succ n ih =>
    simp only [slice]
    rw [h a (le_refl a) (by omega), ih fun b h1 h2 => h b (by omega) (by omega)]

theorem beRead_congr {read read' : Nat → Byte} {a n : Nat} (h : ∀ b, a ≤ b → b < a + n → read b = read' b) :
    beRead read a n = beRead read' a n := by
  simp [beRead, slice_congr h]

theorem slice_shift (read : Nat → Byte) (k a n : Nat) : slice (fun b => read (k + b)) a n = slice read (k + a) n := by
  induction n generalizing a with
  | zero => rfl
  | succ n ih => simp [slice, ih, Nat.add_assoc]

theorem beRead_shift (read : Nat → Byte) (k a n : Nat) :
    beRead (fun b => read (k + b)) a n = beRead read (k + a) n := by
  simp [beRead, slice_shift]

theorem beRead_lt (read : Nat → Byte) (a n : Nat) : beRead read a n < 256 ^ n := by
  simpa [beRead] using beValue_lt (slice read a n)

end Sys2Proof.Machine
end

