-- ==== Sys2Proof/Laws/Ops.lean ====
section
/-! SUPPORT. Per shared operation, one lemma that says all it can do; and the frames of the two step shapes, parser
(`setHid` of the state) and command. -/

namespace Sys2Proof.Machine

@[simp] theorem andThen_next (s : State) (f : State → Out) : andThen (.next s) f = f s := rfl
@[simp] theorem andThen_fault (r : Fault) (f : State → Out) : andThen (.fault r) f = .fault r := rfl
@[simp] theorem andThen_refused (r : Refusal) (f : State → Out) : andThen (.refused r) f = .refused r := rfl
@[simp] theorem withRead_some (v : Nat) (f : Nat → Out) : withRead (some v) f = f v := rfl
@[simp] theorem withRead_none (f : Nat → Out) : withRead none f = .fault .readOutsideBuffer := rfl

/-- `andThen` answers a next state only through one of its first part. -/
theorem andThen_eq_next {o : Out} {f : State → Out} {t : State} (h : andThen o f = .next t) :
    ∃ s, o = .next s ∧ f s = .next t := by
  cases o with
  | next s => exact ⟨s, rfl, h⟩
  | fault r => simp at h
  | refused r => simp at h

/-- A `MemRead` inside the buffer. -/
theorem memRead_of_le {s : State} {a n : Nat} (h : a + n ≤ s.hid.lenL.toNat) :
    memRead s a n = some (beRead (byteAt s) a n) := by
  simp [memRead, h]

/-- `MemRead` is defined exactly inside the buffer (00_scope.md R13). -/
theorem memRead_eq_some {s : State} {a n v : Nat} :
    memRead s a n = some v ↔ a + n ≤ s.hid.lenL.toNat ∧ v = beRead (byteAt s) a n := by
  simp only [memRead]
  split <;> simp_all [eq_comm]

theorem bytesLeft_toNat (lenL a : Word) : (bytesLeft lenL a).toNat = lenL.toNat - a.toNat := by
  have h1 := lenL.isLt
  have h2 := a.isLt
  simp only [bytesLeft]
  split
  · simp only [BitVec.toNat_sub]
    omega
  · simp; omega

theorem headerSize_cases (f : Byte) :
    (hasVendorId f = true ∧ headerSize f = 12) ∨ (hasVendorId f = false ∧ headerSize f = 8) := by
  cases h : hasVendorId f <;> simp [headerSize, h]

@[simp] theorem headerSize_toNat (f : Byte) : (BitVec.ofNat 4 (headerSize f)).toNat = headerSize f := by
  rcases headerSize_cases f with ⟨_, h⟩ | ⟨_, h⟩ <;> simp [h]

theorem paddedLength_bounds (n : Nat) : paddedLength n % 4 = 0 ∧ n ≤ paddedLength n ∧ paddedLength n ≤ n + 3 := by
  simp only [paddedLength]
  omega

@[simp] theorem hasVendorId_flagsByte (v m p : Bool) (r : BitVec 5) : hasVendorId (flagsByte v m p r) = v := by
  cases v <;> cases m <;> cases p <;> revert r <;> decide

@[simp] theorem headerSize_flagsByte (v m p : Bool) (r : BitVec 5) :
    headerSize (flagsByte v m p r) = if v then 12 else 8 := by
  simp [headerSize]

/-- Accept: dropped while BUSY, refused when the premise `BufLenFits` fails, else the accept step. -/
theorem accept_cases (top : Top) (w : BitVec 2) (s : State) :
    (s.regs.status = .busy ∧ accept top w s = .next s) ∨
    (s.regs.status ≠ .busy ∧ s.regs.bufLen.toNat ≤ s.bufCap ∧ accept top w s = .next (acceptStep top w s)) ∨
    (s.regs.status ≠ .busy ∧ s.bufCap < s.regs.bufLen.toNat ∧ accept top w s = .refused .bufLenExceedsCap) := by
  simp only [accept]
  by_cases h : s.regs.status = .busy
  · simp [h]
  · by_cases h' : s.regs.bufLen.toNat ≤ s.bufCap
    · simp [h, h']
    · simp [h, h', Nat.lt_of_not_le h']

/-- CLEAR: dropped while BUSY, else its one step. -/
theorem execClear_cases (s : State) :
    (s.regs.status = .busy ∧ execClear s = .next s) ∨ (s.regs.status ≠ .busy ∧ execClear s = .next (clearStep s)) := by
  simp only [execClear]
  by_cases h : s.regs.status = .busy <;> simp [h]

@[simp] theorem raiseStructural_eq (c : Cause) (a : Word) (s : State) :
    raiseStructural c a s = s.setHid { s.hid with ecause := c.code, eat := a, ph := .fail } := rfl

end Sys2Proof.Machine
end

