-- ==== Sys2Proof/Laws/Functions.lean ====
section
/-! SUPPORT. What `DecodeAvp` can answer, and one turn of the loop of `DecodeMsg`. -/

namespace Sys2Proof.Machine

theorem headerSize_bounds (f : Byte) : 8 ≤ headerSize f ∧ headerSize f ≤ 12 := by
  rcases headerSize_cases f with ⟨_, e⟩ | ⟨_, e⟩ <;> simp [e]

theorem availableAt_eq (bufLen s : Nat) : availableAt bufLen s = bufLen - s := by
  unfold availableAt
  split <;> omega

/-- Everything `DecodeAvp` can answer (41_decode_avp.md R140), in the order of its checks. -/
theorem decodeAvpAt_cases (read : Nat → Byte) (bufLen s : Nat) :
    (availableAt bufLen s < 8 ∧ decodeAvpAt read bufLen s = .err .structural .avpHdrShort s) ∨
    (∃ (f : Byte) (l : Nat), 8 ≤ availableAt bufLen s ∧ f = BitVec.ofNat 8 (beRead read (s + 4) 1) ∧
      l = beRead read (s + 5) 3 ∧ l < 2 ^ 24 ∧
      ((l < headerSize f ∧ decodeAvpAt read bufLen s = .err .structural .avpLenLtHdr s) ∨
       (headerSize f ≤ l ∧ availableAt bufLen s < l ∧
        decodeAvpAt read bufLen s = .err .structural .avpLenGtAvail s) ∨
       (headerSize f ≤ l ∧ l ≤ availableAt bufLen s ∧
        decodeAvpAt read bufLen s = .ok
          { code := BitVec.ofNat 32 (beRead read s 4), flags := f,
            vendorId := BitVec.ofNat 32 (if hasVendorId f then beRead read (s + 8) 4 else 0),
            len := BitVec.ofNat 24 l, dataOff := BitVec.ofNat 32 (s + headerSize f),
            dataLen := BitVec.ofNat 24 (l - headerSize f) }
          (s + headerSize f + paddedLength (l - headerSize f))))) := by
  by_cases h : availableAt bufLen s < 8
  · exact .inl ⟨h, by unfold decodeAvpAt; dsimp only; rw [if_pos h]⟩
  · refine .inr ⟨_, _, by omega, rfl, rfl, beRead_lt _ _ 3, ?_⟩
    unfold decodeAvpAt
    dsimp only
    rw [if_neg h]
    generalize (BitVec.ofNat 8 (beRead read (s + 4) 1) : Byte) = f
    generalize beRead read (s + 5) 3 = l
    by_cases h1 : l < headerSize f
    · exact .inl ⟨h1, by rw [if_pos h1]⟩
    · rw [if_neg h1]
      by_cases h2 : availableAt bufLen s < l
      · exact .inr (.inl ⟨by omega, h2, by rw [if_pos h2]⟩)
      · exact .inr (.inr ⟨by omega, by omega, by rw [if_neg h2]⟩)

/-- The loop ends when the running offset reaches the declared length (42_decode_msg.md R175). -/
theorem decodeAvpsAt_stop (read : Nat → Byte) (bufLen s m fuel cur : Nat) (h : ¬ cur - s < m) :
    decodeAvpsAt read bufLen s m fuel cur = .ok [] cur := by
  cases fuel with
  | zero => rfl
  | succ f => simp only [decodeAvpsAt, if_neg h]

/-- One turn of the loop (42_decode_msg.md R176). -/
theorem decodeAvpsAt_turn (read : Nat → Byte) (bufLen s m fuel cur : Nat) (h : cur - s < m) :
    (∃ k c a, decodeAvpAt read bufLen cur = .err k c a ∧
      decodeAvpsAt read bufLen s m (fuel + 1) cur = .err k c a) ∨
    (∃ d n, decodeAvpAt read bufLen cur = .ok d n ∧
      ((∃ k c a, decodeAvpsAt read bufLen s m fuel n = .err k c a ∧
        decodeAvpsAt read bufLen s m (fuel + 1) cur = .err k c a) ∨
       (∃ ds n', decodeAvpsAt read bufLen s m fuel n = .ok ds n' ∧
        decodeAvpsAt read bufLen s m (fuel + 1) cur = .ok (d :: ds) n'))) := by
  simp only [decodeAvpsAt, if_pos h]
  cases decodeAvpAt read bufLen cur with
  | err k c a => exact .inl ⟨k, c, a, rfl, rfl⟩
  | ok d n =>
    refine .inr ⟨d, n, rfl, ?_⟩
    dsimp only
    cases decodeAvpsAt read bufLen s m fuel n with
    | err k c a => exact .inl ⟨k, c, a, rfl, rfl⟩
    | ok ds n' => exact .inr ⟨ds, n', rfl, rfl⟩

end Sys2Proof.Machine
end

