-- ==== Sys2Proof/Laws/PerInstr.lean ====
section
/-! SUPPORT. The family `Width`, a statement about each instruction as syntax: its encoding is as many bytes as its format
has (30_encoding.md R91, R95, R98). -/

namespace Sys2Proof.Laws.Width

/-- The encoding of `i` is exactly its format's bytes. -/
def Statement (i : Instr) : Prop :=
  (encode i).length = i.format.bytes

theorem clear : Statement .clear := by
  simp [Statement, encode, Instr.format, Format.bytes]

theorem decodeAvp : Statement .decodeAvp := by
  simp [Statement, encode, Instr.format, Format.bytes]

theorem decodeMsg : Statement .decodeMsg := by
  simp [Statement, encode, Instr.format, Format.bytes]

theorem avp8 (code : Word) (m p : Bool) (rsv : BitVec 5) (len : U24) : Statement (.avp8 code m p rsv len) := by
  simp [Statement, encode, encodeAvpHeader, Instr.format, Format.bytes]

theorem avp12 (code : Word) (m p : Bool) (rsv : BitVec 5) (len : U24) : Statement (.avp12 code m p rsv len) := by
  simp [Statement, encode, encodeAvpHeader, Instr.format, Format.bytes]

theorem msgh (version : Byte) (len : U24) (flags : Byte) (commandCode : U24) (appId hbhId e2eId : Word) :
    Statement (.msgh version len flags commandCode appId hbhId e2eId) := by
  simp [Statement, encode, Instr.format, Format.bytes]

end Sys2Proof.Laws.Width
end

