-- ==== Sys2Proof/Laws/Step.lean ====
section
/-! SUPPORT. One lemma per kind of turn: what `step` is when that turn is first; and that the parser never looks at the
turns. -/

namespace Sys2Proof.Machine

theorem step_of_nil {s : State} (h : s.turns = []) : step s = parserTurn s := by
  simp [step, runFetched, fetch, h]

theorem step_of_parser {s : State} {ts : List Turn} (h : s.turns = .parser :: ts) :
    step s = parserTurn (s.setTurns ts) := by
  simp [step, runFetched, fetch, h]

theorem step_of_wait {s : State} {ts : List Turn} (h : s.turns = .wait :: ts) : step s = waitTurn ts s := by
  simp [step, runFetched, fetch, h]

/-- A host move that does not write `CMD`. -/
theorem step_of_host {s : State} {ts : List Turn} {m : HostMove} (h : s.turns = .host m :: ts)
    (hm : cmdWrite m (s.setTurns ts) = none) : step s = hostMove m (s.setTurns ts) := by
  simp [step, runFetched, fetch, h, fetchHost, hm]

theorem fetchCmd_of_ok {w : Word} {s : State} {i : Instr} {rest : List Byte}
    (hd : decode .cmdw (beBytes 4 w.toNat) = .ok (i, rest)) : fetchCmd w s = .run i s := by
  rw [fetchCmd, hd]
  rfl

theorem fetchCmd_of_error {w : Word} {s : State} {e : DecodeError}
    (hd : decode .cmdw (beBytes 4 w.toNat) = .error e) : fetchCmd w s = .act (.next s) := by
  rw [fetchCmd, hd]
  rfl

/-- A host write to `CMD` of a word that decodes. -/
theorem step_of_cmdWrite {s : State} {ts : List Turn} {m : HostMove} {w : Word} {i : Instr} {rest : List Byte}
    (h : s.turns = .host m :: ts) (hm : cmdWrite m (s.setTurns ts) = some w)
    (hd : decode .cmdw (beBytes 4 w.toNat) = .ok (i, rest)) : step s = exec i (s.setTurns ts) := by
  simp [step, runFetched, fetch, h, fetchHost, hm, fetchCmd_of_ok hd]

/-- A host write to `CMD` of a reserved opcode. -/
theorem step_of_cmdWrite_reserved {s : State} {ts : List Turn} {m : HostMove} {w : Word} {e : DecodeError}
    (h : s.turns = .host m :: ts) (hm : cmdWrite m (s.setTurns ts) = some w)
    (hd : decode .cmdw (beBytes 4 w.toNat) = .error e) : step s = .next (s.setTurns ts) := by
  simp [step, runFetched, fetch, h, fetchHost, hm, fetchCmd_of_error hd]

/-- A record turn that takes up a header. -/
theorem step_of_record_run {s s1 : State} {ts : List Turn} {i : Instr} (h : s.turns = .record :: ts)
    (hr : fetchRecord (s.setTurns ts) = .run i s1) : step s = exec i s1 := by
  simp [step, runFetched, fetch, h, hr]

/-- A record turn that is an ordinary parser turn. -/
theorem step_of_record_act {s : State} {ts : List Turn} {o : Out} (h : s.turns = .record :: ts)
    (hr : fetchRecord (s.setTurns ts) = .act o) : step s = o := by
  simp [step, runFetched, fetch, h, hr]

theorem parserTurn_of_busy {s : State} (h : s.regs.status = .busy) : parserTurn s = phaseStep s := by
  simp [parserTurn, h]

theorem parserTurn_of_quiet {s : State} (h : s.regs.status ≠ .busy) : parserTurn s = .next s := by
  simp [parserTurn, h]

/-- The three kinds of command word: the fixed 32-bit patterns of 30_encoding.md R98. -/
theorem decode_cmdw (w : Word) : decode .cmdw (beBytes 4 w.toNat) = (decodeCmd w).map fun i => (i, []) := by
  have h : fieldAt (beBytes 4 w.toNat) 0 4 = w.toNat := by
    have h1 := fieldAt_append_left (beBytes 4 w.toNat) []
    simp only [List.append_nil, beBytes_length] at h1
    rw [h1, beValue_beBytes_of_lt (by have := w.isLt; norm_num; omega)]
  simp [decode, h, Format.bytes, List.drop_of_length_le]

/-! Answers a phase can give, as an explicit new state, where its reads are inside the buffer. -/

theorem phAHdr_of_le {s : State} (h : s.hid.cur.toNat + 8 ≤ s.hid.lenL.toNat) :
    phAHdr s = .next (latchAvpHeader (BitVec.ofNat 32 (beRead (byteAt s) s.hid.cur.toNat 4))
      (BitVec.ofNat 8 (beRead (byteAt s) (s.hid.cur.toNat + 4) 1))
      (BitVec.ofNat 24 (beRead (byteAt s) (s.hid.cur.toNat + 5) 3)) s) := by
  simp only [phAHdr]
  rw [memRead_of_le (by omega), memRead_of_le (by omega), memRead_of_le (by omega)]
  rfl

theorem phAVid_of_le {s : State} (h : s.hid.hs = 12 → s.hid.cur.toNat + 12 ≤ s.hid.lenL.toNat) :
    phAVid s = .next (latchVendorId
      (if s.hid.hs = 12 then BitVec.ofNat 32 (beRead (byteAt s) (s.hid.cur.toNat + 8) 4) else 0) s) := by
  simp only [phAVid]
  split
  · rename_i h12
    rw [memRead_of_le (by have := h h12; omega)]
    rfl
  · rfl

theorem phMLen_of_le {s : State} (h : s.hid.base.toNat + 20 ≤ s.hid.lenL.toNat) :
    phMLen s = .next (latchMsgLen (BitVec.ofNat 8 (beRead (byteAt s) s.hid.base.toNat 1))
      (BitVec.ofNat 24 (beRead (byteAt s) (s.hid.base.toNat + 1) 3)) s) := by
  simp only [phMLen]
  rw [memRead_of_le (by omega), memRead_of_le (by omega)]
  rfl

theorem phMHdr_of_le {s : State} (h : s.hid.base.toNat + 20 ≤ s.hid.lenL.toNat) :
    phMHdr s = .next (latchMsgHeader (BitVec.ofNat 8 (beRead (byteAt s) (s.hid.base.toNat + 4) 1))
      (BitVec.ofNat 24 (beRead (byteAt s) (s.hid.base.toNat + 5) 3))
      (BitVec.ofNat 32 (beRead (byteAt s) (s.hid.base.toNat + 8) 4))
      (BitVec.ofNat 32 (beRead (byteAt s) (s.hid.base.toNat + 12) 4))
      (BitVec.ofNat 32 (beRead (byteAt s) (s.hid.base.toNat + 16) 4)) s) := by
  simp only [phMHdr]
  rw [memRead_of_le (by omega), memRead_of_le (by omega), memRead_of_le (by omega), memRead_of_le (by omega),
    memRead_of_le (by omega)]
  rfl

/-! What each phase can answer (44_fsm.md R246): the hidden registers change and nothing else, but for the table in
`M_APPEND` and the registers in `COMMIT` and `FAIL`. -/

theorem phAAvail_eq (s : State) :
    phAAvail s = s.setHid
      (if s.hid.lenL.toNat - s.hid.cur.toNat < 8 then
        { s.hid with avail := bytesLeft s.hid.lenL s.hid.cur, ecause := Cause.avpHdrShort.code, eat := s.hid.cur,
                     ph := .fail }
      else { s.hid with avail := bytesLeft s.hid.lenL s.hid.cur, ph := .aHdr }) := by
  simp only [phAAvail, raiseStructural, State.setHid_hid, State.setHid_setHid, bytesLeft_toNat]
  split <;> rfl

theorem phACheck_eq (s : State) :
    phACheck s = s.setHid
      (if s.hid.alen.toNat < headerSize s.hid.sAvp.flags then
        { s.hid with hs := BitVec.ofNat 4 (headerSize s.hid.sAvp.flags), ecause := Cause.avpLenLtHdr.code,
                     eat := s.hid.cur, ph := .fail }
      else if s.hid.avail.toNat < s.hid.alen.toNat then
        { s.hid with hs := BitVec.ofNat 4 (headerSize s.hid.sAvp.flags), ecause := Cause.avpLenGtAvail.code,
                     eat := s.hid.cur, ph := .fail }
      else { s.hid with hs := BitVec.ofNat 4 (headerSize s.hid.sAvp.flags), ph := .aVid }) := by
  simp only [phACheck, raiseStructural, State.setHid_hid, State.setHid_setHid, headerSize_toNat]
  by_cases h1 : s.hid.alen.toNat < headerSize s.hid.sAvp.flags
  · simp only [h1, if_true]
  · by_cases h2 : s.hid.avail.toNat < s.hid.alen.toNat
    · simp only [h1, h2, if_true, if_false]
    · simp only [h1, h2, if_false]

theorem phMAvail_eq (s : State) :
    phMAvail s = s.setHid
      (if s.hid.lenL.toNat - s.hid.base.toNat < 20 then
        { s.hid with avail := bytesLeft s.hid.lenL s.hid.base, ecause := Cause.msgHdrShort.code, eat := s.hid.base,
                     ph := .fail }
      else { s.hid with avail := bytesLeft s.hid.lenL s.hid.base, ph := .mLen }) := by
  simp only [phMAvail, raiseStructural, State.setHid_hid, State.setHid_setHid, bytesLeft_toNat]
  split <;> rfl

theorem phMCheck_eq (s : State) :
    phMCheck s = s.setHid
      (if s.hid.mlen.toNat < 20 then
        { s.hid with ecause := Cause.msgLenLtHdr.code, eat := s.hid.base, ph := .fail }
      else if s.hid.avail.toNat < s.hid.mlen.toNat then
        { s.hid with ecause := Cause.msgLenGtAvail.code, eat := s.hid.base, ph := .fail }
      else { s.hid with ph := .mHdr }) := by
  simp only [phMCheck, raiseStructural]
  split
  · rfl
  · split <;> rfl

theorem phMLoop_eq (s : State) :
    phMLoop s = s.setHid { s.hid with
      ph := if s.hid.cur.toNat - s.hid.base.toNat < s.hid.mlen.toNat then .aAvail else .commit } := by
  simp only [phMLoop]
  split <;> rfl

theorem phMAppend_of_lt {s : State} (h : s.hid.n.toNat < Config.avptCap s.bufCap) :
    phMAppend s = .next ((s.setAvpt (sparseSet s.avpt s.hid.n.toNat s.hid.sAvp)).setHid
      { s.hid with n := s.hid.n + 1, ph := .mLoop }) := by
  simp [phMAppend, h]

/-- The parser never looks at the turns. -/
theorem phaseStep_setTurns (s : State) (ts : List Turn) :
    phaseStep (s.setTurns ts) = andThen (phaseStep s) fun t => .next (t.setTurns ts) := by
  have hr : ∀ a n, memRead (s.setTurns ts) a n = memRead s a n := fun _ _ => rfl
  simp only [phaseStep, State.setTurns_hid]
  cases s.hid.ph
  case aAvail => simp only [phAAvail_eq, State.setTurns_hid]; rfl
  case aHdr =>
    simp only [phAHdr, State.setTurns_hid, hr]
    cases memRead s s.hid.cur.toNat 4 <;> cases memRead s (s.hid.cur.toNat + 4) 1 <;>
      cases memRead s (s.hid.cur.toNat + 5) 3 <;> rfl
  case aCheck => simp only [phACheck_eq, State.setTurns_hid]; rfl
  case aVid =>
    simp only [phAVid, State.setTurns_hid, hr]
    cases memRead s (s.hid.cur.toNat + 8) 4 <;> split <;> rfl
  case aAdv => rfl
  case mAvail => simp only [phMAvail_eq, State.setTurns_hid]; rfl
  case mLen =>
    simp only [phMLen, State.setTurns_hid, hr]
    cases memRead s s.hid.base.toNat 1 <;> cases memRead s (s.hid.base.toNat + 1) 3 <;> rfl
  case mCheck => simp only [phMCheck_eq, State.setTurns_hid]; rfl
  case mHdr =>
    simp only [phMHdr, State.setTurns_hid, hr]
    cases memRead s (s.hid.base.toNat + 4) 1 <;> cases memRead s (s.hid.base.toNat + 5) 3 <;>
      cases memRead s (s.hid.base.toNat + 8) 4 <;> cases memRead s (s.hid.base.toNat + 12) 4 <;>
      cases memRead s (s.hid.base.toNat + 16) 4 <;> rfl
  case mLoop => simp only [phMLoop_eq, State.setTurns_hid]; rfl
  case mAppend =>
    simp only [phMAppend, State.setTurns_hid, State.setTurns_bufCap, State.setTurns_avpt]
    by_cases h : s.hid.n.toNat < Config.avptCap s.bufCap
    · simp only [h, if_true]; rfl
    · simp only [h, if_false]; rfl
  case commit =>
    simp only [phCommit, State.setTurns_hid, andThen_next]
    cases s.hid.top <;> rfl
  case fail => rfl

/-! Frames: what no parser step and no instruction touches. -/

/-- `t` is `s` but for registers, table, hidden registers and the line `done`: what the block may change of itself. -/
abbrev BlockFrame (s t : State) : Prop :=
  t.buf = s.buf ∧ t.bufCap = s.bufCap ∧ t.turns = s.turns ∧ t.rdata = s.rdata ∧ t.epoch = s.epoch ∧ t.fresh = s.fresh ∧
    t.regs.bufLen = s.regs.bufLen ∧ t.regs.offset = s.regs.offset

theorem BlockFrame.refl (s : State) : BlockFrame s s := ⟨rfl, rfl, rfl, rfl, rfl, rfl, rfl, rfl⟩

theorem BlockFrame.trans {s t u : State} (h : BlockFrame s t) (h' : BlockFrame t u) : BlockFrame s u :=
  ⟨h'.1.trans h.1, h'.2.1.trans h.2.1, h'.2.2.1.trans h.2.2.1, h'.2.2.2.1.trans h.2.2.2.1,
    h'.2.2.2.2.1.trans h.2.2.2.2.1, h'.2.2.2.2.2.1.trans h.2.2.2.2.2.1, h'.2.2.2.2.2.2.1.trans h.2.2.2.2.2.2.1,
    h'.2.2.2.2.2.2.2.trans h.2.2.2.2.2.2.2⟩

/-- A `MemRead` that led on was inside the buffer. -/
theorem withRead_eq_next {o : Option Nat} {f : Nat → Out} {t : State} (h : withRead o f = .next t) :
    ∃ v, o = some v ∧ f v = .next t := by
  cases o with
  | none => simp at h
  | some v => exact ⟨v, rfl, h⟩

theorem phaseStep_frame {s t : State} (h : phaseStep s = .next t) : BlockFrame s t := by
  unfold phaseStep at h
  cases hp : s.hid.ph <;> rw [hp] at h <;> dsimp only at h
  case aAvail => rw [phAAvail_eq] at h; cases h; exact .refl s
  case aHdr =>
    obtain ⟨_, _, h⟩ := withRead_eq_next h
    obtain ⟨_, _, h⟩ := withRead_eq_next h
    obtain ⟨_, _, h⟩ := withRead_eq_next h
    cases h; exact .refl s
  case aCheck => rw [phACheck_eq] at h; cases h; exact .refl s
  case aVid =>
    unfold phAVid at h
    split at h
    · obtain ⟨_, _, h⟩ := withRead_eq_next h
      cases h; exact .refl s
    · cases h; exact .refl s
  case aAdv => cases h; exact .refl s
  case mAvail => rw [phMAvail_eq] at h; cases h; exact .refl s
  case mLen =>
    obtain ⟨_, _, h⟩ := withRead_eq_next h
    obtain ⟨_, _, h⟩ := withRead_eq_next h
    cases h; exact .refl s
  case mCheck => rw [phMCheck_eq] at h; cases h; exact .refl s
  case mHdr =>
    obtain ⟨_, _, h⟩ := withRead_eq_next h
    obtain ⟨_, _, h⟩ := withRead_eq_next h
    obtain ⟨_, _, h⟩ := withRead_eq_next h
    obtain ⟨_, _, h⟩ := withRead_eq_next h
    obtain ⟨_, _, h⟩ := withRead_eq_next h
    cases h; exact .refl s
  case mLoop => rw [phMLoop_eq] at h; cases h; exact .refl s
  case mAppend =>
    unfold phMAppend at h
    split at h
    · cases h; exact .refl s
    · cases h
  case commit =>
    cases h
    unfold phCommit
    cases s.hid.top <;> exact .refl s
  case fail => cases h; exact .refl s

theorem parserTurn_frame {s t : State} (h : parserTurn s = .next t) : BlockFrame s t := by
  unfold parserTurn at h
  split at h
  · exact phaseStep_frame h
  · cases h; exact .refl s

theorem accept_frame {top : Top} {w : BitVec 2} {s t : State} (h : accept top w s = .next t) : BlockFrame s t := by
  rcases accept_cases top w s with ⟨_, e⟩ | ⟨_, _, e⟩ | ⟨_, _, e⟩ <;> rw [e] at h <;> cases h <;> exact .refl s

theorem phAAvail_frame (s : State) : BlockFrame s (phAAvail s) := by rw [phAAvail_eq]; exact .refl s
theorem phACheck_frame (s : State) : BlockFrame s (phACheck s) := by rw [phACheck_eq]; exact .refl s
theorem phMAvail_frame (s : State) : BlockFrame s (phMAvail s) := by rw [phMAvail_eq]; exact .refl s
theorem phMCheck_frame (s : State) : BlockFrame s (phMCheck s) := by rw [phMCheck_eq]; exact .refl s

theorem unlessFail_frame {f : State → Out} {s t : State} (hf : ∀ u, f s = .next u → BlockFrame s u)
    (h : unlessFail f s = .next t) : BlockFrame s t := by
  unfold unlessFail at h
  split at h
  · cases h; exact .refl s
  · exact hf t h

theorem phAVid_frame {s t : State} (h : phAVid s = .next t) : BlockFrame s t := by
  unfold phAVid at h
  split at h
  · obtain ⟨_, _, h⟩ := withRead_eq_next h
    cases h; exact .refl s
  · cases h; exact .refl s

theorem avpRecord_frame {code : Word} {flags : Byte} {len : U24} {s t : State}
    (h : avpRecord code flags len s = .next t) : BlockFrame s t := by
  refine (phAAvail_frame s).trans (unlessFail_frame (fun u hu => ?_) h)
  refine (phACheck_frame (latchAvpHeader code flags len (phAAvail s))).trans (unlessFail_frame (fun v hv => ?_) hu)
  obtain ⟨w, hw, e⟩ := andThen_eq_next hv
  cases e
  exact (phAVid_frame hw).trans (BlockFrame.refl w)

theorem execMsgh_frame {version : Byte} {len : U24} {flags : Byte} {cc : U24} {app hbh e2e : Word} {s t : State}
    (h : execMsgh version len flags cc app hbh e2e s = .next t) : BlockFrame s t := by
  refine (phMAvail_frame s).trans (unlessFail_frame (fun u hu => ?_) h)
  refine (phMCheck_frame (latchMsgLen version len (phMAvail s))).trans (unlessFail_frame (fun v hv => ?_) hu)
  cases hv
  exact .refl _

/-- No instruction touches the buffer, the operand registers, the capacity or the host's side. -/
theorem exec_frame {i : Instr} {s t : State} (h : exec i s = .next t) : BlockFrame s t := by
  cases i with
  | clear =>
    rcases execClear_cases s with ⟨_, e⟩ | ⟨_, e⟩ <;> simp only [exec] at h <;> rw [e] at h <;> cases h <;> exact .refl s
  | decodeAvp => exact accept_frame h
  | decodeMsg => exact accept_frame h
  | avp8 code m p rsv len => exact avpRecord_frame h
  | avp12 code m p rsv len => exact avpRecord_frame h
  | msgh v len f cc a b c => exact execMsgh_frame h

/-! What a turn can be (20_memory.md R70). -/

theorem runDecoded_cases (s : State) (o : Out) (d : Except DecodeError (Instr × List Byte)) :
    (∃ i rest, d = .ok (i, rest) ∧ runDecoded s o d = .run i s) ∨ runDecoded s o d = .act o := by
  cases d with
  | error e => exact .inr rfl
  | ok x => exact .inl ⟨x.1, x.2, rfl, rfl⟩

/-- A record turn is an instruction, run in the state the FSM takes it up in, or an ordinary parser turn. -/
theorem fetchRecord_cases (s : State) :
    (∃ i rest, s.regs.status = .busy ∧ s.hid.ph = .aAvail ∧ s.hid.cur.toNat + 8 ≤ s.hid.lenL.toNat ∧
      decode .avp (slice (byteAt s) s.hid.cur.toNat 8) = .ok (i, rest) ∧ fetchRecord s = .run i s) ∨
    (∃ i rest, s.regs.status = .busy ∧ s.hid.ph = .mAvail ∧ s.hid.base.toNat + 20 ≤ s.hid.lenL.toNat ∧
      decode .msgh (slice (byteAt s) s.hid.base.toNat 20) = .ok (i, rest) ∧ fetchRecord s = .run i s) ∨
    fetchRecord s = .act (parserTurn s) := by
  unfold fetchRecord parserTurn
  by_cases hb : s.regs.status = .busy
  · rw [if_pos hb, if_pos hb]
    by_cases ha : s.hid.ph = .aAvail
    · rw [if_pos ha]
      unfold fetchHeader
      split
      · rename_i hl
        rcases runDecoded_cases s (phaseStep s) (decode .avp (slice (byteAt s) s.hid.cur.toNat Format.avp.bytes)) with
          ⟨i, rest, hd, e⟩ | e
        · exact .inl ⟨i, rest, hb, ha, hl, hd, e⟩
        · exact .inr (.inr e)
      · exact .inr (.inr rfl)
    · rw [if_neg ha]
      by_cases hm : s.hid.ph = .mAvail
      · rw [if_pos hm]
        unfold fetchHeader
        split
        · rename_i hl
          rcases runDecoded_cases s (phaseStep s)
            (decode .msgh (slice (byteAt s) s.hid.base.toNat Format.msgh.bytes)) with ⟨i, rest, hd, e⟩ | e
          · exact .inr (.inl ⟨i, rest, hb, hm, hl, hd, e⟩)
          · exact .inr (.inr e)
        · exact .inr (.inr rfl)
      · rw [if_neg hm]
        exact .inr (.inr rfl)
  · rw [if_neg hb, if_neg hb]
    exact .inr (.inr rfl)

/-- Everything a step can be: a parser turn, an instruction, a host move, or the end of a `WAIT`. The state it acts on
differs from `s` in the turns and, for a `WAIT`, in what the host last read. -/
theorem step_cases (s : State) :
    (∃ ts v, step s = parserTurn ((s.setRdata v).setTurns ts)) ∨
    (∃ ts i, step s = exec i (s.setTurns ts) ∧ (i.format = .cmdw ∨ s.regs.status = .busy)) ∨
    (∃ m ts, s.turns = .host m :: ts ∧ step s = hostMove m (s.setTurns ts)) ∨
    (∃ ts v, step s = .next ((s.setRdata v).setTurns ts)) := by
  cases ht : s.turns with
  | nil => exact .inl ⟨s.turns, s.rdata, step_of_nil ht⟩
  | cons x ts =>
    cases x with
    | parser => exact .inl ⟨ts, s.rdata, step_of_parser ht⟩
    | wait =>
      rw [step_of_wait ht]
      unfold waitTurn
      dsimp only
      split
      · exact .inr (.inr (.inr ⟨ts, _, rfl⟩))
      · exact .inl ⟨s.turns, regRead s.regs RegName.status.off, rfl⟩
    | record =>
      rcases fetchRecord_cases (s.setTurns ts) with ⟨i, r, hb, _, _, hd, e⟩ | ⟨i, r, hb, _, _, hd, e⟩ | e
      · exact .inr (.inl ⟨ts, i, step_of_record_run ht e, .inr hb⟩)
      · exact .inr (.inl ⟨ts, i, step_of_record_run ht e, .inr hb⟩)
      · exact .inl ⟨ts, s.rdata, step_of_record_act ht e⟩
    | host m =>
      cases hm : cmdWrite m (s.setTurns ts) with
      | none => exact .inr (.inr (.inl ⟨m, ts, rfl, step_of_host ht hm⟩))
      | some w =>
        have hd := decode_cmdw w
        unfold decodeCmd at hd
        split at hd
        · exact .inr (.inl ⟨ts, _, step_of_cmdWrite ht hm hd, .inl rfl⟩)
        · split at hd
          · exact .inr (.inl ⟨ts, _, step_of_cmdWrite ht hm hd, .inl rfl⟩)
          · split at hd
            · exact .inr (.inl ⟨ts, _, step_of_cmdWrite ht hm hd, .inl rfl⟩)
            · exact .inr (.inr (.inr ⟨ts, s.rdata, step_of_cmdWrite_reserved ht hm hd⟩))

end Sys2Proof.Machine
end

