-- ==== Sys2Proof/Laws/Records.lean ====
section
/-! SUPPORT. Everything the two record meanings can answer: an explicit state in each case. Neither ever stops. -/

namespace Sys2Proof.Machine

theorem headerSize_code (f : Byte) : BitVec.ofNat 4 (headerSize f) = 12 ↔ hasVendorId f = true := by
  rcases headerSize_cases f with ⟨h, e⟩ | ⟨h, e⟩ <;> simp [h, e]

/-- The state of the AVP engine in `A_ADV`, the vendor id read (44_fsm.md R236). -/
abbrev beforeAdv (code : Word) (flags : Byte) (len : U24) (v : Word) (s : State) : State :=
  s.setHid
    { s.hid with
      avail := bytesLeft s.hid.lenL s.hid.cur, hs := BitVec.ofNat 4 (headerSize flags), alen := len,
      sAvp := { s.hid.sAvp with code := code, flags := flags, len := len, vendorId := v }, ph := .aAdv }

/-- A record whose header is short, `A_AVAIL`'s error (41_decode_avp.md R142). -/
theorem avpRecord_short {code : Word} {flags : Byte} {len : U24} {s : State}
    (h : s.hid.lenL.toNat < s.hid.cur.toNat + 8) :
    avpRecord code flags len s = .next (s.setHid { s.hid with
      avail := bytesLeft s.hid.lenL s.hid.cur, ecause := Cause.avpHdrShort.code, eat := s.hid.cur, ph := .fail }) := by
  have e := phAAvail_eq s
  rw [if_pos (by omega)] at e
  unfold avpRecord unlessFail
  rw [e, if_pos (by rfl)]

/-- A record whose declared length fails one of `A_CHECK`'s tests (41_decode_avp.md R145). -/
theorem avpRecord_badLength {code : Word} {flags : Byte} {len : U24} {s : State}
    (h : s.hid.cur.toNat + 8 ≤ s.hid.lenL.toNat)
    (hl : len.toNat < headerSize flags ∨ s.hid.lenL.toNat < s.hid.cur.toNat + len.toNat) :
    avpRecord code flags len s = .next (s.setHid { s.hid with
      avail := bytesLeft s.hid.lenL s.hid.cur, hs := BitVec.ofNat 4 (headerSize flags), alen := len,
      sAvp := { s.hid.sAvp with code := code, flags := flags, len := len },
      ecause := (if len.toNat < headerSize flags then Cause.avpLenLtHdr else Cause.avpLenGtAvail).code,
      eat := s.hid.cur, ph := .fail }) := by
  have e := phAAvail_eq s
  rw [if_neg (by omega)] at e
  unfold avpRecord unlessFail
  rw [e, if_neg (by simp)]
  beta_reduce
  rw [phACheck_eq]
  simp only [latchAvpHeader, State.setHid_hid, State.setHid_setHid, bytesLeft_toNat]
  by_cases h1 : len.toNat < headerSize flags
  · simp only [h1, if_true]
  · have h2 : s.hid.lenL.toNat - s.hid.cur.toNat < len.toNat := by omega
    simp only [h1, h2, if_true, if_false]

/-- A record that is decoded (41_decode_avp.md R152, R153). -/
theorem avpRecord_ok {code : Word} {flags : Byte} {len : U24} {s : State} (hl : headerSize flags ≤ len.toNat)
    (ha : s.hid.cur.toNat + len.toNat ≤ s.hid.lenL.toNat) :
    avpRecord code flags len s = .next (phAAdv (beforeAdv code flags len
      (if hasVendorId flags then BitVec.ofNat 32 (beRead (byteAt s) (s.hid.cur.toNat + 8) 4) else 0) s)) := by
  have hb := headerSize_bounds flags
  have e := phAAvail_eq s
  rw [if_neg (by omega)] at e
  unfold avpRecord unlessFail
  rw [e, if_neg (by simp)]
  beta_reduce
  rw [phACheck_eq]
  simp only [latchAvpHeader, State.setHid_hid, State.setHid_setHid, bytesLeft_toNat]
  have h1 : ¬ len.toNat < headerSize flags := by omega
  have h2 : ¬ s.hid.lenL.toNat - s.hid.cur.toNat < len.toNat := by omega
  simp only [h1, h2, if_false]
  rw [if_neg (by simp)]
  unfold phAVid
  by_cases h : hasVendorId flags = true
  · have h12 : headerSize flags = 12 := by simp [headerSize, h]
    rw [if_pos (by exact (headerSize_code flags).2 h), if_pos h,
      memRead_of_le (by show s.hid.cur.toNat + 8 + 4 ≤ s.hid.lenL.toNat; omega)]
    rfl
  · rw [if_neg (by exact fun h' => h ((headerSize_code flags).1 h')), if_neg h]
    rfl

/-- A Message whose header is short (42_decode_msg.md R171). -/
theorem execMsgh_short {version : Byte} {len : U24} {flags : Byte} {cc : U24} {app hbh e2e : Word} {s : State}
    (h : s.hid.lenL.toNat < s.hid.base.toNat + 20) :
    execMsgh version len flags cc app hbh e2e s = .next (s.setHid { s.hid with
      avail := bytesLeft s.hid.lenL s.hid.base, ecause := Cause.msgHdrShort.code, eat := s.hid.base,
      ph := .fail }) := by
  have e := phMAvail_eq s
  rw [if_pos (by omega)] at e
  unfold execMsgh unlessFail
  rw [e, if_pos (by rfl)]

/-- A Message whose declared length fails one of `M_CHECK`'s tests (42_decode_msg.md R172). -/
theorem execMsgh_badLength {version : Byte} {len : U24} {flags : Byte} {cc : U24} {app hbh e2e : Word} {s : State}
    (h : s.hid.base.toNat + 20 ≤ s.hid.lenL.toNat)
    (hl : len.toNat < 20 ∨ s.hid.lenL.toNat < s.hid.base.toNat + len.toNat) :
    execMsgh version len flags cc app hbh e2e s = .next (s.setHid { s.hid with
      avail := bytesLeft s.hid.lenL s.hid.base, mlen := len,
      sMsg := { s.hid.sMsg with version := version, length := len },
      ecause := (if len.toNat < 20 then Cause.msgLenLtHdr else Cause.msgLenGtAvail).code,
      eat := s.hid.base, ph := .fail }) := by
  have e := phMAvail_eq s
  rw [if_neg (by omega)] at e
  unfold execMsgh unlessFail
  rw [e, if_neg (by simp)]
  beta_reduce
  rw [phMCheck_eq]
  simp only [latchMsgLen, State.setHid_hid, State.setHid_setHid, bytesLeft_toNat]
  by_cases h1 : len.toNat < 20
  · simp only [h1, if_true]
  · have h2 : s.hid.lenL.toNat - s.hid.base.toNat < len.toNat := by omega
    simp only [h1, h2, if_true, if_false]

/-- A Message header that is decoded (42_decode_msg.md R173, R174). -/
theorem execMsgh_ok {version : Byte} {len : U24} {flags : Byte} {cc : U24} {app hbh e2e : Word} {s : State}
    (h20 : 20 ≤ len.toNat) (hl : s.hid.base.toNat + len.toNat ≤ s.hid.lenL.toNat) :
    execMsgh version len flags cc app hbh e2e s = .next (s.setHid { s.hid with
      avail := bytesLeft s.hid.lenL s.hid.base, mlen := len,
      sMsg := { version := version, length := len, flags := flags, commandCode := cc, appId := app, hbhId := hbh,
                e2eId := e2e },
      cur := BitVec.ofNat 32 (s.hid.base.toNat + 20), ph := .mLoop }) := by
  have e := phMAvail_eq s
  rw [if_neg (by omega)] at e
  unfold execMsgh unlessFail
  rw [e, if_neg (by simp)]
  beta_reduce
  rw [phMCheck_eq]
  simp only [latchMsgLen, State.setHid_hid, State.setHid_setHid, bytesLeft_toNat]
  have h1 : ¬ len.toNat < 20 := by omega
  have h2 : ¬ s.hid.lenL.toNat - s.hid.base.toNat < len.toNat := by omega
  simp only [h1, h2, if_false]
  rfl

end Sys2Proof.Machine
end

