-- ==== Sys2Proof/Laws/Runs.lean ====
section
/-! SUPPORT. Runs of steps, and the meaning of a record in terms of the bytes its header was decoded from. -/

namespace Sys2Proof.Machine

theorem runSteps_add (a b : Nat) (s : State) : runSteps (a + b) s = andThen (runSteps b s) (runSteps a) := by
  induction b generalizing s with
  | zero => rfl
  | succ b ih =>
    show andThen (step s) (runSteps (a + b)) = andThen (andThen (step s) (runSteps b)) (runSteps a)
    cases step s with
    | next t => exact ih t
    | fault r => rfl
    | refused r => rfl

/-- With no turn pending a BUSY block runs its phases. -/
theorem runSteps_succ_of_busy {s : State} {k : Nat} (hb : s.regs.status = .busy) (ht : s.turns = []) :
    runSteps (k + 1) s = andThen (phaseStep s) (runSteps k) := by
  simp only [runSteps]
  rw [step_of_nil ht, parserTurn_of_busy hb]

/-- With no turn pending a block that is not BUSY stays as it is. -/
theorem runSteps_of_quiet {s : State} (hb : s.regs.status ≠ .busy) (ht : s.turns = []) (k : Nat) :
    runSteps k s = .next s := by
  induction k with
  | zero => rfl
  | succ k ih =>
    simp only [runSteps]
    rw [step_of_nil ht, parserTurn_of_quiet hb, andThen_next, ih]

/-- A run with no turn pending keeps the frame of its steps. -/
theorem runSteps_frame {k : Nat} {s t : State} (ht : s.turns = []) (h : runSteps k s = .next t) : BlockFrame s t := by
  induction k generalizing s with
  | zero => cases h; exact .refl _
  | succ k ih =>
    simp only [runSteps] at h
    rw [step_of_nil ht] at h
    obtain ⟨u, h1, h2⟩ := andThen_eq_next h
    have hf := parserTurn_frame h1
    exact hf.trans (ih (hf.2.2.1.trans ht) h2)

/-- A run from a reachable state ends in one. -/
theorem reachable_runSteps {k : Nat} {s t : State} (hs : Reachable s) (h : runSteps k s = .next t) : Reachable t := by
  induction k generalizing s with
  | zero => cases h; exact hs
  | succ k ih =>
    obtain ⟨u, h1, h2⟩ := andThen_eq_next h
    exact ih (.step _ _ hs h1) h2

/-- The invariant says nothing of the turns. -/
theorem inv_setTurns {s : State} (ts : List Turn) (h : Inv s) : Inv (s.setTurns ts) :=
  ⟨h.cap, h.bufWf, h.bufBelow, h.avptWf, h.avptBelow, h.done, h.regs, h.busy⟩

/-- The invariant says nothing of what the host last read. -/
theorem inv_setRdata {s : State} (v : Word) (h : Inv s) : Inv (s.setRdata v) :=
  ⟨h.cap, h.bufWf, h.bufBelow, h.avptWf, h.avptBelow, h.done, h.regs, h.busy⟩

theorem flagsByte_fields (v m p : Bool) (r : BitVec 5) :
    (flagsByte v m p r).getLsbD 6 = m ∧ (flagsByte v m p r).getLsbD 5 = p ∧ (flagsByte v m p r).setWidth 5 = r := by
  cases v <;> cases m <;> cases p <;> revert r <;> decide

theorem flagsByte_eta (f : Byte) : flagsByte (hasVendorId f) (f.getLsbD 6) (f.getLsbD 5) (f.setWidth 5) = f := by
  revert f
  decide

/-- The instruction decoded from an AVP header means the AVP engine on that header's fields, whichever form it is. -/
theorem exec_of_avpHeader {s : State} {a : Nat} {i : Instr} {rest : List Byte}
    (h : decode .avp (slice (byteAt s) a 8) = .ok (i, rest)) (u : State) :
    exec i u = avpRecord (BitVec.ofNat 32 (beRead (byteAt s) a 4)) (BitVec.ofNat 8 (beRead (byteAt s) (a + 4) 1))
      (BitVec.ofNat 24 (beRead (byteAt s) (a + 5) 3)) u := by
  unfold decode at h
  rw [if_neg (by simp [Format.bytes])] at h
  simp only [Except.ok.injEq, Prod.mk.injEq] at h
  obtain ⟨rfl, -⟩ := h
  unfold decodeAvpHeader avpInstr
  rw [fieldAt_slice _ _ _ _ _ (by decide), fieldAt_slice _ _ _ _ _ (by decide), fieldAt_slice _ _ _ _ _ (by decide)]
  have e := flagsByte_eta (BitVec.ofNat 8 (beRead (byteAt s) (a + 4) 1))
  cases hv : hasVendorId (BitVec.ofNat 8 (beRead (byteAt s) (a + 4) 1))
  · rw [hv] at e
    rw [if_neg (by simp)]
    show avpRecord _ _ _ u = _
    rw [e, Nat.add_zero]
  · rw [hv] at e
    rw [if_pos rfl]
    show avpRecord _ _ _ u = _
    rw [e, Nat.add_zero]

/-- The instruction decoded from a Message header means the Message engine on that header's fields. -/
theorem exec_of_msgHeader {s : State} {a : Nat} {i : Instr} {rest : List Byte}
    (h : decode .msgh (slice (byteAt s) a 20) = .ok (i, rest)) (u : State) :
    exec i u = execMsgh (BitVec.ofNat 8 (beRead (byteAt s) a 1)) (BitVec.ofNat 24 (beRead (byteAt s) (a + 1) 3))
      (BitVec.ofNat 8 (beRead (byteAt s) (a + 4) 1)) (BitVec.ofNat 24 (beRead (byteAt s) (a + 5) 3))
      (BitVec.ofNat 32 (beRead (byteAt s) (a + 8) 4)) (BitVec.ofNat 32 (beRead (byteAt s) (a + 12) 4))
      (BitVec.ofNat 32 (beRead (byteAt s) (a + 16) 4)) u := by
  unfold decode at h
  rw [if_neg (by simp [Format.bytes])] at h
  simp only [Except.ok.injEq, Prod.mk.injEq] at h
  obtain ⟨rfl, -⟩ := h
  unfold decodeMsgHeader
  rw [fieldAt_slice _ _ _ _ _ (by decide), fieldAt_slice _ _ _ _ _ (by decide), fieldAt_slice _ _ _ _ _ (by decide),
    fieldAt_slice _ _ _ _ _ (by decide), fieldAt_slice _ _ _ _ _ (by decide), fieldAt_slice _ _ _ _ _ (by decide),
    fieldAt_slice _ _ _ _ _ (by decide), Nat.add_zero]
  rfl

end Sys2Proof.Machine
end

