-- ==== Sys2Proof/Tests/Slice0.lean ====
section
/-! SUPPORT. The model's own tests: ill-formed terms refused by the WellFormed check; words written out bit by bit from
30_encoding.md and what they decode to; one step per instruction on a small state, the expected fields from
95_test_vectors.md; and, for each statement with hypotheses, concrete states that meet them. -/

open Sys2Proof Sys2Proof.Machine

namespace Sys2Proof.Tests

/-! Ill-formed terms (30_encoding.md R103). -/

theorem test_avp8_len7_ill_formed : (Instr.avp8 1 false true 0 7).wellFormed = false := by decide
theorem test_avp8_len8_well_formed : (Instr.avp8 1 false true 0 8).wellFormed = true := by decide
theorem test_avp12_len11_ill_formed : (Instr.avp12 1 false true 0 11).wellFormed = false := by decide
theorem test_avp12_len12_well_formed : (Instr.avp12 1 false true 0 12).wellFormed = true := by decide
theorem test_msgh_len19_ill_formed : (Instr.msgh 1 19 0x80 257 0 0 0).wellFormed = false := by decide
theorem test_msgh_len20_well_formed : (Instr.msgh 1 20 0x80 257 0 0 0).wellFormed = true := by decide
theorem test_commands_well_formed :
    Instr.clear.wellFormed = true ∧ Instr.decodeAvp.wellFormed = true ∧ Instr.decodeMsg.wellFormed = true := by decide

/-! Words written out from the encodings, each field in its own place. -/

/-- 30_encoding.md R98. -/
theorem test_decode_commands :
    decode .cmdw [0, 0, 0, 0] = .ok (.clear, []) ∧ decode .cmdw [0, 0, 0, 1] = .ok (.decodeAvp, []) ∧
    decode .cmdw [0, 0, 0, 2] = .ok (.decodeMsg, []) ∧
    decode .cmdw [0, 0, 0, 3] = .error (.reservedOpcode 3) ∧
    decode .cmdw [0x80, 0, 0, 1] = .error (.reservedOpcode 0x80000001) := by decide

/-- R91, R92: code 0x11223344, flags 0b0_1_0_10101, length 0x0A0B0C; the byte after the header is handed back. -/
theorem test_decode_avp8 :
    decode .avp [0x11, 0x22, 0x33, 0x44, 0b01010101, 0x0A, 0x0B, 0x0C, 0xFF] =
      .ok (.avp8 0x11223344 true false 0b10101 0x0A0B0C, [0xFF]) := by decide

/-- R91, R92: code 0x11223344, flags 0b1_0_1_01010, length 0x0A0B0C. -/
theorem test_decode_avp12 :
    decode .avp [0x11, 0x22, 0x33, 0x44, 0b10101010, 0x0A, 0x0B, 0x0C] =
      .ok (.avp12 0x11223344 false true 0b01010 0x0A0B0C, []) := by decide

/-- R95: version 1, length 0x020304, flags 5, command 0x060708, application 0x090A0B0C, hop-by-hop 0x0D0E0F10,
end-to-end 0x11121314. -/
theorem test_decode_msgh :
    decode .msgh [1, 2, 3, 4, 5, 6, 7, 8, 9, 10, 11, 12, 13, 14, 15, 16, 17, 18, 19, 20] =
      .ok (.msgh 1 0x020304 5 0x060708 0x090A0B0C 0x0D0E0F10 0x11121314, []) := by decide

theorem test_short_bytes_rejected :
    decode .avp [0, 0, 0, 0, 0, 0, 0] = .error (.tooShort 8 7) ∧ decode .msgh [] = .error (.tooShort 20 0) ∧
    decode .cmdw [0, 0, 1] = .error (.tooShort 4 3) := by decide

/-- The table's numbering: bit 0 is the least significant bit of the whole big-endian number (R108). -/
theorem test_table_words :
    decodeTableWord 64 0x1122334455_0A0B0C = some (.avp8 0x11223344 true false 0b10101 0x0A0B0C) ∧
    decodeTableWord 160 0x0102030405060708090A0B0C0D0E0F1011121314 =
      some (.msgh 1 0x020304 5 0x060708 0x090A0B0C 0x0D0E0F10 0x11121314) ∧
    decodeTableWord 16 0 = none := by decide

/-! Small states. -/

/-- A block of capacity 64 that is not BUSY, `bs` at address 0, `BUF_LEN` and `OFFSET` as given. -/
def loaded (bs : List Byte) (len off : Word) (turns : List Turn) : State :=
  ((State.resetWith 64 turns).setBuf (writeBytes [] 0 bs)).setRegs { Regs.reset with bufLen := len, offset := off }

/-- The descriptor of the 8-byte AVP `00000002 40 000008` at address `a` (95_test_vectors.md, the fixed part). -/
def desc8 (a : Word) : Desc :=
  { code := 2, flags := 0x40, vendorId := 0, len := 8, dataOff := a + 8, dataLen := 0 }

/-- The bytes of that AVP. -/
def bytes8 : List Byte :=
  [0, 0, 0, 2, 0x40, 0, 0, 8]

/-- The Message header `01 00001C 80 000101 00000000 11223344 55667788`: length 28. -/
def bytesMsg : List Byte :=
  [1, 0, 0, 28, 0x80, 0, 1, 1] ++ [0, 0, 0, 0, 0x11, 0x22, 0x33, 0x44, 0x55, 0x66, 0x77, 0x88]

def scalars28 : MsgScalars :=
  { version := 1, length := 28, flags := 0x80, commandCode := 257, appId := 0, hbhId := 0x11223344,
    e2eId := 0x55667788 }

/-- A BUSY DECODE_AVP over the 8-byte AVP, in phase `ph`. -/
def busyAvp (ph : Phase) (turns : List Turn) : State :=
  ((loaded bytes8 8 0 turns).setRegs { Regs.reset with cmd := 1, status := .busy, bufLen := 8 }).setHid
    { Hidden.reset with
      ph := ph, top := .avp, lenL := 8, avail := 8, hs := 8, alen := 8, sAvp := desc8 0, ecause := 1 }

/-- A BUSY DECODE_MSG over a Message of one 8-byte AVP, in phase `ph`, the cursor at `cur`. -/
def busyMsg (ph : Phase) (cur avail : Word) (turns : List Turn) : State :=
  ((loaded (bytesMsg ++ bytes8) 28 0 turns).setRegs { Regs.reset with cmd := 2, status := .busy, bufLen := 28 }).setHid
    { Hidden.reset with
      ph := ph, top := .msg, cur := cur, lenL := 28, avail := avail, mlen := 28, hs := 8, alen := 8,
      sAvp := desc8 20, sMsg := scalars28, ecause := 1 }

/-- What a step or a meaning answers, asked of one next state. -/
def holdsNext (o : Out) (p : State → Bool) : Bool :=
  match o with
  | .next s => p s
  | .fault _ => false
  | .refused _ => false

/-! One step per instruction. -/

/-- 43_host_commands.md R208. -/
theorem test_clear_from_done :
    holdsNext (step ((loaded [] 5 7 [wrTurn .cmd 0]).setRegs
      { Regs.reset with cmd := 1, status := .doneErr, bufLen := 5, offset := 7, err := ⟨1, 1⟩, errOffset := 7,
                        newOffset := 7 }))
      (fun t => decide (t.regs = { Regs.reset with bufLen := 5, offset := 7 })) = true := by decide

theorem test_clear_dropped_while_busy :
    holdsNext (step (busyAvp .aHdr [wrTurn .cmd 0])) (fun t => decide (t = busyAvp .aHdr [])) = true := by decide

/-- R206: operands latched, results cleared. -/
theorem test_decode_avp_accept :
    holdsNext (step (loaded bytes8 8 0 [wrTurn .cmd 1]))
      (fun t => decide (t.regs.status = .busy ∧ t.regs.cmd = 1 ∧ t.hid.ph = .aAvail ∧ t.hid.lenL = 8)) = true := by
  decide

theorem test_decode_msg_accept :
    holdsNext (step (loaded [] 28 4 [wrTurn .cmd 2]))
      (fun t => decide (t.regs.status = .busy ∧ t.regs.cmd = 2 ∧ t.hid.ph = .mAvail ∧ t.hid.base = 4)) = true := by
  decide

/-- AVP8 at the cursor: the header, the empty data view, the cursor past the record (95_test_vectors.md section 4). -/
theorem test_avp8_record :
    holdsNext (step (busyAvp .aAvail [.record]))
      (fun t => decide (t.hid.sAvp = desc8 0 ∧ t.hid.cur = 8 ∧ t.hid.ph = .commit)) = true := by decide

/-- AVP8 whose length byte is 7: `AVP_LEN_LT_HDR` (41_decode_avp.md R145). -/
theorem test_avp8_length_below_header :
    holdsNext (exec (.avp8 2 true false 0 7) (busyAvp .aAvail []))
      (fun t => decide (t.hid.ph = .fail ∧ t.hid.ecause = 2 ∧ t.hid.eat = 0)) = true := by decide

/-- AVP12: `0000010A C0 00000D 000028AF 01` and three bytes of padding: vendor 10415, one data byte, `NEW_OFFSET` 16. -/
theorem test_avp12_record :
    holdsNext (step ((loaded [0, 0, 1, 10, 0xC0, 0, 0, 13, 0, 0, 0x28, 0xAF, 1] 13 0 [.record]).setRegs
        { Regs.reset with cmd := 1, status := .busy, bufLen := 13 } |>.setHid { Hidden.reset with lenL := 13 }))
      (fun t => decide (t.hid.sAvp = { code := 266, flags := 0xC0, vendorId := 10415, len := 13, dataOff := 12, dataLen := 1 } ∧
        t.hid.cur = 16)) = true := by decide

/-- MSGH: the scalars, and the cursor at the first AVP. -/
theorem test_msgh_record :
    holdsNext (step (busyMsg .mAvail 0 28 [.record]))
      (fun t => decide (t.hid.sMsg = scalars28 ∧ t.hid.cur = 20 ∧ t.hid.mlen = 28 ∧ t.hid.ph = .mLoop)) = true := by
  decide

/-- MSGH whose length exceeds what remains: `MSG_LEN_GT_AVAIL` (42_decode_msg.md R172). -/
theorem test_msgh_length_beyond_buffer :
    holdsNext (exec (.msgh 1 29 0 0 0 0 0) (busyMsg .mAvail 0 28 []))
      (fun t => decide (t.hid.ph = .fail ∧ t.hid.ecause = 6 ∧ t.hid.eat = 0)) = true := by decide

/-- The host's three words, placed and run as the first step after reset. -/
theorem test_placed_words_run :
    holdsNext (step (State.reset.withFetchWord 32 1)) (fun t => decide (t.regs.status = .busy)) = true ∧
    holdsNext (step (State.reset.withFetchWord 64 0x0000000240000008))
      (fun t => decide (t.hid.sAvp = desc8 0 ∧ t.hid.ph = .commit)) = true ∧
    holdsNext (step (State.reset.withFetchWord 160 0x0100001480000101000000001122334455667788))
      (fun t => decide (t.hid.cur = 20 ∧ t.hid.ph = .mLoop)) = true := by decide

/-! Witnesses: each theorem gives, for the statement it is named after, states and operands that meet its hypotheses, a
conjunct for each clause, at a boundary value of its range where it has one. -/

theorem inv_loaded : Inv (loaded [] 64 0 []) ∧ Inv (loaded bytes8 8 0 []) ∧ Inv (loaded (bytesMsg ++ bytes8) 28 0 []) := by
  refine ⟨?_, ?_, ?_⟩ <;>
    exact ⟨by decide, by decide, by decide, by decide, by decide, by decide,
      by refine ⟨?_, ?_, ?_, ?_, ?_, ?_, ?_, ?_, ?_, ?_, ?_, ?_⟩ <;> decide,
      fun h => absurd h (by decide)⟩

/-- Every phase of DECODE_AVP up to its commit, and `FAIL`. -/
theorem inv_busyAvp :
    Inv (busyAvp .aAvail []) ∧ Inv (busyAvp .aHdr []) ∧ Inv (busyAvp .aCheck []) ∧ Inv (busyAvp .aVid []) ∧
    Inv (busyAvp .aAdv []) ∧ Inv (busyAvp .fail []) := by
  refine ⟨?_, ?_, ?_, ?_, ?_, ?_⟩ <;>
    exact ⟨by decide, by decide, by decide, by decide, by decide, by decide,
      by refine ⟨?_, ?_, ?_, ?_, ?_, ?_, ?_, ?_, ?_, ?_, ?_, ?_⟩ <;> decide,
      fun _ => by refine ⟨?_, ?_, ?_, ?_, ?_, ?_, ?_, ?_, ?_, ?_, ?_, ?_, ?_, ?_, ?_, ?_, ?_⟩ <;> decide⟩

/-- Every phase of DECODE_MSG up to the first entry. -/
theorem inv_busyMsg :
    Inv (busyMsg .mAvail 0 28 []) ∧ Inv (busyMsg .mLen 0 28 []) ∧ Inv (busyMsg .mCheck 0 28 []) ∧
    Inv (busyMsg .mHdr 0 28 []) ∧ Inv (busyMsg .mLoop 20 28 []) ∧ Inv (busyMsg .aAvail 20 8 []) ∧
    Inv (busyMsg .aAdv 20 8 []) ∧ Inv (busyMsg .mAppend 28 8 []) := by
  refine ⟨?_, ?_, ?_, ?_, ?_, ?_, ?_, ?_⟩ <;>
    exact ⟨by decide, by decide, by decide, by decide, by decide, by decide,
      by refine ⟨?_, ?_, ?_, ?_, ?_, ?_, ?_, ?_, ?_, ?_, ?_, ?_⟩ <;> decide,
      fun _ => by refine ⟨?_, ?_, ?_, ?_, ?_, ?_, ?_, ?_, ?_, ?_, ?_, ?_, ?_, ?_, ?_, ?_, ?_⟩ <;> decide⟩

/-- DECODE_MSG about to commit one AVP, and DONE_OK after it. -/
def doneMsg (turns : List Turn) : State :=
  (((busyMsg .commit 28 8 turns).setAvpt [(0, desc8 20)]).setRegs
    { Regs.reset with cmd := 2, status := .doneOk, bufLen := 28, msg := scalars28, avpCount := 1, newOffset := 28 }).setDone
    true

theorem inv_doneMsg : Inv (doneMsg []) :=
  ⟨by decide, by decide, by decide, by decide, by decide, by decide,
      by refine ⟨?_, ?_, ?_, ?_, ?_, ?_, ?_, ?_, ?_, ?_, ?_, ?_⟩ <;> decide, fun h => absurd h (by decide)⟩

/-! Encodings and the step. -/

theorem witness_EncodeOfDecodeIsTheBytes :
    decode .cmdw [0, 0, 0, 2] = .ok (.decodeMsg, []) ∧ decode .avp bytes8 = .ok (.avp8 2 true false 0 8, []) ∧
    decode .msgh bytesMsg = .ok (.msgh 1 28 0x80 257 0 0x11223344 0x55667788, []) := by decide

theorem witness_VBitPicksTheAvpForm :
    decode .avp [0, 0, 0, 2, 0x7F, 0, 0, 8] = .ok (.avp8 2 true true 31 8, []) ∧
    decode .avp [0, 0, 0, 2, 0x80, 0, 0, 12] = .ok (.avp12 2 false false 0 12, []) := by decide

theorem witness_StepRunsTheCommandWord :
    decode .cmdw (beBytes 4 (2 : Word).toNat) = .ok (.decodeMsg, []) ∧
    (loaded [] 0 0 [wrTurn .cmd 2]).turns = .host (.wrReg 4 0x00 2) :: [] ∧
    ((loaded [] 0 0 [.host (.wrRegLast 4 0x00)]).setRdata 2).turns = .host (.wrRegLast 4 0x00) :: [] ∧
    ((loaded [] 0 0 [.host (.wrRegLast 4 0x00)]).setRdata 2).rdata = 2 := by decide

/-- The header ends exactly at the end of the buffer. -/
theorem witness_StepRunsTheRecordAtTheCursor :
    (let s := busyAvp .aAvail [.record]
     s.turns = .record :: [] ∧ s.regs.status = .busy ∧ s.hid.ph = .aAvail ∧ s.hid.cur.toNat + 8 = s.hid.lenL.toNat ∧
       decode .avp (slice (byteAt s) s.hid.cur.toNat 8) = .ok (.avp8 2 true false 0 8, [])) ∧
    (let s := (busyMsg .mAvail 0 28 [.record]).setHid { (busyMsg .mAvail 0 28 []).hid with lenL := 20 }
     s.turns = .record :: [] ∧ s.regs.status = .busy ∧ s.hid.ph = .mAvail ∧
       s.hid.base.toNat + 20 = s.hid.lenL.toNat ∧
       decode .msgh (slice (byteAt s) s.hid.base.toNat 20) =
         .ok (.msgh 1 28 0x80 257 0 0x11223344 0x55667788, [])) := by decide

/-- The largest address a header can be placed at. -/
theorem witness_PlacedTableWordIsRunNext :
    decodeTableWord 32 2 = some .decodeMsg ∧
    decodeTableWord 64 0x0000000240000008 = some (.avp8 2 true false 0 8) ∧
    decodeTableWord 160 0x0100001480000101000000001122334455667788 =
      some (.msgh 1 20 0x80 257 0 0x11223344 0x55667788) ∧
    (let s := State.reset.setHid { Hidden.reset with cur := 4294967275, base := 4294967275 }
     s.hid.cur.toNat + 21 = 2 ^ 32 ∧ s.hid.base.toNat + 21 = 2 ^ 32) := by decide

theorem witness_ReservedOpcodeIsDropped :
    (loaded [] 0 0 [wrTurn .cmd 3]).turns = .host (.wrReg 4 0x00 3) :: [] ∧ (3 : Word) ≠ 0 ∧ (3 : Word) ≠ 1 ∧
    (3 : Word) ≠ 2 ∧ (busyAvp .aHdr [wrTurn .cmd 0x80000001]).turns = .host (.wrReg 4 0x00 0x80000001) :: [] := by
  decide

/-! Commands. -/

theorem witness_ClearDropsTheResults :
    (doneMsg []).regs.status ≠ .busy ∧ Inv (loaded [] 64 0 []) ∧ (loaded [] 64 0 []).regs.status = .idle :=
  ⟨by decide, inv_loaded.1, rfl⟩

/-- `BUF_LEN` is the whole capacity; and a parser step of a BUSY block. -/
theorem witness_AcceptLatchesTheOperands :
    (loaded [] 64 0 []).regs.status ≠ .busy ∧ (loaded [] 64 0 []).regs.bufLen.toNat = (loaded [] 64 0 []).bufCap ∧
    (busyAvp .aHdr []).regs.status = .busy ∧ (busyAvp .aHdr []).turns = [] ∧
    ∃ t, step (busyAvp .aHdr []) = .next t :=
  ⟨by decide, by decide, by decide, by decide, ⟨_, rfl⟩⟩

/-- `BUF_LEN` is one more than the capacity. -/
theorem witness_DecodeRefusedBeyondCapacity :
    (loaded [] 65 0 []).regs.status ≠ .busy ∧
    (loaded [] 65 0 []).bufCap + 1 = (loaded [] 65 0 []).regs.bufLen.toNat := by decide

theorem witness_BusyDropsHostWrites :
    (busyAvp .aHdr [.host (.wrReg 4 0x0C 9)]).regs.status = .busy ∧
    (busyAvp .aHdr [.host (.wrReg 4 0x0C 9)]).turns = .host (.wrReg 4 0x0C 9) :: [] ∧
    (∃ t, step (busyAvp .aHdr [.host (.rdReg 4 0x04)]) = .next t) ∧ HostMove.rdReg 4 0x04 ≠ .reset :=
  ⟨by decide, by decide, ⟨_, rfl⟩, by decide⟩

theorem witness_CommandFrame :
    (∃ t, exec .clear (doneMsg []) = .next t) ∧ (∃ t, exec .decodeAvp (doneMsg []) = .next t) ∧
    (∃ t, exec .decodeMsg (busyAvp .aHdr []) = .next t) ∧ Instr.clear.format = .cmdw ∧
    Instr.decodeAvp.format = .cmdw ∧ Instr.decodeMsg.format = .cmdw :=
  ⟨⟨_, rfl⟩, ⟨_, rfl⟩, ⟨_, rfl⟩, rfl, rfl, rfl⟩

theorem witness_DecodeAvpCommandResult :
    (loaded bytes8 8 0 []).regs.status ≠ .busy ∧ (loaded bytes8 8 0 []).regs.bufLen.toNat ≤ 64 ∧
    (loaded bytes8 8 0 []).bufCap ≤ Config.bufCapMax ∧ (loaded bytes8 8 0 []).turns = [] ∧
    decodeAvpAt (byteAt (loaded bytes8 8 0 [])) 8 0 = .ok (desc8 0) 8 ∧
    decodeAvpAt (byteAt (loaded bytes8 8 0 [])) 8 1 = .err .structural .avpHdrShort 1 := by decide

theorem witness_DecodeMsgCommandResult :
    (let s := loaded (bytesMsg ++ bytes8) 28 0 []
     Inv s ∧ s.regs.status ≠ .busy ∧ s.regs.bufLen.toNat ≤ s.bufCap ∧ s.turns = [] ∧
     decodeMsgAt (byteAt s) 28 0 = .ok { scalars := scalars28, avps := [desc8 20] } 28 ∧
     decodeMsgAt (byteAt s) 27 0 = .err .structural .msgLenGtAvail 0) :=
  ⟨inv_loaded.2.2, by decide, by decide, by decide, by decide, by decide⟩

/-- Quiet turns of every kind. -/
theorem witness_FsmAgreesWithTheFunctions :
    (let s := (loaded bytes8 8 0 []).setTurns
       [.host (.rdReg 4 0x04), .host (.wrReg 4 0x00 2), .host (.wrRegLast 4 0x0C), .host (.rdTbl 4 0), .host (.rdBuf 63),
        .parser, .record, .wait]
     Inv s ∧ s.regs.status ≠ .busy ∧ s.regs.bufLen.toNat ≤ s.bufCap ∧ ∀ x ∈ s.turns, quietTurn s.bufCap x = true) :=
  ⟨inv_setTurns _ inv_loaded.2.1, by decide, by decide, by decide⟩

theorem witness_StepCounts :
    (let s := loaded (bytesMsg ++ bytes8) 28 0 []
     Inv s ∧ s.regs.status ≠ .busy ∧ s.regs.bufLen.toNat ≤ s.bufCap ∧ s.turns = [] ∧
     decodeMsgAt (byteAt s) 28 0 = .ok { scalars := scalars28, avps := [desc8 20] } 28) :=
  ⟨inv_loaded.2.2, by decide, by decide, by decide, by decide⟩

/-! Records. -/

/-- The four clauses: exactly the rest of the buffer; one less than the header; one more than the rest; a header cut one
byte short. -/
theorem witness_Avp8AtTheCursor :
    (let s := busyAvp .aAvail []
     s.hid.lenL.toNat ≤ Config.bufCapMax ∧ s.hid.cur.toNat + (8 : U24).toNat = s.hid.lenL.toNat ∧
     (7 : U24).toNat + 1 = 8 ∧ s.hid.cur.toNat + 8 ≤ s.hid.lenL.toNat ∧
     s.hid.lenL.toNat + 1 = s.hid.cur.toNat + (9 : U24).toNat) ∧
    (let s := (busyAvp .aAvail []).setHid { (busyAvp .aAvail []).hid with cur := 1 }
     s.hid.lenL.toNat + 1 = s.hid.cur.toNat + 8) := by decide

theorem witness_Avp12AtTheCursor :
    (let s := (busyMsg .aAvail 0 28 []).setHid { (busyMsg .aAvail 0 28 []).hid with lenL := 12 }
     s.hid.lenL.toNat ≤ Config.bufCapMax ∧ s.hid.cur.toNat + (12 : U24).toNat = s.hid.lenL.toNat ∧
     (11 : U24).toNat + 1 = 12 ∧ s.hid.cur.toNat + 8 ≤ s.hid.lenL.toNat ∧
     s.hid.lenL.toNat + 1 = s.hid.cur.toNat + (13 : U24).toNat) ∧
    (let s := (busyAvp .aAvail []).setHid { (busyAvp .aAvail []).hid with cur := 1 }
     s.hid.lenL.toNat + 1 = s.hid.cur.toNat + 8) := by decide

theorem witness_MsghAtTheBase :
    (let s := busyMsg .mAvail 0 28 []
     s.hid.lenL.toNat ≤ Config.bufCapMax ∧ 20 ≤ (20 : U24).toNat ∧
     s.hid.base.toNat + (28 : U24).toNat = s.hid.lenL.toNat ∧ (19 : U24).toNat + 1 = 20 ∧
     s.hid.base.toNat + 20 ≤ s.hid.lenL.toNat ∧ s.hid.lenL.toNat + 1 = s.hid.base.toNat + (29 : U24).toNat) ∧
    (let s := (busyMsg .mAvail 0 28 []).setHid { (busyMsg .mAvail 0 28 []).hid with lenL := 19 }
     s.hid.lenL.toNat + 1 = s.hid.base.toNat + 20) := by decide

theorem witness_RecordFrame :
    (∃ t, exec (.avp8 2 true false 0 8) (busyAvp .aAvail []) = .next t) ∧
    (∃ t, exec (.avp12 2 true false 0 11) (busyAvp .aAvail []) = .next t) ∧
    (∃ t, exec (.msgh 1 28 0 0 0 0 0) (busyMsg .mAvail 0 28 []) = .next t) ∧
    (Instr.avp8 2 true false 0 8).format ≠ .cmdw ∧ (Instr.avp12 2 true false 0 11).format ≠ .cmdw ∧
    (Instr.msgh 1 28 0 0 0 0 0).format ≠ .cmdw :=
  ⟨⟨_, rfl⟩, ⟨_, rfl⟩, ⟨_, rfl⟩, by decide, by decide, by decide⟩

theorem witness_RecordTurnMergesPhases :
    Inv (busyAvp .aAvail [.record]) ∧ (busyAvp .aAvail [.record]).regs.status = .busy ∧
    (busyAvp .aAvail [.record]).turns = .record :: [] ∧ Inv (busyMsg .mAvail 0 28 [.record]) ∧
    Inv (busyAvp .aAdv [.record]) :=
  ⟨inv_setTurns [.record] inv_busyAvp.1, rfl, rfl, inv_setTurns [.record] inv_busyMsg.1,
    inv_setTurns [.record] inv_busyAvp.2.2.2.2.1⟩

/-! The FSM. -/

/-- `A_HDR` and an 8-byte `A_VID` with the header ending at the end of the buffer; and a 12-byte one. -/
theorem witness_AvpEnginePhases :
    (busyAvp .aAvail []).regs.status = .busy ∧ (busyAvp .aAvail []).turns = [] ∧ (busyAvp .aAvail []).hid.ph = .aAvail ∧
    (busyAvp .aHdr []).hid.ph = .aHdr ∧ (busyAvp .aHdr []).hid.cur.toNat + 8 = (busyAvp .aHdr []).hid.lenL.toNat ∧
    (busyAvp .aCheck []).hid.ph = .aCheck ∧ (busyAvp .aVid []).hid.ph = .aVid ∧ (busyAvp .aVid []).hid.hs ≠ 12 ∧
    (let s := (busyAvp .aVid []).setHid { (busyAvp .aVid []).hid with hs := 12, lenL := 12 }
     s.hid.hs = 12 ∧ s.hid.cur.toNat + 12 = s.hid.lenL.toNat) ∧
    (busyAvp .aAdv []).hid.ph = .aAdv := by decide

/-- The header ends at the end of the buffer; the table has one free entry left. -/
theorem witness_MessageEnginePhases :
    (busyMsg .mAvail 0 28 []).regs.status = .busy ∧ (busyMsg .mAvail 0 28 []).turns = [] ∧
    (let s := (busyMsg .mLen 0 20 []).setHid { (busyMsg .mLen 0 20 []).hid with lenL := 20 }
     s.hid.ph = .mLen ∧ s.hid.base.toNat + 20 = s.hid.lenL.toNat) ∧
    (busyMsg .mCheck 0 28 []).hid.ph = .mCheck ∧
    (let s := (busyMsg .mHdr 0 20 []).setHid { (busyMsg .mHdr 0 20 []).hid with lenL := 20 }
     s.hid.ph = .mHdr ∧ s.hid.base.toNat + 20 = s.hid.lenL.toNat) ∧
    (busyMsg .mLoop 20 28 []).hid.ph = .mLoop ∧
    (let s := (busyMsg .mAppend 28 8 []).setHid { (busyMsg .mAppend 28 8 []).hid with n := 4 }
     s.hid.ph = .mAppend ∧ s.hid.n.toNat + 1 = Config.avptCap s.bufCap) := by decide

theorem witness_CommitWritesTheResults :
    (busyAvp .commit []).regs.status = .busy ∧ (busyAvp .commit []).turns = [] ∧
    (busyAvp .commit []).hid.ph = .commit ∧ (busyAvp .commit []).hid.top = .avp ∧
    (busyMsg .commit 28 8 []).regs.status = .busy ∧ (busyMsg .commit 28 8 []).hid.ph = .commit ∧
    (busyMsg .commit 28 8 []).hid.top = .msg := by decide

theorem witness_FailStepRecordsTheError :
    (busyAvp .fail []).regs.status = .busy ∧ (busyAvp .fail []).turns = [] ∧ (busyAvp .fail []).hid.ph = .fail ∧
    Inv (busyAvp .fail []) ∧ ∃ t, step (busyAvp .fail []) = .next t :=
  ⟨rfl, rfl, rfl, inv_busyAvp.2.2.2.2.2, ⟨_, rfl⟩⟩

theorem witness_TransitionTable :
    (Inv (loaded [] 64 0 []) ∧ (loaded [] 64 0 []).turns = [] ∧ (loaded [] 64 0 []).regs.status ≠ .busy) ∧
    (Inv (busyAvp .aCheck []) ∧ (busyAvp .aCheck []).turns = [] ∧ (busyAvp .aCheck []).regs.status = .busy) ∧
    Inv (busyMsg .mCheck 0 28 []) ∧ Inv (busyMsg .mLoop 20 28 []) ∧ Inv (busyMsg .mAppend 28 8 []) :=
  ⟨⟨inv_loaded.1, rfl, by decide⟩, ⟨inv_busyAvp.2.2.1, rfl, rfl⟩, inv_busyMsg.2.2.1, inv_busyMsg.2.2.2.2.1,
    inv_busyMsg.2.2.2.2.2.2.2⟩

theorem witness_CursorNeverMovesBack :
    Inv (busyAvp .aAdv []) ∧ (busyAvp .aAdv []).regs.status = .busy ∧
    ∃ t, step (busyAvp .aAdv []) = .next t ∧ t.regs.status = .busy ∧ t.hid.cur = 8 :=
  ⟨inv_busyAvp.2.2.2.2.1, rfl, ⟨_, rfl, rfl, rfl⟩⟩

theorem witness_EveryCommandFinishes :
    Inv (busyMsg .mAvail 0 28 []) ∧ (busyMsg .mAvail 0 28 []).regs.status = .busy ∧
    (busyMsg .mAvail 0 28 []).turns = [] :=
  ⟨inv_busyMsg.1, rfl, rfl⟩

/-! Host moves. -/

/-- The last byte of the buffer memory, and the first address outside it. -/
theorem witness_HostBufferAccess :
    (loaded [] 0 0 [.host (.wrBuf 63 5)]).turns = .host (.wrBuf 63 5) :: [] ∧ 63 + 1 = (loaded [] 0 0 []).bufCap ∧
    (loaded [] 0 0 []).regs.status ≠ .busy ∧
    (busyAvp .aHdr [.host (.wrBuf 63 5)]).turns = .host (.wrBuf 63 5) :: [] ∧
    (busyAvp .aHdr []).regs.status = .busy ∧ 63 < (busyAvp .aHdr []).bufCap ∧
    (loaded [] 0 0 [.host (.rdBuf 63)]).turns = .host (.rdBuf 63) :: [] ∧
    (loaded [] 0 0 [.host (.rdBuf 64)]).turns = .host (.rdBuf 64) :: [] ∧ (loaded [] 0 0 []).bufCap ≤ 64 := by
  decide

theorem witness_OnlyTheHostWritesTheBuffer :
    ∃ t, step (loaded bytes8 0 0 [.host (.wrBuf 4 0xC0)]) = .next t ∧
      byteAt t 4 ≠ byteAt (loaded bytes8 0 0 [.host (.wrBuf 4 0xC0)]) 4 :=
  ⟨_, rfl, by decide⟩

theorem witness_RegisterMapReads :
    (loaded [] 0 0 [.host (.rdReg 4 0xFC)]).turns = .host (.rdReg 4 0xFC) :: [] ∧ 0xFC % 4 = 0 ∧ 0xFC < 256 ∧
    (busyAvp .aHdr [.host (.rdReg 4 0x14)]).turns = .host (.rdReg 4 0x14) :: [] := by decide

theorem witness_RegisterMapWrites :
    (loaded [] 0 0 [.host (.wrReg 4 0x08 0xFFFFFFFF)]).turns = .host (.wrReg 4 0x08 0xFFFFFFFF) :: [] ∧
    (loaded [] 0 0 []).regs.status ≠ .busy ∧ 0x08 ≠ 0x00 ∧
    (loaded [] 0 0 [.host (.wrReg 4 0xFC 1)]).turns = .host (.wrReg 4 0xFC 1) :: [] := by decide

theorem witness_HostReadsAndBadAccesses :
    (∃ t, step (busyAvp .aHdr [.host (.rdReg 4 0x04)]) = .next t) ∧
    (∃ t, step (busyAvp .aHdr [.host (.rdTbl 4 0x00)]) = .next t) ∧
    (∃ t, step (busyAvp .aHdr [.host (.rdBuf 0)]) = .next t) ∧
    (loaded [] 0 0 [.host (.rdReg 4 0x05)]).turns = .host (.rdReg 4 0x05) :: [] ∧ 0x05 % 4 ≠ 0 ∧
    (loaded [] 0 0 [.host (.wrReg 2 0x00 1)]).turns = .host (.wrReg 2 0x00 1) :: [] ∧ 2 ≠ 4 :=
  ⟨⟨_, rfl⟩, ⟨_, rfl⟩, ⟨_, rfl⟩, by decide, by decide, by decide, by decide⟩

/-- The last word of the one valid entry; the first word of the next; the last entry of the table. -/
theorem witness_TableReads :
    Inv (doneMsg [.host (.rdTbl 4 28)]) ∧ Inv (doneMsg [.host (.rdTbl 4 32)]) ∧
    (doneMsg [.host (.rdTbl 4 28)]).turns = .host (.rdTbl 4 (32 * 0 + 4 * 7)) :: [] ∧ 7 < 8 ∧
    0 < (doneMsg []).regs.avpCount.toNat ∧ sparseGet (doneMsg []).avpt 0 = some (desc8 20) ∧
    (doneMsg [.host (.rdTbl 4 32)]).turns = .host (.rdTbl 4 (32 * 1 + 4 * 0)) :: [] ∧
    (doneMsg []).regs.avpCount.toNat ≤ 1 ∧ 4 + 1 = Config.avptCap (doneMsg []).bufCap :=
  ⟨inv_setTurns _ inv_doneMsg, inv_setTurns _ inv_doneMsg, by decide, by decide, by decide, by decide, by decide,
    by decide, by decide⟩

theorem witness_ResetAbandonsTheCommand :
    (busyMsg .mAppend 28 8 [.host .reset]).turns = .host .reset :: [] ∧
    (busyMsg .mAppend 28 8 []).regs.status = .busy := by decide

/-! Helpers and functions. -/

theorem witness_PaddedLengthLaws : (0 : Nat) ≤ 1 := by decide

/-- The largest length whose sum with 3 does not wrap. -/
theorem witness_PaddedLengthBitFormula : (0xFFFFFFFC : Word).toNat = 2 ^ 32 - 4 := by decide

/-- An AVP8, and an AVP12 whose padding overshoots the end of the buffer. -/
def bytes12 : Nat → Byte := fun a => [0, 0, 1, 10, 0xC0, 0, 0, 13, 0, 0, 0x28, 0xAF, 1].getD a 0

def desc12 : Desc :=
  { code := 266, flags := 0xC0, vendorId := 10415, len := 13, dataOff := 12, dataLen := 1 }

theorem witness_AvpConsumedLength :
    decodeAvpAt bytes12 13 0 = .ok desc12 16 ∧ hasVendorId desc12.flags = true := by decide

theorem witness_AvpOvershoot :
    13 ≤ Config.bufCapMax ∧ decodeAvpAt bytes12 13 0 = .ok desc12 16 ∧ 13 < 16 := by decide

theorem witness_DataSliceInsideTheBuffer :
    13 ≤ Config.bufCapMax ∧ decodeAvpAt bytes12 13 0 = .ok desc12 16 ∧ 1 ≤ 3 ∧ 3 ≤ 3 := by decide

/-- Two buffers that differ in a data byte only. -/
theorem witness_AvpReadSet :
    (∀ a, 0 ≤ a → a < 0 + 8 → bytes12 a = (fun b => if b = 12 then 0xFF else bytes12 b) a) ∧
    (∀ a, 0 + 8 ≤ a → a < 0 + 12 → bytes12 a = (fun b => if b = 12 then 0xFF else bytes12 b) a) ∧
    8 ≤ availableAt 13 0 ∧ decodeAvpAt bytes12 13 0 = .ok desc12 16 ∧ hasVendorId desc12.flags = true := by
  refine ⟨fun a _ h => ?_, fun a _ h => ?_, by decide, by decide, by decide⟩ <;>
    simp [show a ≠ 12 by omega]

theorem witness_AvpOffsetIndependence : 13 ≤ 13 ∧ 13 ≤ Config.bufCapMax := by decide

theorem witness_MsgOffsetIndependence : 28 ≤ 28 ∧ 28 ≤ Config.bufCapMax := by decide

/-- A Message of one AVP. -/
def bytesM : Nat → Byte := fun a => (bytesMsg ++ bytes8).getD a 0

def message1 : Message :=
  { scalars := scalars28, avps := [desc8 20] }

theorem witness_MessageLoopTerminates :
    20 ≤ 28 ∧ (28 - 20 + 7) / 8 ≤ 1 ∧ decodeMsgAt bytesM 28 0 = .ok message1 28 := by decide

theorem witness_MessageFinalOffset : decodeMsgAt bytesM 28 0 = .ok message1 28 := by decide

theorem witness_MessageEntriesInWireOrder :
    decodeMsgAt bytesM 28 0 = .ok message1 28 ∧ message1.avps[0]? = some (desc8 20) := by decide

theorem witness_MessageErrorNamesTheRecord :
    decodeMsgAt bytesM 19 0 = .err .structural .msgHdrShort 0 ∧
    decodeMsgAt (fun a => if a = 27 then 9 else bytesM a) 28 0 = .err .structural .avpLenGtAvail 20 := by decide

/-- Two blocks that differ in earlier results, hidden registers and the bytes past `BUF_LEN`. -/
theorem witness_ResultDependsOnTheInputsOnly :
    (let s := loaded bytes8 8 0 []
     let s' := ((loaded (bytes8 ++ [1]) 8 0 []).setHid (busyMsg .mLoop 20 28 []).hid).setRdata 7
     Inv s ∧ Inv s' ∧ s.regs.status ≠ .busy ∧ s'.regs.status ≠ .busy ∧ s.turns = [] ∧ s'.turns = [] ∧
     s.regs.bufLen.toNat ≤ s.bufCap ∧ s'.regs.bufLen.toNat ≤ s'.bufCap ∧ s.regs.bufLen = s'.regs.bufLen ∧
     s.regs.offset = s'.regs.offset ∧ ∀ a, a < s.regs.bufLen.toNat → byteAt s a = byteAt s' a) :=
  ⟨inv_loaded.2.1,
    ⟨by decide, by decide, by decide, by decide, by decide, by decide,
      by refine ⟨?_, ?_, ?_, ?_, ?_, ?_, ?_, ?_, ?_, ?_, ?_, ?_⟩ <;> decide, fun h => absurd h (by decide)⟩,
    by decide, by decide, by decide, by decide, by decide, by decide, by decide, by decide, by decide⟩

/-! The invariant. -/

theorem witness_ResetMeetsInv : Config.bufCapMax ≤ Config.bufCapMax := by decide

theorem witness_StepKeepsInv : Inv (busyMsg .mAppend 28 8 []) ∧ ∃ t, step (busyMsg .mAppend 28 8 []) = .next t :=
  ⟨inv_busyMsg.2.2.2.2.2.2.2, ⟨_, rfl⟩⟩

theorem witness_NoStepFaults : Inv (busyAvp .aVid []) := inv_busyAvp.2.2.2.1

theorem next_of_holdsNext {o : Out} {p : State → Bool} (h : holdsNext o p = true) : ∃ t, o = .next t ∧ p t = true := by
  cases o with
  | next t => exact ⟨t, rfl, h⟩
  | fault r => cases h
  | refused r => cases h

/-- DONE_ERR, three steps after reset: DECODE_AVP of the empty buffer. -/
theorem reachable_doneErr :
    ∃ s, Reachable s ∧ s.regs.status = .doneErr ∧ s.regs.err.word = 0x00000101 ∧ s.done = true := by
  obtain ⟨t, h, e⟩ := next_of_holdsNext (o := runSteps 3 (State.resetWith 64 [wrTurn .cmd 1]))
    (p := fun t => decide (t.regs.status = .doneErr ∧ t.regs.err.word = 0x00000101 ∧ t.done = true)) (by decide)
  exact ⟨t, reachable_runSteps (.reset _ _ (by decide)) h, of_decide_eq_true e⟩

/-- DONE_OK: the 8-byte AVP loaded, decoded by one record turn, committed. -/
theorem reachable_doneOk : ∃ s, Reachable s ∧ s.regs.status = .doneOk ∧ s.regs.avp = desc8 0 ∧ s.done = true := by
  obtain ⟨t, h, e⟩ := next_of_holdsNext
    (o := runSteps 12 (State.resetWith 64 (scriptTurns [.buffer bytes8, .davp] ++ [.record, .parser])))
    (p := fun t => decide (t.regs.status = .doneOk ∧ t.regs.avp = desc8 0 ∧ t.done = true)) (by decide)
  exact ⟨t, reachable_runSteps (.reset _ _ (by decide)) h, of_decide_eq_true e⟩

theorem witness_ErrKindIsNoneOrStructural :
    Reachable State.reset ∧ ∃ s, Reachable s ∧ s.regs.status = .doneErr ∧ s.regs.err.word = 0x00000101 := by
  obtain ⟨s, h1, h2, h3, _⟩ := reachable_doneErr
  exact ⟨.reset _ _ (by decide), s, h1, h2, h3⟩

theorem witness_DoneLineFollowsStatus :
    Reachable State.reset ∧ State.reset.done = false ∧ (∃ s, Reachable s ∧ s.regs.status = .doneErr ∧ s.done = true) ∧
    ∃ s, Reachable s ∧ s.regs.status = .doneOk ∧ s.done = true := by
  obtain ⟨s, h1, h2, _, h3⟩ := reachable_doneErr
  obtain ⟨t, g1, g2, _, g3⟩ := reachable_doneOk
  exact ⟨.reset _ _ (by decide), rfl, ⟨s, h1, h2, h3⟩, t, g1, g2, g3⟩

theorem witness_ResultsValidByState :
    (∃ s, Reachable s ∧ s.regs.status = .idle) ∧ (∃ s, Reachable s ∧ s.regs.status = .doneOk) ∧
    ∃ s, Reachable s ∧ s.regs.status = .doneErr := by
  obtain ⟨s, h1, h2, _⟩ := reachable_doneErr
  obtain ⟨t, g1, g2, _⟩ := reachable_doneOk
  exact ⟨⟨State.reset, .reset _ _ (by decide), rfl⟩, ⟨t, g1, g2⟩, s, h1, h2⟩

end Sys2Proof.Tests
end

section
/-! Runs of the parser with no host move pending: how single phases chain, and the record meanings of the two engines as
runs of their phases (44_fsm.md R246, R248). -/

namespace Sys2Proof.Machine

/-- BUSY with no turn pending: every step is the parser's. -/
abbrev Running (s : State) : Prop :=
  s.regs.status = .busy ∧ s.turns = []

theorem runSteps_trans {s t u : State} {j k : Nat} (h1 : runSteps j s = .next t) (h2 : runSteps k t = .next u) :
    runSteps (j + k) s = .next u := by
  rw [Nat.add_comm, runSteps_add, h1, andThen_next, h2]

theorem runSteps_cons {s t u : State} {k : Nat} (hs : Running s) (h1 : phaseStep s = .next t)
    (h2 : runSteps k t = .next u) : runSteps (k + 1) s = .next u := by
  rw [runSteps_succ_of_busy hs.1 hs.2, h1, andThen_next, h2]

theorem runSteps_one {s t : State} (hs : Running s) (h : phaseStep s = .next t) : runSteps 1 s = .next t :=
  runSteps_cons hs h rfl

/-- An engine's meaning stops where a check has failed. -/
theorem unlessFail_of_fail {s : State} (f : State → Out) (h : s.hid.ph = .fail) : unlessFail f s = .next s := if_pos h

theorem unlessFail_of_ne {s : State} (f : State → Out) (h : s.hid.ph ≠ .fail) : unlessFail f s = f s := if_neg h

theorem phaseStep_aAvail {s : State} (h : s.hid.ph = .aAvail) : phaseStep s = .next (phAAvail s) := by
  simp only [phaseStep, h]
theorem phaseStep_aHdr {s : State} (h : s.hid.ph = .aHdr) : phaseStep s = phAHdr s := by simp only [phaseStep, h]
theorem phaseStep_aCheck {s : State} (h : s.hid.ph = .aCheck) : phaseStep s = .next (phACheck s) := by
  simp only [phaseStep, h]
theorem phaseStep_aVid {s : State} (h : s.hid.ph = .aVid) : phaseStep s = phAVid s := by simp only [phaseStep, h]
theorem phaseStep_aAdv {s : State} (h : s.hid.ph = .aAdv) : phaseStep s = .next (phAAdv s) := by
  simp only [phaseStep, h]
theorem phaseStep_mAvail {s : State} (h : s.hid.ph = .mAvail) : phaseStep s = .next (phMAvail s) := by
  simp only [phaseStep, h]
theorem phaseStep_mLen {s : State} (h : s.hid.ph = .mLen) : phaseStep s = phMLen s := by simp only [phaseStep, h]
theorem phaseStep_mCheck {s : State} (h : s.hid.ph = .mCheck) : phaseStep s = .next (phMCheck s) := by
  simp only [phaseStep, h]
theorem phaseStep_mHdr {s : State} (h : s.hid.ph = .mHdr) : phaseStep s = phMHdr s := by simp only [phaseStep, h]
theorem phaseStep_mLoop {s : State} (h : s.hid.ph = .mLoop) : phaseStep s = .next (phMLoop s) := by
  simp only [phaseStep, h]
theorem phaseStep_mAppend {s : State} (h : s.hid.ph = .mAppend) : phaseStep s = phMAppend s := by
  simp only [phaseStep, h]
theorem phaseStep_commit {s : State} (h : s.hid.ph = .commit) : phaseStep s = .next (phCommit s) := by
  simp only [phaseStep, h]
theorem phaseStep_fail {s : State} (h : s.hid.ph = .fail) : phaseStep s = .next (failStep s) := by
  simp only [phaseStep, h]

theorem phAAvail_of_le {s : State} (h : s.hid.cur.toNat + 8 ≤ s.hid.lenL.toNat) :
    phAAvail s = s.setHid { s.hid with avail := bytesLeft s.hid.lenL s.hid.cur, ph := .aHdr } := by
  rw [phAAvail_eq, if_neg (by omega)]

theorem phAAvail_of_lt {s : State} (h : s.hid.lenL.toNat < s.hid.cur.toNat + 8) :
    phAAvail s = s.setHid { s.hid with
      avail := bytesLeft s.hid.lenL s.hid.cur, ecause := Cause.avpHdrShort.code, eat := s.hid.cur, ph := .fail } := by
  rw [phAAvail_eq, if_pos (by omega)]

theorem phMAvail_of_le {s : State} (h : s.hid.base.toNat + 20 ≤ s.hid.lenL.toNat) :
    phMAvail s = s.setHid { s.hid with avail := bytesLeft s.hid.lenL s.hid.base, ph := .mLen } := by
  rw [phMAvail_eq, if_neg (by omega)]

theorem phMAvail_of_lt {s : State} (h : s.hid.lenL.toNat < s.hid.base.toNat + 20) :
    phMAvail s = s.setHid { s.hid with
      avail := bytesLeft s.hid.lenL s.hid.base, ecause := Cause.msgHdrShort.code, eat := s.hid.base, ph := .fail } := by
  rw [phMAvail_eq, if_pos (by omega)]

theorem phACheck_ph (s : State) : (phACheck s).hid.ph = .fail ∨ (phACheck s).hid.ph = .aVid := by
  rw [phACheck_eq]
  split
  · exact .inl rfl
  · split
    · exact .inl rfl
    · exact .inr rfl

theorem phMCheck_cases (s : State) :
    (phMCheck s).hid.ph = .fail ∨ phMCheck s = s.setHid { s.hid with ph := .mHdr } := by
  rw [phMCheck_eq]
  split
  · exact .inl rfl
  · split
    · exact .inl rfl
    · exact .inr rfl

theorem phAVid_eq_next {s t : State} (h : phAVid s = .next t) : ∃ v, t = latchVendorId v s := by
  unfold phAVid at h
  split at h
  · obtain ⟨v, -, h⟩ := withRead_eq_next h
    exact ⟨_, by cases h; rfl⟩
  · exact ⟨_, by cases h; rfl⟩

theorem phAAdv_ph_ne_fail (s : State) : (phAAdv s).hid.ph ≠ .fail := by
  show afterAvp s.hid.top ≠ .fail
  cases s.hid.top <;> decide

/-- The meaning of the AVP record at the cursor, its header read from the buffer. -/
abbrev avpRecordAtCursor (s : State) : Out :=
  avpRecord (BitVec.ofNat 32 (beRead (byteAt s) s.hid.cur.toNat 4))
    (BitVec.ofNat 8 (beRead (byteAt s) (s.hid.cur.toNat + 4) 1))
    (BitVec.ofNat 24 (beRead (byteAt s) (s.hid.cur.toNat + 5) 3)) s

/-- The meaning of the Message header at `BASE`, its fields read from the buffer. -/
abbrev msgHeaderAtBase (s : State) : Out :=
  execMsgh (BitVec.ofNat 8 (beRead (byteAt s) s.hid.base.toNat 1))
    (BitVec.ofNat 24 (beRead (byteAt s) (s.hid.base.toNat + 1) 3))
    (BitVec.ofNat 8 (beRead (byteAt s) (s.hid.base.toNat + 4) 1))
    (BitVec.ofNat 24 (beRead (byteAt s) (s.hid.base.toNat + 5) 3))
    (BitVec.ofNat 32 (beRead (byteAt s) (s.hid.base.toNat + 8) 4))
    (BitVec.ofNat 32 (beRead (byteAt s) (s.hid.base.toNat + 12) 4))
    (BitVec.ofNat 32 (beRead (byteAt s) (s.hid.base.toNat + 16) 4)) s

/-- What an AVP record whose header is in the buffer means is what the AVP engine's phases do: three of them up to a
failed length check, else all five. -/
theorem runSteps_of_avpRecord {s t : State} (hs : Running s) (hp : s.hid.ph = .aAvail)
    (hl : s.hid.cur.toNat + 8 ≤ s.hid.lenL.toNat) (h : avpRecordAtCursor s = .next t) :
    runSteps (if t.hid.ph = .fail then 3 else 5) s = .next t := by
  have ha := phAAvail_of_le hl
  have hHdr := phAHdr_of_le (s := phAAvail s) (by rw [ha]; exact hl)
  have hAvail : (phAAvail s).hid.ph = .aHdr := by rw [ha]; rfl
  have hbytes : byteAt (phAAvail s) = byteAt s := by rw [ha]; rfl
  have hcur : (phAAvail s).hid.cur = s.hid.cur := by rw [ha]; rfl
  have hr : Running (phAAvail s) := by rw [ha]; exact hs
  rw [hbytes, hcur] at hHdr
  unfold avpRecordAtCursor avpRecord at h
  rw [unlessFail_of_ne _ (by simp [hAvail])] at h
  generalize hu : latchAvpHeader _ _ _ (phAAvail s) = u at h hHdr
  have hru : Running u := by rw [← hu]; exact hr
  have hCheck : u.hid.ph = .aCheck := by rw [← hu]; rfl
  have hrc : Running (phACheck u) := by rw [phACheck_eq]; exact hru
  have run : ∀ {k v}, runSteps k (phACheck u) = .next v → runSteps (k + 3) s = .next v := fun hk =>
    runSteps_cons hs (phaseStep_aAvail hp) <| runSteps_cons hr ((phaseStep_aHdr hAvail).trans hHdr) <|
      runSteps_cons hru (phaseStep_aCheck hCheck) hk
  rcases phACheck_ph u with hf | hv
  · rw [unlessFail_of_fail _ hf] at h
    cases h
    rw [if_pos hf]
    exact run rfl
  · rw [unlessFail_of_ne _ (by simp [hv])] at h
    obtain ⟨w, hVid, hAdv⟩ := andThen_eq_next h
    obtain ⟨v, rfl⟩ := phAVid_eq_next hVid
    cases hAdv
    rw [if_neg (phAAdv_ph_ne_fail _)]
    exact run <| runSteps_cons hrc ((phaseStep_aVid hv).trans hVid) <| runSteps_one hrc (phaseStep_aAdv rfl)

/-- What a Message header that is in the buffer means is what the header phases of the Message engine do: three of them
up to a failed length check, else all four. -/
theorem runSteps_of_msgHeader {s t : State} (hs : Running s) (hp : s.hid.ph = .mAvail)
    (hl : s.hid.base.toNat + 20 ≤ s.hid.lenL.toNat) (h : msgHeaderAtBase s = .next t) :
    runSteps (if t.hid.ph = .fail then 3 else 4) s = .next t := by
  have ha := phMAvail_of_le hl
  have hLen := phMLen_of_le (s := phMAvail s) (by rw [ha]; exact hl)
  have hAvail : (phMAvail s).hid.ph = .mLen := by rw [ha]; rfl
  have hbytes : byteAt (phMAvail s) = byteAt s := by rw [ha]; rfl
  have hbase : (phMAvail s).hid.base = s.hid.base := by rw [ha]; rfl
  have hr : Running (phMAvail s) := by rw [ha]; exact hs
  rw [hbytes, hbase] at hLen
  unfold msgHeaderAtBase execMsgh at h
  rw [unlessFail_of_ne _ (by simp [hAvail])] at h
  generalize hu : latchMsgLen _ _ (phMAvail s) = u at h hLen
  have hru : Running u := by rw [← hu]; exact hr
  have hCheck : u.hid.ph = .mCheck := by rw [← hu]; rfl
  have run : ∀ {k v}, runSteps k (phMCheck u) = .next v → runSteps (k + 3) s = .next v := fun hk =>
    runSteps_cons hs (phaseStep_mAvail hp) <| runSteps_cons hr ((phaseStep_mLen hAvail).trans hLen) <|
      runSteps_cons hru (phaseStep_mCheck hCheck) hk
  rcases phMCheck_cases u with hf | hv
  · rw [unlessFail_of_fail _ hf] at h
    cases h
    rw [if_pos hf]
    exact run rfl
  · rw [hv, unlessFail_of_ne _ (by simp)] at h
    rw [hv] at run
    have hHdr := phMHdr_of_le (s := u.setHid { u.hid with ph := .mHdr }) (by rw [← hu, ha]; exact hl)
    have hub : byteAt (u.setHid { u.hid with ph := .mHdr }) = byteAt s := by rw [← hu]; exact hbytes
    have hubase : (u.setHid { u.hid with ph := .mHdr }).hid.base = s.hid.base := by rw [← hu]; exact hbase
    rw [hub, hubase] at hHdr
    cases h
    rw [if_neg (by simp [latchMsgHeader])]
    exact run <| runSteps_one hru ((phaseStep_mHdr rfl).trans hHdr)

end Sys2Proof.Machine
end

section
/-! The engines end where the functions say (44_fsm.md R247): from the first phase of a record or command to `COMMIT`,
`M_APPEND` or `FAIL`, with no host move pending. -/

namespace Sys2Proof.Machine

/-- The hidden registers in `FAIL` of a command accepted at `base`, as `raise Structural(c)` at `a` leaves them. -/
structure FailsAs (base : Word) (h : Hidden) (k : ErrKind) (c : Cause) (a : Nat) : Prop where
  kind : k = .structural
  ph : h.ph = .fail
  ecause : h.ecause = c.code
  eat : h.eat.toNat = a
  base : h.base = base

/-- The AVP engine's hidden registers when it returns with `d`, the cursor at `n` (44_fsm.md R233 to R237). -/
def Hidden.avpDone (h : Hidden) (d : Desc) (n : Nat) : Hidden :=
  { h with avail := bytesLeft h.lenL h.cur, hs := BitVec.ofNat 4 (headerSize d.flags), alen := d.len, sAvp := d,
           cur := BitVec.ofNat 32 n, ph := afterAvp h.top }

/-- Where the AVP engine ends from `A_AVAIL` in `s`, for each answer of `DecodeAvp`. -/
def AvpEnds (s : State) : DecodeResult Desc → Prop
  | .ok d n => runSteps 5 s = .next (s.setHid (s.hid.avpDone d n))
  | .err k c a => ∃ h, runSteps (if c = .avpHdrShort then 1 else 3) s = .next (s.setHid h) ∧ FailsAs s.hid.base h k c a

/-- A decoded AVP's header lies in the buffer; the next record starts behind it, at most the padding past the end. -/
theorem decodeAvpAt_ok_bounds {read : Nat → Byte} {bufLen s n : Nat} {d : Desc}
    (h : decodeAvpAt read bufLen s = .ok d n) : s + 8 ≤ bufLen ∧ s + 8 ≤ n ∧ n ≤ bufLen + 3 := by
  rcases decodeAvpAt_cases read bufLen s with ⟨-, e⟩ | ⟨f, l, h8, -, -, -, ⟨-, e⟩ | ⟨-, -, e⟩ | ⟨hl, ha, e⟩⟩ <;>
    rw [e] at h <;> cases h
  have hp := paddedLength_bounds (l - headerSize f)
  have hh := headerSize_bounds f
  rw [availableAt_eq] at h8 ha
  omega

/-- The AVP engine agrees with `DecodeAvp` at the cursor. -/
theorem avpEngine_ends {s : State} (hs : Running s) (hp : s.hid.ph = .aAvail) :
    AvpEnds s (decodeAvpAt (byteAt s) s.hid.lenL.toNat s.hid.cur.toNat) := by
  rcases decodeAvpAt_cases (byteAt s) s.hid.lenL.toNat s.hid.cur.toNat with
    ⟨h8, e⟩ | ⟨f, l, h8, hf, hl, hlt, hcases⟩
  · rw [availableAt_eq] at h8
    rw [e]
    refine ⟨_, runSteps_one hs ((phaseStep_aAvail hp).trans (congrArg _ (phAAvail_of_lt (by omega)))), ?_⟩
    exact ⟨rfl, rfl, rfl, rfl, rfl⟩
  rw [availableAt_eq] at h8
  have hlen : (BitVec.ofNat 24 l).toNat = l := (BitVec.toNat_ofNat l 24).trans (Nat.mod_eq_of_lt hlt)
  have run := fun t => runSteps_of_avpRecord (t := t) hs hp (by omega)
  rw [avpRecordAtCursor, ← hf, ← hl] at run
  have badLength : l < headerSize f ∨ s.hid.lenL.toNat - s.hid.cur.toNat < l →
      AvpEnds s (.err .structural (if l < headerSize f then .avpLenLtHdr else .avpLenGtAvail) s.hid.cur.toNat) := by
    intro hbad
    have hr := run _ (avpRecord_badLength (by omega) (by omega))
    have hc : (if l < headerSize f then Cause.avpLenLtHdr else .avpLenGtAvail) ≠ .avpHdrShort := by split <;> decide
    rw [hlen] at hr
    exact ⟨_, (congrArg (runSteps · s) (if_neg hc)).trans hr, rfl, rfl, rfl, rfl, rfl⟩
  rw [availableAt_eq] at hcases
  rcases hcases with ⟨hlt, e⟩ | ⟨hge, hgt, e⟩ | ⟨hge, hle, e⟩ <;> rw [e]
  · simpa only [if_pos hlt] using badLength (.inl hlt)
  · simpa only [if_neg (Nat.not_lt.2 hge)] using badLength (.inr hgt)
  · have hr := run _ (avpRecord_ok (by omega) (by omega))
    rw [if_neg (phAAdv_ph_ne_fail _)] at hr
    refine hr.trans (congrArg _ ?_)
    have hv : BitVec.ofNat 32 (if hasVendorId f then beRead (byteAt s) (s.hid.cur.toNat + 8) 4 else 0) =
        if hasVendorId f then BitVec.ofNat 32 (beRead (byteAt s) (s.hid.cur.toNat + 8) 4) else (0 : Word) := by
      split <;> rfl
    simp only [phAAdv, State.setHid_hid, State.setHid_setHid, hlen, headerSize_toNat, Hidden.avpDone, hv]

end Sys2Proof.Machine
end

section
/-! The Message engine's loop and the whole of DECODE_MSG's run against `DecodeMsg` (44_fsm.md R238 to R243, R247). -/

namespace Sys2Proof.Machine

/-- Table `t'` is `t` below entry `n` and holds `ds` from `n` on. -/
def Appended (t t' : Table) (n : Nat) (ds : List Desc) : Prop :=
  (∀ i, i < n → sparseGet t' i = sparseGet t i) ∧ ∀ i, i < ds.length → sparseGet t' (n + i) = ds[i]?

theorem Appended.nil (t : Table) (n : Nat) : Appended t t n [] :=
  ⟨fun _ _ => rfl, fun _ hi => absurd hi (Nat.not_lt_zero _)⟩

/-- Entry `n` written, then the entries after it. -/
theorem Appended.cons {t t' : Table} {n : Nat} {d : Desc} {ds : List Desc}
    (h : Appended (sparseSet t n d) t' (n + 1) ds) : Appended t t' n (d :: ds) := by
  obtain ⟨hkeep, hnew⟩ := h
  refine ⟨fun i hi => ?_, fun i hi => ?_⟩
  · rw [hkeep i (by omega), sparseGet_set_other _ _ (by omega)]
  · cases i with
    | zero => rw [Nat.add_zero, hkeep n (by omega), sparseGet_set_self]; rfl
    | succ i =>
      rw [← Nat.add_assoc, Nat.add_right_comm, hnew i (by simpa using hi)]
      rfl

/-- Where the loop of the Message engine ends from `M_LOOP` in `s`, for each answer of `DecodeMsg`'s loop. -/
def LoopEnds (s : State) : DecodeResult (List Desc) → Prop
  | .ok ds n => ∃ tb h, runSteps (7 * ds.length + 1) s = .next ((s.setAvpt tb).setHid h) ∧
      h.ph = .commit ∧ h.top = .msg ∧ h.sMsg = s.hid.sMsg ∧ h.cur.toNat = n ∧
      h.n.toNat = s.hid.n.toNat + ds.length ∧ Appended s.avpt tb s.hid.n.toNat ds
  | .err k c a => ∃ j tb h, runSteps j s = .next ((s.setAvpt tb).setHid h) ∧ FailsAs s.hid.base h k c a

/-- A running DECODE_MSG in `M_LOOP`, its buffer within a legal capacity. -/
structure AtLoop (s : State) : Prop where
  running : Running s
  ph : s.hid.ph = .mLoop
  cap : s.hid.lenL.toNat ≤ s.bufCap
  legal : s.bufCap ≤ Config.bufCapMax
  between : BetweenAvps s.hid

/-- The state after the loop has decoded and appended `d`, the cursor at `n`. -/
def loopNext (s : State) (d : Desc) (n : Nat) : State :=
  (s.setAvpt (sparseSet s.avpt s.hid.n.toNat d)).setHid
    { s.hid.avpDone d n with n := s.hid.n + 1, ph := .mLoop }

theorem AtLoop.phase {s : State} (h : AtLoop s) :
    phaseStep s = .next (s.setHid { s.hid with
      ph := if s.hid.cur.toNat - s.hid.base.toNat < s.hid.mlen.toNat then .aAvail else .commit }) := by
  rw [phaseStep_mLoop h.ph, phMLoop_eq]

/-- 42_decode_msg.md R186: the table has room for the next AVP of a Message. -/
theorem room_for_entry {cap base lenL mlen n : Nat} (hcap : lenL ≤ cap) (hm : mlen < 2 ^ 24)
    (hn : 20 + 8 * n < mlen) (hrec : base + 28 + 8 * n ≤ lenL) : n < Config.avptCap cap := by
  unfold Config.avptCap
  rw [if_neg (by omega)]
  omega

/-- One turn of the loop on an AVP that decodes: seven steps. -/
theorem AtLoop.turn {s : State} {d : Desc} {n : Nat} (h : AtLoop s)
    (hlt : s.hid.cur.toNat - s.hid.base.toNat < s.hid.mlen.toNat)
    (hd : decodeAvpAt (byteAt s) s.hid.lenL.toNat s.hid.cur.toNat = .ok d n) :
    runSteps 7 s = .next (loopNext s d n) ∧ AtLoop (loopNext s d n) ∧ (loopNext s d n).hid.cur.toNat = n ∧
      (loopNext s d n).hid.n.toNat = s.hid.n.toNat + 1 := by
  have hPhase := h.phase
  obtain ⟨hr, hp, hcap, hlegal, ⟨htop, hmlen⟩, hcur, hend⟩ := h
  have hmlt := s.hid.mlen.isLt
  obtain ⟨hhdr, hadv, hover⟩ := decodeAvpAt_ok_bounds hd
  have hroom := room_for_entry (n := s.hid.n.toNat) (base := s.hid.base.toNat) hcap hmlt (by omega) (by omega)
  rw [if_pos hlt] at hPhase
  have hEngine := avpEngine_ends (s := s.setHid { s.hid with ph := .aAvail }) hr rfl
  change AvpEnds _ (decodeAvpAt (byteAt s) s.hid.lenL.toNat s.hid.cur.toNat) at hEngine
  rw [hd] at hEngine
  have hAppend := phMAppend_of_lt
    (s := (s.setHid { s.hid with ph := .aAvail }).setHid (Hidden.avpDone { s.hid with ph := .aAvail } d n)) hroom
  have hn : (s.hid.n + 1).toNat = s.hid.n.toNat + 1 := by
    rw [BitVec.toNat_add_of_lt (by simp; omega)]
    rfl
  have hcurn : (BitVec.ofNat 32 n).toNat = n := by
    unfold Config.bufCapMax at hlegal
    exact (BitVec.toNat_ofNat n 32).trans (Nat.mod_eq_of_lt (by omega))
  refine ⟨runSteps_cons hr hPhase (runSteps_trans hEngine (runSteps_one hr ?_)), ?_, hcurn, hn⟩
  · exact (phaseStep_mAppend (by simp [Hidden.avpDone, htop, afterAvp])).trans hAppend
  · refine ⟨hr, rfl, hcap, hlegal, ⟨htop, hmlen⟩, ?_, ?_⟩
    · show s.hid.base.toNat + 20 + 8 * (s.hid.n + 1).toNat ≤ (BitVec.ofNat 32 n).toNat
      omega
    · show (BitVec.ofNat 32 n).toNat ≤ s.hid.lenL.toNat + 3
      omega

/-- The loop ends at once when the running offset has reached the declared length (42_decode_msg.md R175). -/
theorem AtLoop.stop {s : State} (h : AtLoop s) (hge : ¬ s.hid.cur.toNat - s.hid.base.toNat < s.hid.mlen.toNat) :
    LoopEnds s (.ok [] s.hid.cur.toNat) := by
  have hPhase := h.phase
  rw [if_neg hge] at hPhase
  exact ⟨s.avpt, _, runSteps_one h.running hPhase, rfl, h.between.1.1, rfl, rfl, rfl, .nil _ _⟩

/-- An AVP of the Message that does not decode fails the command. -/
theorem AtLoop.avp_fails {s : State} {k : ErrKind} {c : Cause} {a : Nat} (h : AtLoop s)
    (hlt : s.hid.cur.toNat - s.hid.base.toNat < s.hid.mlen.toNat)
    (hd : decodeAvpAt (byteAt s) s.hid.lenL.toNat s.hid.cur.toNat = .err k c a) :
    ∃ j tb h', runSteps j s = .next ((s.setAvpt tb).setHid h') ∧ FailsAs s.hid.base h' k c a := by
  have hPhase := h.phase
  rw [if_pos hlt] at hPhase
  have hEngine := avpEngine_ends (s := s.setHid { s.hid with ph := .aAvail }) h.running rfl
  change AvpEnds _ (decodeAvpAt (byteAt s) s.hid.lenL.toNat s.hid.cur.toNat) at hEngine
  rw [hd] at hEngine
  obtain ⟨h', hrun, hfail⟩ := hEngine
  exact ⟨_, s.avpt, h', runSteps_cons h.running hPhase hrun, hfail⟩

/-- The loop of the Message engine agrees with `DecodeMsg`'s, given fuel for the bytes still to come. -/
theorem AtLoop.ends {s : State} {fuel : Nat} (h : AtLoop s)
    (hf : s.hid.mlen.toNat ≤ fuel + (s.hid.cur.toNat - s.hid.base.toNat)) :
    LoopEnds s (decodeAvpsAt (byteAt s) s.hid.lenL.toNat s.hid.base.toNat s.hid.mlen.toNat fuel s.hid.cur.toNat) := by
  induction fuel generalizing s with
  | zero => exact h.stop (by omega)
  | succ fuel ih =>
    by_cases hlt : s.hid.cur.toNat - s.hid.base.toNat < s.hid.mlen.toNat
    · rcases decodeAvpsAt_turn (byteAt s) s.hid.lenL.toNat _ _ fuel _ hlt with
        ⟨k, c, a, hd, e⟩ | ⟨d, n, hd, hrest⟩
      · rw [e]
        exact h.avp_fails hlt hd
      · obtain ⟨h7, hnext, hcur, hn⟩ := h.turn hlt hd
        have hadv := (decodeAvpAt_ok_bounds hd).2.1
        have hbase := h.between.2.1
        have hrec := ih hnext (by rw [hcur]; show s.hid.mlen.toNat ≤ fuel + (n - s.hid.base.toNat); omega)
        rw [hcur] at hrec
        change LoopEnds _ (decodeAvpsAt (byteAt s) s.hid.lenL.toNat s.hid.base.toNat s.hid.mlen.toNat fuel n) at hrec
        rcases hrest with ⟨k, c, a, e', e⟩ | ⟨ds, n', e', e⟩ <;> rw [e] <;> rw [e'] at hrec
        · obtain ⟨j, tb, h', hrun, hfail⟩ := hrec
          exact ⟨7 + j, tb, h', runSteps_trans h7 hrun, hfail⟩
        · obtain ⟨tb, h', hrun, hph, htop, hmsg, hc, hcount, happ⟩ := hrec
          rw [hn] at hcount happ
          refine ⟨tb, h', ?_, hph, htop, hmsg, hc, ?_, happ.cons⟩
          · have e7 : 7 * (d :: ds).length + 1 = 7 + (7 * ds.length + 1) := by simp only [List.length_cons]; omega
            rw [e7]
            exact runSteps_trans h7 hrun
          · simp only [List.length_cons]; omega
    · rw [decodeAvpsAt_stop _ _ _ _ _ _ hlt]
      exact h.stop hlt

end Sys2Proof.Machine
end

section
/-! DECODE_MSG from `M_AVAIL` to `COMMIT` or `FAIL` (44_fsm.md R238 to R243, R247). -/

namespace Sys2Proof.Machine

/-- Everything `DecodeMsg` can answer (42_decode_msg.md R170), in the order of its checks. -/
theorem decodeMsgAt_cases (read : Nat → Byte) (bufLen s : Nat) :
    (availableAt bufLen s < 20 ∧ decodeMsgAt read bufLen s = .err .structural .msgHdrShort s) ∨
    ∃ l, 20 ≤ availableAt bufLen s ∧ l = beRead read (s + 1) 3 ∧ l < 2 ^ 24 ∧
      ((l < 20 ∧ decodeMsgAt read bufLen s = .err .structural .msgLenLtHdr s) ∨
       (20 ≤ l ∧ availableAt bufLen s < l ∧ decodeMsgAt read bufLen s = .err .structural .msgLenGtAvail s) ∨
       (20 ≤ l ∧ l ≤ availableAt bufLen s ∧
        ((∃ k c a, decodeAvpsAt read bufLen s l l (s + 20) = .err k c a ∧ decodeMsgAt read bufLen s = .err k c a) ∨
         (∃ ds n, decodeAvpsAt read bufLen s l l (s + 20) = .ok ds n ∧
          decodeMsgAt read bufLen s = .ok { scalars := scalarsAt read s, avps := ds } n)))) := by
  unfold decodeMsgAt
  dsimp only
  by_cases h : availableAt bufLen s < 20
  · exact .inl ⟨h, if_pos h⟩
  refine .inr ⟨_, by omega, rfl, beRead_lt _ _ 3, ?_⟩
  rw [if_neg h]
  generalize beRead read (s + 1) 3 = l
  by_cases h1 : l < 20
  · exact .inl ⟨h1, if_pos h1⟩
  by_cases h2 : availableAt bufLen s < l
  · exact .inr (.inl ⟨by omega, h2, by rw [if_neg h1, if_pos h2]⟩)
  refine .inr (.inr ⟨by omega, by omega, ?_⟩)
  rw [if_neg h1, if_neg h2]
  cases decodeAvpsAt read bufLen s l l (s + 20) with
  | err k c a => exact .inl ⟨k, c, a, rfl, rfl⟩
  | ok ds n => exact .inr ⟨ds, n, rfl, rfl⟩

/-- The state in `M_LOOP` after a header that passed the checks (44_fsm.md R238 to R241). -/
def loopStart (s : State) : State :=
  s.setHid { s.hid with
    avail := bytesLeft s.hid.lenL s.hid.base, mlen := BitVec.ofNat 24 (beRead (byteAt s) (s.hid.base.toNat + 1) 3),
    sMsg := scalarsAt (byteAt s) s.hid.base.toNat, cur := BitVec.ofNat 32 (s.hid.base.toNat + 20), ph := .mLoop }

section
variable {s : State} (hs : Running s) (hp : s.hid.ph = .mAvail)
include hs hp

theorem msgHeader_ok (h20 : 20 ≤ beRead (byteAt s) (s.hid.base.toNat + 1) 3)
    (hle : s.hid.base.toNat + beRead (byteAt s) (s.hid.base.toNat + 1) 3 ≤ s.hid.lenL.toNat) :
    runSteps 4 s = .next (loopStart s) := by
  have hlen : (BitVec.ofNat 24 (beRead (byteAt s) (s.hid.base.toNat + 1) 3)).toNat = _ :=
    (BitVec.toNat_ofNat _ 24).trans (Nat.mod_eq_of_lt (beRead_lt (byteAt s) _ 3))
  exact runSteps_of_msgHeader (t := loopStart s) hs hp (by omega) (execMsgh_ok (by omega) (by omega))

theorem msgHeader_badLength {l : Nat} (hl : l = beRead (byteAt s) (s.hid.base.toNat + 1) 3)
    (hin : s.hid.base.toNat + 20 ≤ s.hid.lenL.toNat) (hbad : l < 20 ∨ s.hid.lenL.toNat < s.hid.base.toNat + l) :
    ∃ h, runSteps 3 s = .next (s.setHid h) ∧
      FailsAs s.hid.base h .structural (if l < 20 then .msgLenLtHdr else .msgLenGtAvail) s.hid.base.toNat := by
  have hlen : (BitVec.ofNat 24 l).toNat = l :=
    (BitVec.toNat_ofNat _ 24).trans (Nat.mod_eq_of_lt (hl ▸ beRead_lt (byteAt s) _ 3))
  have hrun := runSteps_of_msgHeader hs hp hin (execMsgh_badLength hin (by rw [← hl]; omega))
  rw [← hl, hlen] at hrun
  exact ⟨_, hrun, rfl, rfl, rfl, rfl, rfl⟩

end

/-- Where DECODE_MSG ends from `M_AVAIL` in `s`, for each answer of `DecodeMsg`. -/
def MsgEnds (s : State) : DecodeResult Message → Prop
  | .ok m n => ∃ tb h, runSteps (4 + 7 * m.avps.length + 1) s = .next ((s.setAvpt tb).setHid h) ∧
      h.ph = .commit ∧ h.top = .msg ∧ h.sMsg = m.scalars ∧ h.cur.toNat = n ∧ h.n.toNat = m.avps.length ∧
      ∀ i, i < m.avps.length → sparseGet tb i = m.avps[i]?
  | .err k c a => ∃ j tb h, runSteps j s = .next ((s.setAvpt tb).setHid h) ∧ FailsAs s.hid.base h k c a

/-- The Message engine agrees with `DecodeMsg` at `BASE`. -/
theorem msgEngine_ends {s : State} (hs : Running s) (hp : s.hid.ph = .mAvail) (hst : MsgStart s.hid)
    (hcap : s.hid.lenL.toNat ≤ s.bufCap) (hlegal : s.bufCap ≤ Config.bufCapMax) :
    MsgEnds s (decodeMsgAt (byteAt s) s.hid.lenL.toNat s.hid.base.toNat) := by
  obtain ⟨htop, -, hn0⟩ := hst
  rcases decodeMsgAt_cases (byteAt s) s.hid.lenL.toNat s.hid.base.toNat with ⟨h20, e⟩ | ⟨l, h20, hl, hlt, hcases⟩ <;>
    rw [availableAt_eq] at h20
  · rw [e]
    exact ⟨1, s.avpt, _, runSteps_one hs ((phaseStep_mAvail hp).trans (congrArg _ (phMAvail_of_lt (by omega)))),
      rfl, rfl, rfl, rfl, rfl⟩
  have badLength := msgHeader_badLength hs hp hl (by omega)
  rw [availableAt_eq] at hcases
  rcases hcases with ⟨hlt, e⟩ | ⟨hge, hgt, e⟩ | ⟨hge, hle, hloop⟩
  · obtain ⟨h, hrun, hfail⟩ := badLength (.inl hlt)
    rw [if_pos hlt] at hfail
    rw [e]
    exact ⟨3, s.avpt, h, hrun, hfail⟩
  · obtain ⟨h, hrun, hfail⟩ := badLength (.inr (by omega))
    rw [if_neg (by omega)] at hfail
    rw [e]
    exact ⟨3, s.avpt, h, hrun, hfail⟩
  have h4 := msgHeader_ok hs hp (by omega) (by omega)
  have hlen : (loopStart s).hid.mlen.toNat = l := by
    unfold loopStart
    rw [← hl]
    exact (BitVec.toNat_ofNat l 24).trans (Nat.mod_eq_of_lt hlt)
  have hcur : (loopStart s).hid.cur.toNat = s.hid.base.toNat + 20 :=
    (BitVec.toNat_ofNat _ 32).trans (Nat.mod_eq_of_lt (by have := s.hid.lenL.isLt; omega))
  have hn : (loopStart s).hid.n.toNat = 0 := congrArg BitVec.toNat hn0
  have hbase : (loopStart s).hid.base.toNat = s.hid.base.toNat := rfl
  have hlenL : (loopStart s).hid.lenL.toNat = s.hid.lenL.toNat := rfl
  have hat : AtLoop (loopStart s) :=
    ⟨hs, rfl, hcap, hlegal, ⟨htop, by omega, by omega, rfl⟩, by omega, by omega⟩
  have hend := hat.ends (fuel := l) (by omega)
  rw [hlen, hcur] at hend
  change LoopEnds _ (decodeAvpsAt (byteAt s) s.hid.lenL.toNat s.hid.base.toNat l l (s.hid.base.toNat + 20)) at hend
  rcases hloop with ⟨k, c, a, el, e⟩ | ⟨ds, n, el, e⟩ <;> rw [e] <;> rw [el] at hend
  · obtain ⟨j, tb, h, hrun, hfail⟩ := hend
    exact ⟨4 + j, tb, h, runSteps_trans h4 hrun, hfail⟩
  · obtain ⟨tb, h, hrun, hph, htop', hmsg, hc, hcount, -, hnew⟩ := hend
    simp only [hn, Nat.zero_add] at hcount hnew
    have hall := runSteps_trans h4 hrun
    rw [← Nat.add_assoc] at hall
    exact ⟨tb, h, hall, hph, htop', hmsg, hc, hcount, hnew⟩

end Sys2Proof.Machine
end

section
/-! The functions read the buffer below `BUF_LEN` alone (00_scope.md R3, 20_memory.md R66). -/

namespace Sys2Proof.Machine

section
variable {read read' : Nat → Byte} {bufLen : Nat} (h : ∀ a, a < bufLen → read a = read' a)
include h

theorem beRead_congr_below {a n : Nat} (hin : a + n ≤ bufLen) : beRead read a n = beRead read' a n :=
  beRead_congr fun b _ hb => h b (by omega)

theorem decodeAvpAt_congr_below (s : Nat) : decodeAvpAt read bufLen s = decodeAvpAt read' bufLen s := by
  unfold decodeAvpAt
  by_cases h8 : availableAt bufLen s < 8
  · simp only [if_pos h8]
  have hav := availableAt_eq bufLen s
  simp only [beRead_congr_below h (show s + 4 ≤ bufLen by omega),
    beRead_congr_below h (show s + 4 + 1 ≤ bufLen by omega),
    beRead_congr_below h (show s + 5 + 3 ≤ bufLen by omega)]
  generalize (BitVec.ofNat 8 (beRead read' (s + 4) 1) : Byte) = f
  generalize beRead read' (s + 5) 3 = l
  by_cases hlen : l < headerSize f
  · simp only [if_pos hlen]
  by_cases hgt : availableAt bufLen s < l
  · simp only [if_pos hgt]
  have hvid : (if hasVendorId f then beRead read (s + 8) 4 else 0) =
      if hasVendorId f then beRead read' (s + 8) 4 else 0 := by
    split
    · next hv => exact beRead_congr_below h (by simp only [headerSize, hv, if_true] at hlen; omega)
    · rfl
  rw [hvid]

theorem decodeAvpsAt_congr_below (s m fuel cur : Nat) :
    decodeAvpsAt read bufLen s m fuel cur = decodeAvpsAt read' bufLen s m fuel cur := by
  induction fuel generalizing cur with
  | zero => rfl
  | succ fuel ih => simp only [decodeAvpsAt, decodeAvpAt_congr_below h, ih]

theorem scalarsAt_congr_below {s : Nat} (hin : s + 20 ≤ bufLen) : scalarsAt read s = scalarsAt read' s := by
  unfold scalarsAt
  simp (disch := omega) only [beRead_congr_below h]

theorem decodeMsgAt_congr_below (s : Nat) : decodeMsgAt read bufLen s = decodeMsgAt read' bufLen s := by
  unfold decodeMsgAt
  by_cases h20 : availableAt bufLen s < 20
  · simp only [if_pos h20]
  have hav := availableAt_eq bufLen s
  simp only [beRead_congr_below h (show s + 1 + 3 ≤ bufLen by omega), decodeAvpsAt_congr_below h,
    scalarsAt_congr_below h (show s + 20 ≤ bufLen by omega)]

end

end Sys2Proof.Machine
end

section
/-! The decode commands from accept to DONE (43_host_commands.md R206, R207), with no host move pending, and that what
they leave for the host depends on the inputs alone (00_scope.md R3). -/

namespace Sys2Proof.Machine

/-- The registers after the fail step of a command accepted with the registers `r` (60_exceptions.md R280). -/
def Regs.failed (r : Regs) (c : Cause) (a : Nat) : Regs :=
  { r with err := { kind := ErrKind.structural.code, cause := c.code }, errOffset := BitVec.ofNat 32 a,
           newOffset := r.offset, status := .doneErr }

/-- The registers DECODE_AVP ends with, accepted with the registers `r` (41_decode_avp.md R151). -/
def Regs.avpResult (r : Regs) : DecodeResult Desc → Regs
  | .ok d n => { r with avp := d, newOffset := BitVec.ofNat 32 n, status := .doneOk }
  | .err _ c a => r.failed c a

/-- The registers DECODE_MSG ends with, accepted with the registers `r` (42_decode_msg.md R179). -/
def Regs.msgResult (r : Regs) : DecodeResult Message → Regs
  | .ok m n => { r with msg := m.scalars, avpCount := BitVec.ofNat 22 m.avps.length, newOffset := BitVec.ofNat 32 n,
                        status := .doneOk }
  | .err _ c a => r.failed c a

/-- The valid table entries after DECODE_MSG (42_decode_msg.md R179). -/
def entriesOf : DecodeResult Message → List Desc
  | .ok m _ => m.avps
  | .err _ _ _ => []

/-- Run with no host move pending, `s` ends DONE with the registers `r` and the valid table entries `ds`. -/
def Finishes (s : State) (r : Regs) (ds : List Desc) : Prop :=
  ∃ k t, runSteps k s = .next t ∧ t.turns = [] ∧ t.regs = r ∧ r.status.isDone = true ∧ t.done = true ∧
    ∀ j, j < r.avpCount.toNat → sparseGet t.avpt j = ds[j]?

/-- Two runs that finish alike do so within a common number of steps: a block that is DONE stays as it is. -/
theorem Finishes.together {s s' : State} {r : Regs} {ds : List Desc} (h : Finishes s r ds) (h' : Finishes s' r ds) :
    ∃ (t t' : State) (k : Nat), runSteps k s = .next t ∧ runSteps k s' = .next t' ∧ t.regs.status.isDone = true ∧
      t.regs = t'.regs ∧ t.done = t'.done ∧
      ∀ j, j < t.regs.avpCount.toNat → sparseGet t.avpt j = sparseGet t'.avpt j := by
  obtain ⟨k, t, hk, ht, rfl, hd, hdone, htab⟩ := h
  obtain ⟨k', t', hk', ht', hr, -, hdone', htab'⟩ := h'
  have quiet : t.regs.status ≠ .busy := fun hb => by rw [hb] at hd; cases hd
  refine ⟨t, t', k + k', runSteps_trans hk (runSteps_of_quiet quiet ht k'), ?_, hd, hr.symm, hdone.trans hdone'.symm,
    fun j hj => (htab j hj).trans (htab' j hj).symm⟩
  rw [Nat.add_comm]
  exact runSteps_trans hk' (runSteps_of_quiet (hr ▸ quiet) ht' k)

/-- A command in `FAIL` finishes by the fail step. -/
theorem finishes_of_fails {s : State} {j : Nat} {tb : Table} {h : Hidden} {k : ErrKind} {c : Cause} {a : Nat}
    {ds : List Desc} (hs : Running s) (hcount : s.regs.avpCount = 0)
    (hrun : runSteps j s = .next ((s.setAvpt tb).setHid h)) (hf : FailsAs s.regs.offset h k c a) :
    Finishes s (s.regs.failed c a) ds := by
  obtain ⟨-, hph, hcause, heat, hbase⟩ := hf
  refine ⟨j + 1, _, runSteps_trans hrun (runSteps_one hs (phaseStep_fail hph)), hs.2, ?_, rfl, rfl, fun i hi => ?_⟩
  · simp [failStep, Regs.failed, hcause, hbase, ← heat]
  · exact absurd hi (by simp [Regs.failed, hcount])

/-- DECODE_AVP, accepted, finishes as `DecodeAvp` answers. -/
theorem decodeAvp_finishes {s : State} (ht : s.turns = []) :
    Finishes (acceptStep .avp 1 s)
      ((acceptStep .avp 1 s).regs.avpResult (decodeAvpAt (byteAt s) s.regs.bufLen.toNat s.regs.offset.toNat)) [] := by
  have hs : Running (acceptStep .avp 1 s) := ⟨rfl, ht⟩
  have hend := avpEngine_ends hs rfl
  change AvpEnds _ (decodeAvpAt (byteAt s) s.regs.bufLen.toNat s.regs.offset.toNat) at hend
  cases hres : decodeAvpAt (byteAt s) s.regs.bufLen.toNat s.regs.offset.toNat with
  | ok d n =>
    rw [hres] at hend
    exact ⟨5 + 1, _, runSteps_trans hend (runSteps_one hs (phaseStep_commit rfl)), ht, rfl, rfl, rfl,
      fun i hi => absurd hi (Nat.not_lt_zero i)⟩
  | err k c a =>
    rw [hres] at hend
    obtain ⟨h, hrun, hfail⟩ := hend
    exact finishes_of_fails hs rfl (tb := s.avpt) hrun hfail

/-- DECODE_MSG, accepted, finishes as `DecodeMsg` answers. -/
theorem decodeMsg_finishes {s : State} (ht : s.turns = []) (hcap : s.regs.bufLen.toNat ≤ s.bufCap)
    (hlegal : s.bufCap ≤ Config.bufCapMax) :
    Finishes (acceptStep .msg 2 s)
      ((acceptStep .msg 2 s).regs.msgResult (decodeMsgAt (byteAt s) s.regs.bufLen.toNat s.regs.offset.toNat))
      (entriesOf (decodeMsgAt (byteAt s) s.regs.bufLen.toNat s.regs.offset.toNat)) := by
  have hs : Running (acceptStep .msg 2 s) := ⟨rfl, ht⟩
  have hend := msgEngine_ends hs rfl ⟨rfl, rfl, rfl⟩ hcap hlegal
  change MsgEnds _ (decodeMsgAt (byteAt s) s.regs.bufLen.toNat s.regs.offset.toNat) at hend
  cases hres : decodeMsgAt (byteAt s) s.regs.bufLen.toNat s.regs.offset.toNat with
  | ok m n =>
    rw [hres] at hend
    obtain ⟨tb, h, hrun, hph, htop, hmsg, hcur, hn, htab⟩ := hend
    have hcommit : phCommit (((acceptStep .msg 2 s).setAvpt tb).setHid h) =
        commitMsg (((acceptStep .msg 2 s).setAvpt tb).setHid h) := by
      simp only [phCommit, State.setHid_hid, htop]
    have hcount : BitVec.ofNat 22 m.avps.length = h.n := by rw [← hn, BitVec.ofNat_toNat, BitVec.setWidth_eq]
    refine ⟨_, _, runSteps_trans hrun (runSteps_one hs ((phaseStep_commit hph).trans (congrArg _ hcommit))), ht, ?_,
      rfl, rfl, fun j hj => htab j ?_⟩
    · simp [commitMsg, Regs.msgResult, hcount, hmsg, ← hcur]
    · simp only [Regs.msgResult, hcount, hn] at hj
      exact hj
  | err k c a =>
    rw [hres] at hend
    obtain ⟨j, tb, h, hrun, hfail⟩ := hend
    exact finishes_of_fails hs rfl hrun hfail

/-- A decode command within the capacity is accepted when the block is not BUSY. -/
theorem accept_of_quiet {top : Top} {w : BitVec 2} {s : State} (hb : s.regs.status ≠ .busy)
    (hl : s.regs.bufLen.toNat ≤ s.bufCap) : accept top w s = .next (acceptStep top w s) := by
  rw [accept, if_neg hb, if_pos hl]

/-- Of the registers, accept keeps the operands alone (43_host_commands.md R206). -/
theorem acceptStep_regs_congr {s s' : State} (top : Top) (w : BitVec 2) (hlen : s.regs.bufLen = s'.regs.bufLen)
    (hoff : s.regs.offset = s'.regs.offset) : (acceptStep top w s).regs = (acceptStep top w s').regs := by
  simp [acceptStep, clearResults, hlen, hoff]

/-- Settles O52: each command finishes as its function answers (`decodeAvp_finishes`, `decodeMsg_finishes`), and the
function sees the bytes below `BUF_LEN` alone. -/
theorem resultDependsOnTheInputsOnly : Obligations.ResultDependsOnTheInputsOnly := by
  intro i s s' hi hinv hinv' hb hb' ht ht' hl hl' hlen hoff hbytes
  rcases hi with rfl | rfl
  · have h := decodeAvp_finishes ht
    have h' := decodeAvp_finishes ht'
    rw [← hlen, ← hoff, ← decodeAvpAt_congr_below hbytes, ← acceptStep_regs_congr _ _ hlen hoff] at h'
    obtain ⟨t, t', k, hboth⟩ := h.together h'
    exact ⟨_, _, t, t', k, accept_of_quiet hb hl, accept_of_quiet hb' hl', hboth⟩
  · have h := decodeMsg_finishes ht hl hinv.cap
    have h' := decodeMsg_finishes ht' hl' hinv'.cap
    rw [← hlen, ← hoff, ← decodeMsgAt_congr_below hbytes, ← acceptStep_regs_congr _ _ hlen hoff] at h'
    obtain ⟨t, t', k, hboth⟩ := h.together h'
    exact ⟨_, _, t, t', k, accept_of_quiet hb hl, accept_of_quiet hb' hl', hboth⟩

end Sys2Proof.Machine
end

section
/-! What one transition, instruction or host move can leave, as a new state; and from that the line `done`
(10_state.md R50): it is written where `STATUS` enters or leaves a DONE state, and nowhere else. -/

namespace Sys2Proof.Machine

theorem phAHdr_eq_next {s t : State} (h : phAHdr s = .next t) : ∃ h', t = s.setHid h' := by
  obtain ⟨_, -, h⟩ := withRead_eq_next h
  obtain ⟨_, -, h⟩ := withRead_eq_next h
  obtain ⟨_, -, h⟩ := withRead_eq_next h
  cases h
  exact ⟨_, rfl⟩

theorem phMLen_eq_next {s t : State} (h : phMLen s = .next t) : ∃ h', t = s.setHid h' := by
  obtain ⟨_, -, h⟩ := withRead_eq_next h
  obtain ⟨_, -, h⟩ := withRead_eq_next h
  cases h
  exact ⟨_, rfl⟩

theorem phMHdr_eq_next {s t : State} (h : phMHdr s = .next t) : ∃ h', t = s.setHid h' := by
  obtain ⟨_, -, h⟩ := withRead_eq_next h
  obtain ⟨_, -, h⟩ := withRead_eq_next h
  obtain ⟨_, -, h⟩ := withRead_eq_next h
  obtain ⟨_, -, h⟩ := withRead_eq_next h
  obtain ⟨_, -, h⟩ := withRead_eq_next h
  cases h
  exact ⟨_, rfl⟩

theorem phMAppend_eq_next {s t : State} (h : phMAppend s = .next t) : ∃ tb h', t = (s.setAvpt tb).setHid h' := by
  by_cases hn : s.hid.n.toNat < Config.avptCap s.bufCap
  · rw [phMAppend_of_lt hn] at h
    cases h
    exact ⟨_, _, rfl⟩
  · rw [phMAppend, if_neg hn] at h
    cases h

/-- A transition writes the table and the hidden registers alone, unless it ends the command (44_fsm.md R246). -/
theorem phaseStep_eq_next {s t : State} (h : phaseStep s = .next t) :
    (∃ tb h', t = (s.setAvpt tb).setHid h') ∨ t = phCommit s ∨ t = failStep s := by
  have hidOnly : (∃ h', t = s.setHid h') → ∃ tb h', t = (s.setAvpt tb).setHid h' := fun ⟨h', e⟩ => ⟨s.avpt, h', e⟩
  cases hp : s.hid.ph with
  | aAvail => rw [phaseStep_aAvail hp, phAAvail_eq] at h; cases h; exact .inl (hidOnly ⟨_, rfl⟩)
  | aHdr => exact .inl (hidOnly (phAHdr_eq_next (phaseStep_aHdr hp ▸ h)))
  | aCheck => rw [phaseStep_aCheck hp, phACheck_eq] at h; cases h; exact .inl (hidOnly ⟨_, rfl⟩)
  | aVid =>
    obtain ⟨v, rfl⟩ := phAVid_eq_next (phaseStep_aVid hp ▸ h)
    exact .inl (hidOnly ⟨_, rfl⟩)
  | aAdv => rw [phaseStep_aAdv hp] at h; cases h; exact .inl (hidOnly ⟨_, rfl⟩)
  | mAvail => rw [phaseStep_mAvail hp, phMAvail_eq] at h; cases h; exact .inl (hidOnly ⟨_, rfl⟩)
  | mLen => exact .inl (hidOnly (phMLen_eq_next (phaseStep_mLen hp ▸ h)))
  | mCheck => rw [phaseStep_mCheck hp, phMCheck_eq] at h; cases h; exact .inl (hidOnly ⟨_, rfl⟩)
  | mHdr => exact .inl (hidOnly (phMHdr_eq_next (phaseStep_mHdr hp ▸ h)))
  | mLoop => rw [phaseStep_mLoop hp, phMLoop_eq] at h; cases h; exact .inl (hidOnly ⟨_, rfl⟩)
  | mAppend => exact .inl (phMAppend_eq_next (phaseStep_mAppend hp ▸ h))
  | commit => rw [phaseStep_commit hp] at h; cases h; exact .inr (.inl rfl)
  | fail => rw [phaseStep_fail hp] at h; cases h; exact .inr (.inr rfl)

/-- An AVP record writes the hidden registers alone (41_decode_avp.md R152, R153). -/
theorem avpRecord_eq_setHid (code : Word) (flags : Byte) (len : U24) (s : State) :
    ∃ h, avpRecord code flags len s = .next (s.setHid h) := by
  by_cases h8 : s.hid.lenL.toNat < s.hid.cur.toNat + 8
  · exact ⟨_, avpRecord_short h8⟩
  by_cases hbad : len.toNat < headerSize flags ∨ s.hid.lenL.toNat < s.hid.cur.toNat + len.toNat
  · exact ⟨_, avpRecord_badLength (by omega) hbad⟩
  · exact ⟨_, avpRecord_ok (by omega) (by omega)⟩

/-- A Message header writes the hidden registers alone (42_decode_msg.md R171 to R174). -/
theorem execMsgh_eq_setHid (version : Byte) (len : U24) (flags : Byte) (cc : U24) (app hbh e2e : Word) (s : State) :
    ∃ h, execMsgh version len flags cc app hbh e2e s = .next (s.setHid h) := by
  by_cases h20 : s.hid.lenL.toNat < s.hid.base.toNat + 20
  · exact ⟨_, execMsgh_short h20⟩
  by_cases hbad : len.toNat < 20 ∨ s.hid.lenL.toNat < s.hid.base.toNat + len.toNat
  · exact ⟨_, execMsgh_badLength (by omega) hbad⟩
  · exact ⟨_, execMsgh_ok (by omega) (by omega)⟩

/-- An instruction is dropped, clears, is accepted, or writes the hidden registers alone. -/
theorem exec_eq_next {i : Instr} {s t : State} (h : exec i s = .next t) :
    (∃ h', t = s.setHid h') ∨ t = clearStep s ∨ ∃ top w, t = acceptStep top w s := by
  have accepted {top w} (h : accept top w s = .next t) : (∃ h', t = s.setHid h') ∨ t = acceptStep top w s := by
    rcases accept_cases top w s with ⟨-, e⟩ | ⟨-, -, e⟩ | ⟨-, -, e⟩ <;> rw [e] at h <;> cases h
    · exact .inl ⟨s.hid, rfl⟩
    · exact .inr rfl
  cases i with
  | clear =>
    rcases execClear_cases s with ⟨-, e⟩ | ⟨-, e⟩ <;> cases e.symm.trans h
    · exact .inl ⟨s.hid, rfl⟩
    · exact .inr (.inl rfl)
  | decodeAvp => exact (accepted h).imp_right fun e => .inr ⟨_, _, e⟩
  | decodeMsg => exact (accepted h).imp_right fun e => .inr ⟨_, _, e⟩
  | avp8 code m p rsv len =>
    obtain ⟨h', e⟩ := avpRecord_eq_setHid code (flagsByte false m p rsv) len s
    cases e.symm.trans h
    exact .inl ⟨h', rfl⟩
  | avp12 code m p rsv len =>
    obtain ⟨h', e⟩ := avpRecord_eq_setHid code (flagsByte true m p rsv) len s
    cases e.symm.trans h
    exact .inl ⟨h', rfl⟩
  | msgh version len flags cc app hbh e2e =>
    obtain ⟨h', e⟩ := execMsgh_eq_setHid version len flags cc app hbh e2e s
    cases e.symm.trans h
    exact .inl ⟨h', rfl⟩

/-- `s` and `t` agree in the line `done` and in `STATUS`. -/
def SameStatus (s t : State) : Prop :=
  t.done = s.done ∧ t.regs.status = s.regs.status

theorem storeReg_sameStatus (off : Nat) (v : Word) (s : State) : SameStatus s (storeReg off v s) := by
  unfold storeReg
  split
  · exact ⟨rfl, rfl⟩
  · split <;> exact ⟨rfl, rfl⟩

theorem tableRead_sameStatus (off : Nat) (s : State) : SameStatus s (tableRead off s) := by
  unfold tableRead
  split <;> exact ⟨rfl, rfl⟩

theorem hostWriteReg_sameStatus {size off : Nat} {v : Word} {s t : State} (h : hostWriteReg size off v s = .next t) :
    SameStatus s t := by
  unfold hostWriteReg at h
  split at h
  · split at h <;> cases h
    exact storeReg_sameStatus off v s
  · cases h

/-- A host move other than reset and a write to `CMD` leaves the line and `STATUS` (43_host_commands.md R201 to R204). -/
theorem hostMove_sameStatus {m : HostMove} {s t : State} (h : hostMove m s = .next t) :
    SameStatus s t ∨ t = resetStep s := by
  cases m with
  | rdReg size off =>
    simp only [hostMove, hostReadReg] at h
    split at h
    · split at h <;> cases h
      exact .inl ⟨rfl, rfl⟩
    · cases h
  | wrReg size off v => exact .inl (hostWriteReg_sameStatus h)
  | wrRegLast size off => exact .inl (hostWriteReg_sameStatus h)
  | rdTbl size off =>
    simp only [hostMove, hostReadTbl] at h
    split at h
    · split at h <;> cases h
      exact .inl (tableRead_sameStatus off s)
    · cases h
  | rdBuf addr =>
    simp only [hostMove, hostReadBuf] at h
    split at h <;> cases h
    exact .inl ⟨rfl, rfl⟩
  | wrBuf addr v =>
    simp only [hostMove, hostWriteBuf] at h
    split at h
    · split at h <;> cases h
      exact .inl ⟨rfl, rfl⟩
    · cases h
  | reset => cases h; exact .inr rfl

/-- The line is at the level `STATUS` asks for: the clause `done` of `Inv`, which every step keeps by itself. -/
def DoneFollows (s : State) : Prop :=
  s.done = s.regs.status.isDone

theorem DoneFollows.of_sameStatus {s t : State} (hs : DoneFollows s) (h : SameStatus s t) : DoneFollows t := by
  obtain ⟨hd, hst⟩ := h
  rw [DoneFollows, hd, hst]
  exact hs

theorem phCommit_doneFollows (s : State) : DoneFollows (phCommit s) := by
  unfold phCommit
  cases s.hid.top <;> rfl

theorem parserTurn_keeps_doneFollows {s t : State} (hs : DoneFollows s) (h : parserTurn s = .next t) :
    DoneFollows t := by
  unfold parserTurn at h
  split at h
  · rcases phaseStep_eq_next h with ⟨tb, h', rfl⟩ | rfl | rfl
    · exact hs
    · exact phCommit_doneFollows s
    · exact rfl
  · cases h; exact hs

theorem exec_keeps_doneFollows {i : Instr} {s t : State} (hs : DoneFollows s) (h : exec i s = .next t) :
    DoneFollows t := by
  rcases exec_eq_next h with ⟨h', rfl⟩ | rfl | ⟨top, w, rfl⟩
  · exact hs
  · exact rfl
  · exact rfl

theorem hostMove_keeps_doneFollows {m : HostMove} {s t : State} (hs : DoneFollows s) (h : hostMove m s = .next t) :
    DoneFollows t := by
  rcases hostMove_sameStatus h with hsame | rfl
  · exact hs.of_sameStatus hsame
  · exact rfl

theorem step_keeps_doneFollows {s t : State} (hs : DoneFollows s) (h : step s = .next t) : DoneFollows t := by
  rcases step_cases s with ⟨ts, v, e⟩ | ⟨ts, i, e, -⟩ | ⟨m, ts, -, e⟩ | ⟨ts, v, e⟩ <;> rw [e] at h
  · exact parserTurn_keeps_doneFollows (s := (s.setRdata v).setTurns ts) hs h
  · exact exec_keeps_doneFollows (s := s.setTurns ts) hs h
  · exact hostMove_keeps_doneFollows (s := s.setTurns ts) hs h
  · cases h; exact hs

theorem Reachable.doneFollows {s : State} (hs : Reachable s) : DoneFollows s := by
  induction hs with
  | reset cap turns hcap => exact rfl
  | step s t _ h ih => exact step_keeps_doneFollows ih h

theorem RunState.isDone_iff (r : RunState) : r.isDone = true ↔ r = .doneOk ∨ r = .doneErr := by
  cases r <;> decide

/-- Settles O57: the line follows `STATUS` from reset on, and every step keeps that (`step_keeps_doneFollows`). -/
theorem doneLineFollowsStatus : Obligations.DoneLineFollowsStatus := by
  intro s hs
  rw [hs.doneFollows]
  exact s.regs.status.isDone_iff

end Sys2Proof.Machine
end

section
/-! SUPPORT. 20_memory.md R67: the data slice of a decoded AVP lies inside the buffer, the padding behind it need not. -/

namespace Sys2Proof.Machine

/-- The lengths and the data offset of a decoded AVP as naturals; the record without its padding lies in the buffer. -/
theorem decodeAvpAt_ok_layout {read : Nat → Byte} {bufLen s n : Nat} {d : Desc} (hcap : bufLen ≤ Config.bufCapMax)
    (h : decodeAvpAt read bufLen s = .ok d n) :
    headerSize d.flags + d.dataLen.toNat = d.len.toNat ∧ d.dataOff.toNat = s + headerSize d.flags ∧
    s + d.len.toNat ≤ bufLen := by
  rcases decodeAvpAt_cases read bufLen s with
    ⟨-, e⟩ | ⟨f, l, h8, -, -, hl, ⟨-, e⟩ | ⟨-, -, e⟩ | ⟨hhdr, hav, e⟩⟩ <;> rw [e] at h <;> cases h
  rw [availableAt_eq] at h8 hav
  have hoff : s + headerSize f < 2 ^ 32 := by rw [Config.bufCapMax] at hcap; omega
  have hdata : l - headerSize f < 2 ^ 24 := by omega
  simp only [BitVec.toNat_ofNat, Nat.mod_eq_of_lt hl, Nat.mod_eq_of_lt hoff, Nat.mod_eq_of_lt hdata,
    true_and]
  omega

/-- The bytes of an AVP without Vendor-Id and with `4 - k` data bytes, its `k` padding bytes left out. -/
def unpaddedAvp (k : Nat) : List Byte :=
  avpText 266 0x40 none (List.replicate (4 - k) 1) (some []) none

/-- In a buffer that ends with the data, the record decodes and `new_offset` is where the missing padding would end. -/
theorem decodeAvpAt_unpaddedAvp {k : Nat} (h1 : 1 ≤ k) (h3 : k ≤ 3) :
    decodeAvpAt (fun a => (unpaddedAvp k).getD a 0) (12 - k) 0 =
      .ok { code := 266, flags := 0x40, vendorId := 0, len := BitVec.ofNat 24 (12 - k), dataOff := 8,
            dataLen := BitVec.ofNat 24 (4 - k) } 12 := by
  interval_cases k <;> decide

/-- Settles O44: the slice by `decodeAvpAt_ok_layout`, the missing padding by the records `unpaddedAvp`. -/
theorem dataSliceInsideTheBuffer : Obligations.DataSliceInsideTheBuffer := by
  refine ⟨fun read bufLen s n d hcap h => ?_, fun k h1 h3 => ⟨_, _, _, _, _, decodeAvpAt_unpaddedAvp h1 h3, ?_⟩⟩
  · obtain ⟨hdata, hoff, hend⟩ := decodeAvpAt_ok_layout hcap h
    obtain ⟨hhdr, -, -⟩ := decodeAvpAt_ok_bounds h
    rw [availableAt_eq]
    omega
  · interval_cases k <;> decide

end Sys2Proof.Machine
end

section
/-! 30_encoding.md R98, R104: the command word, decoded on all its bits, and the reserved opcodes. -/

namespace Sys2Proof.Machine

theorem decodeCmd_reserved {w : Word} (h0 : w ≠ 0) (h1 : w ≠ 1) (h2 : w ≠ 2) :
    decodeCmd w = .error (.reservedOpcode w) := by
  rw [decodeCmd, if_neg h0, if_neg h1, if_neg h2]

theorem decode_cmdw_reserved {w : Word} (h0 : w ≠ 0) (h1 : w ≠ 1) (h2 : w ≠ 2) :
    decode .cmdw (beBytes 4 w.toNat) = .error (.reservedOpcode w) := by
  rw [decode_cmdw, decodeCmd_reserved h0 h1 h2]
  rfl

/-- Settles O1: the four bytes give the word back whole (`decode_cmdw`), so the decoder compares all 32 bits; then one
case for each opcode, and the reserved words. -/
theorem commandWordDecodesOnAllBits : Obligations.CommandWordDecodesOnAllBits := by
  intro w
  split_ifs with h0 h1 h2
  · rw [h0]; exact decode_cmdw 0
  · rw [h1]; exact decode_cmdw 1
  · rw [h2]; exact decode_cmdw 2
  · exact decode_cmdw_reserved h0 h1 h2

/-- Settles O9: the write reaches the decoder in every state, which answers an error, and the turn is dropped. -/
theorem reservedOpcodeIsDropped : Obligations.ReservedOpcodeIsDropped := by
  intro s ts w ht h0 h1 h2
  exact step_of_cmdWrite_reserved ht rfl (decode_cmdw_reserved h0 h1 h2)

end Sys2Proof.Machine
end

section
/-! 40_helpers.md R121, R124, R126: the laws of `padded_length`, and the V bit as the mask 0x80. -/

namespace Sys2Proof.Machine

/-- The number of padding bytes, R121's last clause. -/
theorem paddedLength_sub_self (n : Nat) : paddedLength n - n = (4 - n % 4) % 4 := by
  simp only [paddedLength]
  omega

theorem paddedLength_mono {m n : Nat} (h : m ≤ n) : paddedLength m ≤ paddedLength n :=
  Nat.mul_le_mul_left 4 (Nat.div_le_div_right (Nat.add_le_add_right h 3))

/-- Whole words pass through: `(n + 4 * k + 3) / 4` is `(n + 3) / 4 + k`. -/
theorem paddedLength_add_four_mul (n k : Nat) : paddedLength (n + 4 * k) = paddedLength n + 4 * k := by
  rw [paddedLength, Nat.add_right_comm, Nat.add_mul_div_left _ _ (by decide), Nat.mul_add, ← paddedLength]

/-- A multiple of 4 maps to itself: it is `0 + 4 * k`, and `paddedLength 0` is 0. -/
theorem paddedLength_of_dvd {n : Nat} (h : 4 ∣ n) : paddedLength n = n := by
  obtain ⟨k, rfl⟩ := h
  simpa [paddedLength] using paddedLength_add_four_mul 0 k

/-- Settles O39: the bounds are `paddedLength_bounds`, and a padded length is a multiple of 4, so it pads to itself. -/
theorem paddedLengthLaws : Obligations.PaddedLengthLaws := by
  refine ⟨fun n => ?_, fun _ _ => paddedLength_mono, fun n => ?_, paddedLength_add_four_mul⟩
  · obtain ⟨hmod, hle, hub⟩ := paddedLength_bounds n
    exact ⟨hmod, hle, Nat.sub_le_iff_le_add'.2 hub, paddedLength_sub_self n⟩
  · obtain ⟨hmod, -, -⟩ := paddedLength_bounds n
    exact paddedLength_of_dvd (Nat.dvd_of_mod_eq_zero hmod)

/-- The mask 0x80 is `2 ^ 7`, so masking keeps bit 7 alone. -/
theorem hasVendorId_iff_mask (f : Byte) : hasVendorId f = true ↔ f &&& 0x80 ≠ 0 := by
  have hmask : f &&& 0x80 = if hasVendorId f then BitVec.twoPow 8 7 else 0 := BitVec.and_twoPow f 7
  rw [hmask]
  cases hasVendorId f <;> decide

/-- Settles O41: the mask test is the V bit, on which `headerSize` branches. -/
theorem flagHelpers : Obligations.FlagHelpers := by
  intro f
  refine ⟨hasVendorId_iff_mask f, ?_⟩
  simp only [headerSize, hasVendorId_iff_mask]

end Sys2Proof.Machine
end

section
/-! 41_decode_avp.md R149, R154: the consumed length of a decoded AVP, and offset independence of `DecodeAvp`. -/

namespace Sys2Proof.Machine

/-- The lengths of a decoded AVP and where the next record starts, in a buffer of any length. -/
theorem decodeAvpAt_ok_consumed {read : Nat → Byte} {bufLen s n : Nat} {d : Desc}
    (h : decodeAvpAt read bufLen s = .ok d n) :
    headerSize d.flags + d.dataLen.toNat = d.len.toNat ∧ n = s + headerSize d.flags + paddedLength d.dataLen.toNat := by
  rcases decodeAvpAt_cases read bufLen s with
    ⟨-, e⟩ | ⟨f, l, -, -, -, hl, ⟨-, e⟩ | ⟨-, -, e⟩ | ⟨hhdr, -, e⟩⟩ <;> rw [e] at h <;> cases h
  have hdata : l - headerSize f < 2 ^ 24 := by omega
  simp only [BitVec.toNat_ofNat, Nat.mod_eq_of_lt hl, Nat.mod_eq_of_lt hdata, and_true]
  omega

/-- Every error of `DecodeAvp` is Structural and names the record it was asked to decode (41_decode_avp.md R142, R145). -/
theorem decodeAvpAt_err {read : Nat → Byte} {bufLen s a : Nat} {k : ErrKind} {c : Cause}
    (h : decodeAvpAt read bufLen s = .err k c a) : k = .structural ∧ a = s := by
  rcases decodeAvpAt_cases read bufLen s with ⟨-, e⟩ | ⟨f, l, -, -, -, -, ⟨-, e⟩ | ⟨-, -, e⟩ | ⟨-, -, e⟩⟩ <;>
    rw [e] at h <;> cases h <;> exact ⟨rfl, rfl⟩

/-- A header is whole words, so it passes through the padding. -/
theorem paddedLength_headerSize_add (f : Byte) (n : Nat) :
    paddedLength (headerSize f + n) = headerSize f + paddedLength n := by
  rw [Nat.add_comm, Nat.add_comm (headerSize f)]
  rcases headerSize_cases f with ⟨-, e⟩ | ⟨-, e⟩ <;> rw [e]
  · exact paddedLength_add_four_mul n 3
  · exact paddedLength_add_four_mul n 2

/-- Settles O42: what is consumed is `paddedLength` of the declared length, which covers the header and is below 2^24. -/
theorem avpConsumedLength : Obligations.AvpConsumedLength := by
  intro read bufLen s n d h
  obtain ⟨hlen, rfl⟩ := decodeAvpAt_ok_consumed h
  have hconsumed := paddedLength_headerSize_add d.flags d.dataLen.toNat
  rw [hlen] at hconsumed
  rw [Nat.add_assoc, Nat.add_sub_cancel_left, ← hconsumed]
  obtain ⟨hmod, hle, -⟩ := paddedLength_bounds d.len.toNat
  have hmax : paddedLength d.len.toNat ≤ 2 ^ 24 := paddedLength_mono (Nat.le_of_lt d.len.isLt)
  have hhdr : headerSize d.flags ≤ paddedLength d.len.toNat := by omega
  refine ⟨Nat.le_add_right _ _, rfl, rfl, hmod, (headerSize_bounds d.flags).1.trans hhdr, fun hv => ?_, hmax⟩
  simpa [headerSize, hv] using hhdr

/-- An answer of `DecodeAvp`, `k` bytes further on in the buffer. -/
def shiftResult (k : Nat) : DecodeResult Desc → DecodeResult Desc
  | .ok d n => .ok (shiftDesc k d) (k + n)
  | .err kind c a => .err kind c (k + a)

/-- Decoding `s` bytes further on is decoding in the buffer sliced from `s`: `DecodeAvp` uses its offset to find the
bytes that are left and the fields, and nowhere else. -/
theorem decodeAvpAt_add (read : Nat → Byte) (bufLen s c : Nat) :
    decodeAvpAt read bufLen (s + c) = shiftResult s (decodeAvpAt (fun a => read (s + a)) (bufLen - s) c) := by
  have hoff (h : Nat) : BitVec.ofNat 32 ((BitVec.ofNat 32 (c + h)).toNat + s) = BitVec.ofNat 32 (s + (c + h)) := by
    rw [BitVec.toNat_ofNat, Nat.add_comm]
    exact BitVec.eq_of_toNat_eq (by simp)
  unfold decodeAvpAt
  simp only [availableAt_eq, beRead_shift, Nat.sub_sub, Nat.add_assoc]
  split
  · rfl
  split
  · rfl
  split
  · rfl
  simp only [shiftResult, shiftDesc, hoff]

/-- Settles O46: by `decodeAvpAt_add` the answers differ by the shift alone, and the data is the same slice of bytes. -/
theorem avpOffsetIndependence : Obligations.AvpOffsetIndependence := by
  intro read bufLen s _ hcap
  have hshift := decodeAvpAt_add read bufLen s 0
  rw [Nat.add_zero] at hshift
  rw [hshift]
  cases h : decodeAvpAt (fun a => read (s + a)) (bufLen - s) 0 with
  | err k c a =>
    obtain ⟨-, rfl⟩ := decodeAvpAt_err h
    exact ⟨rfl, rfl, rfl, rfl⟩
  | ok d n =>
    rw [h] at hshift
    obtain ⟨-, hoff, -⟩ := decodeAvpAt_ok_layout hcap hshift
    obtain ⟨-, hoff', -⟩ := decodeAvpAt_ok_layout (Nat.sub_le_of_le_add (by omega)) h
    have hview : (shiftDesc s d).dataOff.toNat = s + d.dataOff.toNat := by
      rw [hoff, hoff', Nat.zero_add]
      rfl
    refine ⟨rfl, hview.trans (Nat.add_comm _ _), Nat.add_comm _ _, ?_⟩
    rw [logicalAvp, logicalAvp, slice_shift, hview]
    rfl

end Sys2Proof.Machine
end

section
/-! 41_decode_avp.md R152, R153: the two record forms at the cursor, as one AVP record whose header size follows its V
bit. -/

namespace Sys2Proof.Machine

/-- The AVP record at the cursor ends in `FAIL`, the record noted with cause `c` (60_exceptions.md R272). -/
def AvpRecordFails (code : Word) (flags : Byte) (len : U24) (s : State) (c : Cause) : Prop :=
  ∃ t, avpRecord code flags len s = .next t ∧ t.hid.ph = .fail ∧ t.hid.ecause = c.code ∧ t.hid.eat = s.hid.cur

section
variable {code : Word} {flags : Byte} {len : U24} {s : State}

theorem avpRecord_fails_hdrShort (h : s.hid.lenL.toNat < s.hid.cur.toNat + 8) :
    AvpRecordFails code flags len s .avpHdrShort :=
  ⟨_, avpRecord_short h, rfl, rfl, rfl⟩

theorem avpRecord_fails_lenLtHdr (hin : s.hid.cur.toNat + 8 ≤ s.hid.lenL.toNat) (hl : len.toNat < headerSize flags) :
    AvpRecordFails code flags len s .avpLenLtHdr :=
  ⟨_, avpRecord_badLength hin (.inl hl), rfl, congrArg Cause.code (if_pos hl), rfl⟩

theorem avpRecord_fails_lenGtAvail (hin : s.hid.cur.toNat + 8 ≤ s.hid.lenL.toNat) (hl : headerSize flags ≤ len.toNat)
    (ha : s.hid.lenL.toNat < s.hid.cur.toNat + len.toNat) : AvpRecordFails code flags len s .avpLenGtAvail :=
  ⟨_, avpRecord_badLength hin (.inr ha), rfl, congrArg Cause.code (if_neg (Nat.not_lt.2 hl)), rfl⟩

/-- A record of a legal length: its fields, and the cursor behind its padding. Within a legal capacity nothing wraps. -/
theorem avpRecord_decodes (hcap : s.hid.lenL.toNat ≤ Config.bufCapMax) (hl : headerSize flags ≤ len.toNat)
    (ha : s.hid.cur.toNat + len.toNat ≤ s.hid.lenL.toNat) :
    ∃ t, avpRecord code flags len s = .next t ∧
      t.hid.sAvp.code = code ∧ t.hid.sAvp.flags = flags ∧
      t.hid.sAvp.vendorId =
        (if hasVendorId flags then BitVec.ofNat 32 (beRead (byteAt s) (s.hid.cur.toNat + 8) 4) else 0) ∧
      t.hid.sAvp.len = len ∧ t.hid.sAvp.dataOff.toNat = s.hid.cur.toNat + headerSize flags ∧
      t.hid.sAvp.dataLen.toNat = len.toNat - headerSize flags ∧
      t.hid.cur.toNat = s.hid.cur.toNat + headerSize flags + paddedLength (len.toNat - headerSize flags) ∧
      t.hid.ph = afterAvp s.hid.top := by
  have hlen := len.isLt
  have hpad := paddedLength_bounds (len.toNat - headerSize flags)
  have word {n : Nat} (h : n ≤ Config.bufCapMax + 3) : (BitVec.ofNat 32 n).toNat = n :=
    (BitVec.toNat_ofNat n 32).trans (Nat.mod_eq_of_lt (by rw [Config.bufCapMax] at h; omega))
  refine ⟨_, avpRecord_ok hl ha, rfl, rfl, rfl, rfl, ?_, ?_, ?_, rfl⟩ <;>
    simp only [phAAdv, State.setHid_hid, headerSize_toNat]
  · exact word (by omega)
  · exact (BitVec.toNat_ofNat _ 24).trans (Nat.mod_eq_of_lt (by omega))
  · exact word (by omega)

end

/-- Settles O19: V is clear, so the header is 8 bytes and no vendor id is read. -/
theorem avp8AtTheCursor : Obligations.Avp8AtTheCursor := by
  intro s code m p rsv len hcap
  have hh : headerSize (flagsByte false m p rsv) = 8 := headerSize_flagsByte false m p rsv
  refine ⟨fun hl ha => ?_, fun hl hin => avpRecord_fails_lenLtHdr hin (hh ▸ hl),
    fun hl hin ha => avpRecord_fails_lenGtAvail hin (hh ▸ hl) ha, avpRecord_fails_hdrShort⟩
  have hrec := avpRecord_decodes (code := code) hcap (hh ▸ hl) ha
  simp only [hh, hasVendorId_flagsByte] at hrec
  exact hrec

/-- Settles O20: V is set, so the header is 12 bytes, the vendor id the four bytes at `CUR + 8`. -/
theorem avp12AtTheCursor : Obligations.Avp12AtTheCursor := by
  intro s code m p rsv len hcap
  have hh : headerSize (flagsByte true m p rsv) = 12 := headerSize_flagsByte true m p rsv
  refine ⟨fun hl ha => ?_, fun hl hin => avpRecord_fails_lenLtHdr hin (hh ▸ hl),
    fun hl hin ha => avpRecord_fails_lenGtAvail hin (hh ▸ hl) ha, avpRecord_fails_hdrShort⟩
  obtain ⟨t, hexec, hcode, hflags, hvid, hrest⟩ := avpRecord_decodes (code := code) hcap (hh ▸ hl) ha
  rw [hh] at hrest
  refine ⟨t, hexec, hcode, hflags, ?_, hrest⟩
  rw [hvid, hasVendorId_flagsByte, if_pos rfl]
  exact (BitVec.toNat_ofNat _ 32).trans (Nat.mod_eq_of_lt (beRead_lt _ _ 4))

end Sys2Proof.Machine
end

section
/-! 41_decode_avp.md R151: DECODE_AVP from the write of `CMD` to the result, with no host move pending. -/

namespace Sys2Proof.Machine

/-- With no turn pending a BUSY block's step is a transition of its phase. -/
theorem step_of_running {s : State} (hs : Running s) : step s = phaseStep s :=
  (step_of_nil hs.2).trans (parserTurn_of_busy hs.1)

/-- What the last step of a command writes: the registers `r`, and the line `done` high. -/
def State.finish (s : State) (r : Regs) : State :=
  (s.setRegs r).setDone true

/-- DECODE_AVP, accepted, writes hidden registers alone up to its last step, which writes the registers as `DecodeAvp`
answers. -/
theorem decodeAvp_runs_to_result {s : State} (ht : s.turns = []) :
    ∃ k h, runSteps k (acceptStep .avp 1 s) = .next ((acceptStep .avp 1 s).setHid h) ∧
      step ((acceptStep .avp 1 s).setHid h) = .next (((acceptStep .avp 1 s).setHid h).finish
        ((acceptStep .avp 1 s).regs.avpResult (decodeAvpAt (byteAt s) s.regs.bufLen.toNat s.regs.offset.toNat))) := by
  have hs : Running (acceptStep .avp 1 s) := ⟨rfl, ht⟩
  have last (h : Hidden) := step_of_running (s := (acceptStep .avp 1 s).setHid h) hs
  have hend := avpEngine_ends hs rfl
  change AvpEnds _ (decodeAvpAt (byteAt s) s.regs.bufLen.toNat s.regs.offset.toNat) at hend
  cases hres : decodeAvpAt (byteAt s) s.regs.bufLen.toNat s.regs.offset.toNat with
  | ok d n =>
    rw [hres] at hend
    exact ⟨5, _, hend, (last _).trans (phaseStep_commit rfl)⟩
  | err k c a =>
    rw [hres] at hend
    obtain ⟨h, hrun, -, hph, hcause, heat, hbase⟩ := hend
    refine ⟨_, h, hrun, (last h).trans ((phaseStep_fail hph).trans ?_)⟩
    have heat32 : h.eat = BitVec.ofNat 32 a := by rw [← heat, BitVec.ofNat_toNat, BitVec.setWidth_eq]
    rw [failStep, State.setHid_hid, hcause, hbase, heat32]
    rfl

/-- Settles O15: accept, the run of `decodeAvp_runs_to_result`, and the registers case by case of `DecodeAvp`'s answer. -/
theorem decodeAvpCommandResult : Obligations.DecodeAvpCommandResult := by
  intro s hb hl hcap ht
  have hexec : exec .decodeAvp s = .next (acceptStep .avp 1 s) := accept_of_quiet hb hl
  have hcmd : step (s.setTurns [.host (.wrReg 4 0x00 1)]) = exec .decodeAvp s := by
    rw [step_of_cmdWrite (w := 1) rfl rfl (decode_cmdw 1), State.setTurns_setTurns, ← ht, State.setTurns_self]
  obtain ⟨k, h, hrun, hlast⟩ := decodeAvp_runs_to_result ht
  refine ⟨_, _, _, k, hexec, hcmd.trans hexec, hrun, rfl, hlast, rfl, rfl, rfl, rfl, ht, rfl, rfl, rfl, ?_⟩
  cases hres : decodeAvpAt (byteAt s) s.regs.bufLen.toNat s.regs.offset.toNat with
  | ok d n =>
    obtain ⟨-, -, hn⟩ := decodeAvpAt_ok_bounds hres
    rw [Config.bufCapMax] at hcap
    exact ⟨by omega, rfl⟩
  | err kind c a =>
    obtain ⟨rfl, rfl⟩ := decodeAvpAt_err hres
    refine ⟨rfl, rfl, ?_⟩
    simp [State.finish, Regs.avpResult, Regs.failed, acceptStep, clearResults, ErrKind.code]

end Sys2Proof.Machine
end

section
/-! SUPPORT. A Message's AVPs as a chain of decoded records, each starting where the one before it ended (42_decode_msg.md
R175, R176), and what `DecodeMsg` answers on success. -/

namespace Sys2Proof.Machine

/-- The loop of a Message at `s` of declared length `m` decodes the records `ds` from offset `cur` on, and ends at `n`:
each record starts below the declared length, the next one where it ends. -/
inductive AvpChain (read : Nat → Byte) (bufLen s m : Nat) : Nat → List Desc → Nat → Prop
  | nil (cur : Nat) : AvpChain read bufLen s m cur [] cur
  | cons {cur n n' : Nat} {d : Desc} {ds : List Desc} (hlt : cur - s < m) (hd : decodeAvpAt read bufLen cur = .ok d n)
      (hrest : AvpChain read bufLen s m n ds n') : AvpChain read bufLen s m cur (d :: ds) n'

/-- 41_decode_avp.md R149 as an equation: the next record starts behind the padded record. -/
theorem decodeAvpAt_ok_next {read : Nat → Byte} {bufLen s n : Nat} {d : Desc} (h : decodeAvpAt read bufLen s = .ok d n) :
    n = s + paddedLength d.len.toNat := by
  obtain ⟨hle, -, hlen, -⟩ := avpConsumedLength read bufLen s n d h
  omega

section
variable {read : Nat → Byte} {bufLen s m cur n : Nat} {ds : List Desc}

/-- A loop that answers Ok stopped at the declared length, or decoded one record and went on behind it. -/
theorem decodeAvpsAt_succ_ok {fuel : Nat} (h : decodeAvpsAt read bufLen s m (fuel + 1) cur = .ok ds n) :
    (¬ cur - s < m ∧ ds = [] ∧ n = cur) ∨
    ∃ d n₁ ds', cur - s < m ∧ decodeAvpAt read bufLen cur = .ok d n₁ ∧
      decodeAvpsAt read bufLen s m fuel n₁ = .ok ds' n ∧ ds = d :: ds' := by
  by_cases hlt : cur - s < m
  · rcases decodeAvpsAt_turn read bufLen s m fuel cur hlt with
      ⟨_, _, _, -, e⟩ | ⟨d, n₁, hd, ⟨_, _, _, -, e⟩ | ⟨ds', n', hrest, e⟩⟩ <;> rw [e] at h <;> cases h
    exact .inr ⟨d, n₁, ds', hlt, hd, hrest, rfl⟩
  · rw [decodeAvpsAt_stop _ _ _ _ _ _ hlt] at h
    cases h
    exact .inl ⟨hlt, rfl, rfl⟩

/-- The records the loop answers with are a chain. -/
theorem decodeAvpsAt_ok_chain {fuel : Nat} (h : decodeAvpsAt read bufLen s m fuel cur = .ok ds n) :
    AvpChain read bufLen s m cur ds n := by
  induction fuel generalizing cur ds with
  | zero => cases h; exact .nil _
  | succ fuel ih =>
    rcases decodeAvpsAt_succ_ok h with ⟨-, rfl, rfl⟩ | ⟨d, n₁, ds', hlt, hd, hrest, rfl⟩
    · exact .nil _
    · exact .cons hlt hd (ih hrest)

/-- With fuel for the bytes still to come, the loop ends only when it has reached the declared length: every record
takes at least one byte. -/
theorem decodeAvpsAt_ok_reaches {fuel : Nat} (hcur : s ≤ cur) (hf : m ≤ fuel + (cur - s))
    (h : decodeAvpsAt read bufLen s m fuel cur = .ok ds n) : s + m ≤ n := by
  induction fuel generalizing cur ds with
  | zero => cases h; omega
  | succ fuel ih =>
    rcases decodeAvpsAt_succ_ok h with ⟨hstop, -, rfl⟩ | ⟨d, n₁, ds', hlt, hd, hrest, -⟩
    · omega
    · obtain ⟨-, hadv, -⟩ := decodeAvpAt_ok_bounds hd
      exact ih (by omega) (by omega) hrest

theorem AvpChain.final_eq (h : AvpChain read bufLen s m cur ds n) :
    n = cur + (ds.map fun d => paddedLength d.len.toNat).sum := by
  induction h with
  | nil => rfl
  | cons _ hd _ ih => rw [ih, decodeAvpAt_ok_next hd, List.map_cons, List.sum_cons, Nat.add_assoc]

/-- The last record overshoots the buffer by at most its padding (41_decode_avp.md R150). -/
theorem AvpChain.final_le (h : AvpChain read bufLen s m cur ds n) (hcur : cur ≤ bufLen + 3) : n ≤ bufLen + 3 := by
  induction h with
  | nil => exact hcur
  | cons _ hd _ ih => exact ih (decodeAvpAt_ok_bounds hd).2.2

theorem AvpChain.decoded_of_mem (h : AvpChain read bufLen s m cur ds n) {d : Desc} (hd : d ∈ ds) :
    ∃ c n', decodeAvpAt read bufLen c = .ok d n' := by
  induction h with
  | nil => cases hd
  | cons _ hdec _ ih =>
    rcases List.mem_cons.1 hd with rfl | hd
    · exact ⟨_, _, hdec⟩
    · exact ih hd

/-- Every record has its 8 header bytes in the buffer and all but the last are below the declared length. -/
theorem AvpChain.length_bounds (h : AvpChain read bufLen s m cur ds n) (hs : s ≤ cur) (hne : ds ≠ []) :
    cur + 8 * ds.length ≤ bufLen ∧ cur + 8 * ds.length < s + m + 8 := by
  induction h with
  | nil => exact absurd rfl hne
  | @cons cur n n' d ds hlt hd _ ih =>
    obtain ⟨hin, hadv, -⟩ := decodeAvpAt_ok_bounds hd
    rw [List.length_cons]
    cases ds with
    | nil => simp only [List.length_nil]; omega
    | cons e es =>
      have := ih (by omega) (List.cons_ne_nil e es)
      omega

/-- Padded lengths are multiples of 4, and so is their sum. -/
theorem four_dvd_sum_paddedLength (ds : List Desc) : 4 ∣ (ds.map fun d => paddedLength d.len.toNat).sum := by
  refine List.dvd_sum fun x hx => ?_
  obtain ⟨d, -, rfl⟩ := List.mem_map.1 hx
  exact Nat.dvd_of_mod_eq_zero (paddedLength_bounds _).1

end

/-- A successful `DecodeMsg`: the declared length covers the header and lies in the buffer, and the loop ran on it. -/
theorem decodeMsgAt_ok {read : Nat → Byte} {bufLen s n : Nat} {m : Message} (h : decodeMsgAt read bufLen s = .ok m n) :
    20 ≤ m.scalars.length.toNat ∧ s + m.scalars.length.toNat ≤ bufLen ∧
    decodeAvpsAt read bufLen s m.scalars.length.toNat m.scalars.length.toNat (s + 20) = .ok m.avps n := by
  rcases decodeMsgAt_cases read bufLen s with
    ⟨-, e⟩ | ⟨l, h20, hl, hlt, ⟨-, e⟩ | ⟨-, -, e⟩ | ⟨hge, hle, ⟨_, _, _, -, e⟩ | ⟨ds, n', hds, e⟩⟩⟩ <;>
    rw [e] at h <;> cases h
  have hlen : (scalarsAt read s).length.toNat = l := by
    rw [scalarsAt, ← hl]
    exact (BitVec.toNat_ofNat l 24).trans (Nat.mod_eq_of_lt hlt)
  rw [availableAt_eq] at h20 hle
  rw [hlen]
  exact ⟨hge, by omega, hds⟩

/-- The AVPs of a decoded Message are a chain from behind its header. -/
theorem decodeMsgAt_ok_chain {read : Nat → Byte} {bufLen s n : Nat} {m : Message}
    (h : decodeMsgAt read bufLen s = .ok m n) :
    AvpChain read bufLen s m.scalars.length.toNat (s + 20) m.avps n :=
  decodeAvpsAt_ok_chain (decodeMsgAt_ok h).2.2

/-- 42_decode_msg.md R186: the AVPs of a decoded Message fit in the table. -/
theorem decodeMsgAt_ok_length_le {read : Nat → Byte} {bufLen s n cap : Nat} {m : Message} (hcap : bufLen ≤ cap)
    (h : decodeMsgAt read bufLen s = .ok m n) : m.avps.length ≤ Config.avptCap cap := by
  by_cases hne : m.avps = []
  · rw [hne]
    exact Nat.zero_le _
  have hpos := List.length_pos_iff.2 hne
  obtain ⟨hbuf, hlen⟩ := (decodeMsgAt_ok_chain h).length_bounds (Nat.le_add_right s 20) hne
  have hroom := room_for_entry (n := m.avps.length - 1) (base := s) hcap m.scalars.length.isLt (by omega) (by omega)
  omega

end Sys2Proof.Machine
end

section
/-! 42_decode_msg.md R178, R183: the final offset of a decoded Message, and offset independence of `DecodeMsg`. -/

namespace Sys2Proof.Machine

/-- Settles O49: the loop reaches the declared length, along a chain of padded records from behind the header. -/
theorem messageFinalOffset : Obligations.MessageFinalOffset := by
  intro read bufLen s n m h
  obtain ⟨hlen, hin, hloop⟩ := decodeMsgAt_ok h
  have hreach := decodeAvpsAt_ok_reaches (Nat.le_add_right s 20) (by omega) hloop
  have hchain := decodeMsgAt_ok_chain h
  have hn := hchain.final_eq
  have hdvd := four_dvd_sum_paddedLength m.avps
  refine ⟨hreach, hn, by omega, hchain.final_le (by omega), fun hnil => ?_, by omega⟩
  rwa [hnil] at hn

/-- An answer of a decoding function, `k` bytes further on in the buffer, its value moved by `f`. -/
def shiftAnswer {α : Type} (f : α → α) (k : Nat) : DecodeResult α → DecodeResult α
  | .ok v n => .ok (f v) (k + n)
  | .err kind c a => .err kind c (k + a)

/-- A Message whose views start `k` bytes further on. -/
def shiftMessage (k : Nat) (m : Message) : Message :=
  { m with avps := m.avps.map (shiftDesc k) }

/-- The loop, `s` bytes further on: its test compares offsets relative to the Message, and its body is `DecodeAvp`. -/
theorem decodeAvpsAt_add (read : Nat → Byte) (bufLen s m fuel c : Nat) :
    decodeAvpsAt read bufLen s m fuel (s + c) =
      shiftAnswer (List.map (shiftDesc s)) s (decodeAvpsAt (fun a => read (s + a)) (bufLen - s) 0 m fuel c) := by
  induction fuel generalizing c with
  | zero => rfl
  | succ fuel ih =>
    simp only [decodeAvpsAt, Nat.add_sub_cancel_left, Nat.sub_zero, decodeAvpAt_add]
    by_cases hlt : c < m
    · rw [if_pos hlt, if_pos hlt]
      cases decodeAvpAt (fun a => read (s + a)) (bufLen - s) c with
      | err k e a => rfl
      | ok d n =>
        simp only [shiftResult, ih]
        cases decodeAvpsAt (fun a => read (s + a)) (bufLen - s) 0 m fuel n <;> rfl
    · rw [if_neg hlt, if_neg hlt]
      rfl

/-- Decoding a Message `s` bytes into the buffer is decoding it in the buffer sliced from `s`. -/
theorem decodeMsgAt_eq_shift (read : Nat → Byte) (bufLen s : Nat) :
    decodeMsgAt read bufLen s =
      shiftAnswer (shiftMessage s) s (decodeMsgAt (fun a => read (s + a)) (bufLen - s) 0) := by
  unfold decodeMsgAt
  simp only [availableAt_eq, beRead_shift, scalarsAt, decodeAvpsAt_add, Nat.sub_zero, Nat.zero_add, Nat.add_zero]
  split
  · rfl
  split
  · rfl
  split
  · rfl
  cases decodeAvpsAt (fun a => read (s + a)) (bufLen - s) 0 (beRead read (s + 1) 3) (beRead read (s + 1) 3) 20 <;> rfl

/-- The logical AVP of a view moved by `s` is that of the view in the sliced buffer, where the offset does not wrap. -/
theorem logicalAvp_shiftDesc (read : Nat → Byte) {s : Nat} {d : Desc} (h : d.dataOff.toNat + s < 2 ^ 32) :
    logicalAvp read (shiftDesc s d) = logicalAvp (fun a => read (s + a)) d := by
  have hoff : (shiftDesc s d).dataOff.toNat = s + d.dataOff.toNat :=
    (BitVec.toNat_ofNat _ 32).trans ((Nat.mod_eq_of_lt h).trans (Nat.add_comm _ _))
  rw [logicalAvp, logicalAvp, slice_shift, hoff]
  rfl

/-- The views of a decoded Message lie in the buffer. -/
theorem decodeMsgAt_ok_dataOff_le {read : Nat → Byte} {bufLen s n : Nat} {m : Message} (hcap : bufLen ≤ Config.bufCapMax)
    (h : decodeMsgAt read bufLen s = .ok m n) {d : Desc} (hd : d ∈ m.avps) : d.dataOff.toNat ≤ bufLen := by
  obtain ⟨c, n', hdec⟩ := (decodeMsgAt_ok_chain h).decoded_of_mem hd
  obtain ⟨hlen, hoff, hin⟩ := decodeAvpAt_ok_layout hcap hdec
  omega

/-- Settles O47: by `decodeMsgAt_eq_shift` the answers differ by the shift alone, and each view names the same bytes. -/
theorem msgOffsetIndependence : Obligations.MsgOffsetIndependence := by
  intro read bufLen s hs hcap
  rw [decodeMsgAt_eq_shift]
  cases h : decodeMsgAt (fun a => read (s + a)) (bufLen - s) 0 with
  | err k c a => exact ⟨rfl, rfl, Nat.add_comm _ _⟩
  | ok m n =>
    refine ⟨rfl, rfl, List.length_map _, Nat.add_comm _ _, ?_⟩
    have hviews : (shiftMessage s m).avps.map (logicalAvp read) = m.avps.map (logicalAvp fun a => read (s + a)) := by
      rw [shiftMessage, List.map_map]
      refine List.map_congr_left fun d hd => logicalAvp_shiftDesc read ?_
      have hoff := decodeMsgAt_ok_dataOff_le (Nat.sub_le_of_le_add (by omega)) h hd
      rw [Config.bufCapMax] at hcap
      omega
    rw [logicalMsg, logicalMsg, hviews]
    rfl

end Sys2Proof.Machine
end

section
/-! 42_decode_msg.md R179: DECODE_MSG from the write of `CMD` to the result, with no host move pending. -/

namespace Sys2Proof.Machine

/-- `s` runs, writing hidden registers and the table alone, to where the table is `tb` and one more step writes the
registers `r` and raises `done`. -/
def RunsTo (s : State) (tb : Table) (r : Regs) : Prop :=
  ∃ k h, runSteps k s = .next ((s.setAvpt tb).setHid h) ∧
    step ((s.setAvpt tb).setHid h) = .next (((s.setAvpt tb).setHid h).finish r)

/-- A running command with other hidden registers and another table takes its next step by its phase. -/
theorem step_of_running_moved {s : State} (hs : Running s) (tb : Table) (h : Hidden) :
    step ((s.setAvpt tb).setHid h) = phaseStep ((s.setAvpt tb).setHid h) :=
  step_of_running hs

/-- From `COMMIT` of a Message the last step writes the scalars, the count and the cursor (44_fsm.md R244). -/
theorem runsTo_of_commit {s : State} {j : Nat} {tb : Table} {h : Hidden} (hs : Running s)
    (hrun : runSteps j s = .next ((s.setAvpt tb).setHid h)) (hph : h.ph = .commit) (htop : h.top = .msg) :
    RunsTo s tb { s.regs with msg := h.sMsg, avpCount := h.n, newOffset := h.cur, status := .doneOk } := by
  refine ⟨j, h, hrun, (step_of_running_moved hs tb h).trans ((phaseStep_commit hph).trans ?_)⟩
  simp only [phCommit, State.setHid_hid, htop]
  rfl

/-- From `FAIL` the last step is the fail step (44_fsm.md R245). -/
theorem runsTo_of_fails {s : State} {j : Nat} {tb : Table} {h : Hidden} {k : ErrKind} {c : Cause} {a : Nat}
    (hs : Running s) (hrun : runSteps j s = .next ((s.setAvpt tb).setHid h)) (hf : FailsAs s.regs.offset h k c a) :
    RunsTo s tb (s.regs.failed c a) := by
  obtain ⟨-, hph, hcause, heat, hbase⟩ := hf
  refine ⟨j, h, hrun, (step_of_running_moved hs tb h).trans ((phaseStep_fail hph).trans ?_)⟩
  have heat32 : h.eat = BitVec.ofNat 32 a := by rw [← heat, BitVec.ofNat_toNat, BitVec.setWidth_eq]
  rw [failStep, State.setHid_hid, hcause, hbase, heat32]
  rfl

/-- How DECODE_MSG ends, accepted as `s`, for each answer of `DecodeMsg`. -/
def MsgRunsTo (s : State) : DecodeResult Message → Prop
  | .ok m n => ∃ tb, RunsTo s tb (s.regs.msgResult (.ok m n)) ∧ ∀ i, i < m.avps.length → sparseGet tb i = m.avps[i]?
  | .err k c a => k = .structural ∧ a < 2 ^ 32 ∧ ∃ tb, RunsTo s tb (s.regs.msgResult (.err k c a))

/-- DECODE_MSG, accepted, writes hidden registers and the table alone up to its last step, which writes the registers as
`DecodeMsg` answers. -/
theorem decodeMsg_runs_to_result {s : State} (ht : s.turns = []) (hcap : s.regs.bufLen.toNat ≤ s.bufCap)
    (hlegal : s.bufCap ≤ Config.bufCapMax) :
    MsgRunsTo (acceptStep .msg 2 s) (decodeMsgAt (byteAt s) s.regs.bufLen.toNat s.regs.offset.toNat) := by
  have hs : Running (acceptStep .msg 2 s) := ⟨rfl, ht⟩
  have hend := msgEngine_ends hs rfl ⟨rfl, rfl, rfl⟩ hcap hlegal
  change MsgEnds _ (decodeMsgAt (byteAt s) s.regs.bufLen.toNat s.regs.offset.toNat) at hend
  cases hres : decodeMsgAt (byteAt s) s.regs.bufLen.toNat s.regs.offset.toNat with
  | ok m n =>
    rw [hres] at hend
    obtain ⟨tb, h, hrun, hph, htop, hmsg, hcur, hn, htab⟩ := hend
    have hregs := runsTo_of_commit hs hrun hph htop
    have hcur32 : h.cur = BitVec.ofNat 32 n := by rw [← hcur, BitVec.ofNat_toNat, BitVec.setWidth_eq]
    have hcount : h.n = BitVec.ofNat 22 m.avps.length := by rw [← hn, BitVec.ofNat_toNat, BitVec.setWidth_eq]
    rw [hmsg, hcur32, hcount] at hregs
    exact ⟨tb, hregs, htab⟩
  | err k c a =>
    rw [hres] at hend
    obtain ⟨j, tb, h, hrun, hfail⟩ := hend
    exact ⟨hfail.kind, hfail.eat ▸ h.eat.isLt, tb, runsTo_of_fails hs hrun hfail⟩

/-- Settles O16: accept, the run of `decodeMsg_runs_to_result`, and the registers case by case of `DecodeMsg`'s answer. -/
theorem decodeMsgCommandResult : Obligations.DecodeMsgCommandResult := by
  intro s hinv hb hl ht
  have hexec : exec .decodeMsg s = .next (acceptStep .msg 2 s) := accept_of_quiet hb hl
  have hcmd : step (s.setTurns [.host (.wrReg 4 0x00 2)]) = exec .decodeMsg s := by
    rw [step_of_cmdWrite (w := 2) rfl rfl (decode_cmdw 2), State.setTurns_setTurns, ← ht, State.setTurns_self]
  have hend := decodeMsg_runs_to_result ht hl hinv.cap
  cases hres : decodeMsgAt (byteAt s) s.regs.bufLen.toNat s.regs.offset.toNat with
  | ok m n =>
    rw [hres] at hend
    obtain ⟨tb, ⟨k, h, hrun, hlast⟩, htab⟩ := hend
    have hn : n ≤ s.regs.bufLen.toNat + 3 := by
      obtain ⟨hlen, hin, -⟩ := decodeMsgAt_ok hres
      exact (decodeMsgAt_ok_chain hres).final_le (by omega)
    have hlegal := hinv.cap
    rw [Config.bufCapMax] at hlegal
    exact ⟨_, _, _, k, hexec, hcmd.trans hexec, hrun, rfl, hlast, rfl, rfl, rfl, ht, rfl, rfl, rfl,
      by omega, decodeMsgAt_ok_length_le hl hres, rfl, htab⟩
  | err kind c a =>
    rw [hres] at hend
    obtain ⟨hkind, ha, tb, k, h, hrun, hlast⟩ := hend
    exact ⟨_, _, _, k, hexec, hcmd.trans hexec, hrun, rfl, hlast, rfl, rfl, rfl, ht, rfl, rfl, rfl, hkind, ha, rfl⟩

end Sys2Proof.Machine
end

section
/-! 43_host_commands.md R208: CLEAR's one step, and how little of it is left in IDLE. -/

namespace Sys2Proof.Machine

theorem execClear_of_quiet {s : State} (hb : s.regs.status ≠ .busy) : execClear s = .next (clearStep s) := if_neg hb

theorem clearResults_eq_self {r : Regs} (hnew : r.newOffset = 0) (herr : r.err = { kind := 0, cause := 0 })
    (hat : r.errOffset = 0) (havp : r.avp = .zero) (hmsg : r.msg = .zero) (hcount : r.avpCount = 0) :
    clearResults r = r := by
  cases r
  subst hnew herr hat havp hmsg hcount
  rfl

/-- In IDLE every result is 0 already (10_state.md R31, 43_host_commands.md R209). -/
theorem Inv.clearResults_of_idle {s : State} (hs : Inv s) (hi : s.regs.status = .idle) : clearResults s.regs = s.regs := by
  obtain ⟨-, herr, -, -, -, -, hnew, hres, -⟩ := hs.regs
  obtain ⟨herr0, hat0⟩ := herr (by rw [hi]; decide)
  obtain ⟨havp0, hmsg0, hcount0⟩ := hres (by rw [hi]; decide)
  exact clearResults_eq_self (hnew (by rw [hi]; rfl)) herr0 hat0 havp0 hmsg0 hcount0

theorem Inv.clearStep_of_idle {s : State} (hs : Inv s) (hi : s.regs.status = .idle) :
    clearStep s = s.setRegs { s.regs with cmd := 0 } := by
  have hdone : s.done = false := by rw [hs.done, hi]; rfl
  rw [clearStep, hs.clearResults_of_idle hi, ← hi, ← hdone]
  rfl

/-- Settles O10: `clearStep` is those writes; in IDLE the invariant has all but `CMD` at the value written. -/
theorem clearDropsTheResults : Obligations.ClearDropsTheResults := by
  intro s hb
  have hclear : exec .clear s = .next (clearStep s) := execClear_of_quiet hb
  refine ⟨decode_cmdw 0, hclear, fun hs hi => ?_⟩
  rw [hclear, hs.clearStep_of_idle hi]
  rfl

end Sys2Proof.Machine
end

section
/-! 43_host_commands.md R206: after accept the parser works on what was latched, and no phase looks at `BUF_LEN` or
`OFFSET`. -/

namespace Sys2Proof.Machine

/-- `s` with other values in the operand registers. -/
def State.setOperands (s : State) (b o : Word) : State :=
  s.setRegs { s.regs with bufLen := b, offset := o }

theorem andThen_withRead (o : Option Nat) (f : Nat → Out) (g : State → Out) :
    andThen (withRead o f) g = withRead o fun v => andThen (f v) g := by
  cases o <;> rfl

/-- A transition neither reads nor writes the operand registers: each phase is the same function of the hidden registers,
the table and the buffer, and `COMMIT` and `FAIL` write other registers. -/
theorem phaseStep_setOperands (s : State) (b o : Word) :
    phaseStep (s.setOperands b o) = andThen (phaseStep s) fun t => .next (t.setOperands b o) := by
  have hhid : (s.setOperands b o).hid = s.hid := rfl
  cases hp : s.hid.ph with
  | aAvail => rw [phaseStep_aAvail hp, phaseStep_aAvail (hhid ▸ hp), phAAvail_eq, phAAvail_eq]; rfl
  | aHdr =>
    rw [phaseStep_aHdr hp, phaseStep_aHdr (hhid ▸ hp)]
    simp only [phAHdr, andThen_withRead]
    rfl
  | aCheck => rw [phaseStep_aCheck hp, phaseStep_aCheck (hhid ▸ hp), phACheck_eq, phACheck_eq]; rfl
  | aVid =>
    rw [phaseStep_aVid hp, phaseStep_aVid (hhid ▸ hp), phAVid, phAVid, hhid]
    split
    · rw [andThen_withRead]; rfl
    · rfl
  | aAdv => rw [phaseStep_aAdv hp, phaseStep_aAdv (hhid ▸ hp)]; rfl
  | mAvail => rw [phaseStep_mAvail hp, phaseStep_mAvail (hhid ▸ hp), phMAvail_eq, phMAvail_eq]; rfl
  | mLen =>
    rw [phaseStep_mLen hp, phaseStep_mLen (hhid ▸ hp)]
    simp only [phMLen, andThen_withRead]
    rfl
  | mCheck => rw [phaseStep_mCheck hp, phaseStep_mCheck (hhid ▸ hp), phMCheck_eq, phMCheck_eq]; rfl
  | mHdr =>
    rw [phaseStep_mHdr hp, phaseStep_mHdr (hhid ▸ hp)]
    simp only [phMHdr, andThen_withRead]
    rfl
  | mLoop => rw [phaseStep_mLoop hp, phaseStep_mLoop (hhid ▸ hp), phMLoop_eq, phMLoop_eq]; rfl
  | mAppend =>
    rw [phaseStep_mAppend hp, phaseStep_mAppend (hhid ▸ hp)]
    by_cases hn : s.hid.n.toNat < Config.avptCap s.bufCap
    · rw [phMAppend_of_lt hn, phMAppend_of_lt (s := s.setOperands b o) hn]; rfl
    · rw [phMAppend, phMAppend, if_neg hn]; exact if_neg hn
  | commit =>
    rw [phaseStep_commit hp, phaseStep_commit (hhid ▸ hp), phCommit, phCommit, hhid]
    cases s.hid.top <;> rfl
  | fail => rw [phaseStep_fail hp, phaseStep_fail (hhid ▸ hp)]; rfl

/-- Settles O11: accept is `acceptStep`, written out for each command; and with no turn pending a step of a BUSY block is
one transition, which `phaseStep_setOperands` says carries other operands along. -/
theorem acceptLatchesTheOperands : Obligations.AcceptLatchesTheOperands := by
  refine ⟨fun s hb hl => ⟨accept_of_quiet hb hl, accept_of_quiet hb hl⟩, fun s t b o hbusy ht hstep => ?_⟩
  rw [step_of_running ⟨hbusy, ht⟩] at hstep
  change step (s.setOperands b o) = .next (t.setOperands b o)
  rw [step_of_running (s := s.setOperands b o) ⟨hbusy, ht⟩, phaseStep_setOperands, hstep, andThen_next]

end Sys2Proof.Machine
end

section
/-! 43_host_commands.md R204: what the host can do to a running command. -/

namespace Sys2Proof.Machine

theorem storeReg_of_busy {s : State} (hb : s.regs.status = .busy) (off : Nat) (v : Word) : storeReg off v s = s :=
  if_pos hb

/-- While BUSY every command is dropped, without an error. -/
theorem exec_command_of_busy {s : State} (hb : s.regs.status = .busy) {i : Instr} (hi : i.format = .cmdw) :
    exec i s = .next s := by
  cases i with
  | clear | decodeAvp | decodeMsg => exact if_pos hb
  | avp8 | avp12 | msgh => cases hi

/-- A word that decodes as a command word is a command. -/
theorem decode_cmdw_format {w : Word} {i : Instr} {rest : List Byte}
    (h : decode .cmdw (beBytes 4 w.toNat) = .ok (i, rest)) : i.format = .cmdw := by
  rw [decode_cmdw, decodeCmd] at h
  split_ifs at h <;> cases h <;> rfl

/-- A host write to `CMD` while BUSY is dropped, whether the word is a command or a reserved opcode. -/
theorem step_of_cmdWrite_busy {s : State} {ts : List Turn} {m : HostMove} {w : Word} (hb : s.regs.status = .busy)
    (h : s.turns = .host m :: ts) (hm : cmdWrite m (s.setTurns ts) = some w) : step s = .next (s.setTurns ts) := by
  cases hd : decode .cmdw (beBytes 4 w.toNat) with
  | ok x => rw [step_of_cmdWrite h hm hd, exec_command_of_busy (s := s.setTurns ts) hb (decode_cmdw_format hd)]
  | error e => exact step_of_cmdWrite_reserved h hm hd

/-- `t` has the registers, hidden registers and line `done` of `s`: the running command is as it was. -/
abbrev SameCommand (s t : State) : Prop :=
  t.regs = s.regs ∧ t.hid = s.hid ∧ t.done = s.done

theorem hostWriteReg_sameCommand {size off : Nat} {v : Word} {s t : State} (hb : s.regs.status = .busy)
    (h : hostWriteReg size off v s = .next t) : SameCommand s t := by
  rw [hostWriteReg, storeReg_of_busy hb] at h
  split_ifs at h
  cases h
  exact ⟨rfl, rfl, rfl⟩

theorem tableRead_sameCommand (off : Nat) (s : State) : SameCommand s (tableRead off s) := by
  unfold tableRead
  split <;> exact ⟨rfl, rfl, rfl⟩

/-- While BUSY no host move but reset touches the command; the buffer write is refused. -/
theorem hostMove_sameCommand {m : HostMove} {s t : State} (hb : s.regs.status = .busy) (hm : m ≠ .reset)
    (h : hostMove m s = .next t) : SameCommand s t := by
  cases m with
  | rdReg size off =>
    rw [hostMove, hostReadReg] at h
    split_ifs at h
    cases h
    exact ⟨rfl, rfl, rfl⟩
  | wrReg size off v => exact hostWriteReg_sameCommand hb h
  | wrRegLast size off => exact hostWriteReg_sameCommand hb h
  | rdTbl size off =>
    rw [hostMove, hostReadTbl] at h
    split_ifs at h
    cases h
    exact tableRead_sameCommand off s
  | rdBuf addr =>
    rw [hostMove, hostReadBuf] at h
    split_ifs at h
    cases h
    exact ⟨rfl, rfl, rfl⟩
  | wrBuf addr v =>
    rw [hostMove, hostWriteBuf, if_pos hb] at h
    split_ifs at h
  | reset => exact absurd rfl hm

/-- Settles O13: a write to `CMD` is dropped by `step_of_cmdWrite_busy`, one to an operand register by `storeReg_of_busy`;
of the other moves none touches the command (`hostMove_sameCommand`). -/
theorem busyDropsHostWrites : Obligations.BusyDropsHostWrites := by
  intro s ts hb
  refine ⟨fun off v hoff ht => ?_, fun m t hm ht hstep => ?_⟩
  · have hstore : storeReg off v (s.setTurns ts) = s.setTurns ts :=
      storeReg_of_busy (s := s.setTurns ts) hb off v
    rcases hoff with rfl | rfl | rfl
    · exact step_of_cmdWrite_busy hb ht rfl
    · exact (step_of_host ht rfl).trans (congrArg _ hstore)
    · exact (step_of_host ht rfl).trans (congrArg _ hstore)
  · cases hw : cmdWrite m (s.setTurns ts) with
    | none =>
      rw [step_of_host ht hw] at hstep
      exact hostMove_sameCommand (s := s.setTurns ts) hb hm hstep
    | some w =>
      rw [step_of_cmdWrite_busy hb ht hw] at hstep
      cases hstep
      exact ⟨rfl, rfl, rfl⟩

end Sys2Proof.Machine
end

section
/-! 43_host_commands.md R203: the host's accesses to the buffer memory. -/

namespace Sys2Proof.Machine

theorem hostWriteBuf_of_quiet {s : State} {a : Nat} (v : Byte) (ha : a < s.bufCap) (hb : s.regs.status ≠ .busy) :
    hostWriteBuf a v s = .next (s.setBuf (sparseSet s.buf a v)) := by
  rw [hostWriteBuf, if_pos ha, if_neg hb]

theorem hostWriteBuf_of_busy {s : State} {a : Nat} (v : Byte) (ha : a < s.bufCap) (hb : s.regs.status = .busy) :
    hostWriteBuf a v s = .refused .bufWriteWhileBusy := by
  rw [hostWriteBuf, if_pos ha, if_pos hb]

theorem hostWriteBuf_outside {s : State} {a : Nat} (v : Byte) (ha : s.bufCap ≤ a) :
    hostWriteBuf a v s = .refused .outsideAddressSpace := if_neg (Nat.not_lt.mpr ha)

theorem hostReadBuf_of_lt {s : State} {a : Nat} (ha : a < s.bufCap) :
    hostReadBuf a s = .next (s.setRdata ((byteAt s a).setWidth 32)) := if_pos ha

theorem hostReadBuf_outside {s : State} {a : Nat} (ha : s.bufCap ≤ a) :
    hostReadBuf a s = .refused .outsideAddressSpace := if_neg (Nat.not_lt.mpr ha)

/-- Settles O31: the step is the host's move, whose cases are the lemmas above; the bytes read back by `byteAt_setBuf`. -/
theorem hostBufferAccess : Obligations.HostBufferAccess := by
  intro s ts a v
  refine ⟨fun ht ha hb => ?_, fun ht ha hb => ?_, fun ht ha => ?_, fun ht ha => ?_⟩
  · have hstep := (step_of_host ht rfl).trans (hostWriteBuf_of_quiet (s := s.setTurns ts) v ha hb)
    have hbyte := byteAt_setBuf (s.setTurns ts) a (v := v)
    exact ⟨_, hstep, (hbyte a).trans (if_pos rfl), fun b hne => (hbyte b).trans (if_neg hne), rfl⟩
  · exact (step_of_host ht rfl).trans (hostWriteBuf_of_busy (s := s.setTurns ts) v ha hb)
  · exact (step_of_host ht rfl).trans (hostReadBuf_of_lt (s := s.setTurns ts) ha)
  · rcases ht with ht | ht
    · exact (step_of_host ht rfl).trans (hostWriteBuf_outside (s := s.setTurns ts) v ha)
    · exact (step_of_host ht rfl).trans (hostReadBuf_outside (s := s.setTurns ts) ha)

end Sys2Proof.Machine
end

section
/-! 44_fsm.md R233 to R244: what one parser step of a BUSY block writes, phase by phase, with no host move pending. -/

namespace Sys2Proof.Machine

/-- Settles O24: a step is the transition of its phase, and each conjunct is that transition's own equation; the test of
`A_AVAIL` is put on the value written to `AVAIL` by `bytesLeft_toNat`. -/
theorem avpEnginePhases : Obligations.AvpEnginePhases := by
  intro s hb ht
  rw [step_of_running ⟨hb, ht⟩]
  refine ⟨fun hp => ?_, fun hp hin => ?_, fun hp => ?_, fun hp hin => ?_, fun hp => ?_⟩
  · rw [phaseStep_aAvail hp, phAAvail_eq, ← bytesLeft_toNat]; rfl
  · exact (phaseStep_aHdr hp).trans (phAHdr_of_le hin)
  · rw [phaseStep_aCheck hp, phACheck_eq]; rfl
  · exact (phaseStep_aVid hp).trans (phAVid_of_le hin)
  · exact phaseStep_aAdv hp

/-- Settles O25: as for the AVP engine; the table after `M_APPEND` is read back by `sparseGet_set_self` and
`sparseGet_set_other`. -/
theorem messageEnginePhases : Obligations.MessageEnginePhases := by
  intro s hb ht
  rw [step_of_running ⟨hb, ht⟩]
  refine ⟨fun hp => ?_, fun hp hin => ?_, fun hp => ?_, fun hp hin => ?_, fun hp => ?_, fun hp hn => ?_⟩
  · rw [phaseStep_mAvail hp, phMAvail_eq, ← bytesLeft_toNat]; rfl
  · exact (phaseStep_mLen hp).trans (phMLen_of_le hin)
  · rw [phaseStep_mCheck hp, phMCheck_eq]; rfl
  · exact (phaseStep_mHdr hp).trans (phMHdr_of_le hin)
  · rw [phaseStep_mLoop hp, phMLoop_eq]; rfl
  · exact ⟨_, (phaseStep_mAppend hp).trans (phMAppend_of_lt hn), sparseGet_set_self _ _ _,
      fun i hi => sparseGet_set_other _ _ hi, rfl⟩

theorem phCommit_of_avp {s : State} (h : s.hid.top = .avp) : phCommit s = commitAvp s := by rw [phCommit, h]

theorem phCommit_of_msg {s : State} (h : s.hid.top = .msg) : phCommit s = commitMsg s := by rw [phCommit, h]

/-- Settles O26: the step in `COMMIT` is the commit of the command that `TOP` names. -/
theorem commitWritesTheResults : Obligations.CommitWritesTheResults := by
  intro s hb ht hp
  rw [step_of_running ⟨hb, ht⟩, phaseStep_commit hp]
  exact ⟨fun htop => congrArg _ (phCommit_of_avp htop), fun htop => congrArg _ (phCommit_of_msg htop)⟩

end Sys2Proof.Machine
end

section
/-! 60_exceptions.md R280: what the fail step writes, and the result groups it leaves at 0. -/

namespace Sys2Proof.Machine

/-- Outside DONE_OK both result groups are 0, the count included (10_state.md R31, 43_host_commands.md R209). -/
theorem Inv.results_zero {s : State} (hs : Inv s) (hst : s.regs.status ≠ .doneOk) :
    s.regs.avp = .zero ∧ s.regs.msg = .zero ∧ s.regs.avpCount = 0 := by
  obtain ⟨-, -, -, -, -, -, -, hzero, -⟩ := hs.regs
  exact hzero hst

/-- Settles O27: the step in `FAIL` is `failStep`, written out; it leaves the result groups, which the invariant has at 0
while BUSY. -/
theorem failStepRecordsTheError : Obligations.FailStepRecordsTheError := by
  intro s hb ht hp
  have hstep : step s = .next (failStep s) := (step_of_running ⟨hb, ht⟩).trans (phaseStep_fail hp)
  refine ⟨hstep, fun hs t h => ?_⟩
  rw [hstep] at h
  cases h
  exact hs.results_zero (by rw [hb]; decide)

end Sys2Proof.Machine
end

section
/-! 60_exceptions.md R271, R272: every error the block records is Structural, with the cause of one of the six checks. A
step writes `ERR` only to clear it or in `FAIL`, and `FAIL` is entered only where a check has noted its cause. -/

namespace Sys2Proof.Machine

/-! What a host move can leave, as a new state. -/

theorem storeReg_eq_setOperands (off : Nat) (v : Word) (s : State) : ∃ b o, storeReg off v s = s.setOperands b o := by
  unfold storeReg
  split
  · exact ⟨s.regs.bufLen, s.regs.offset, rfl⟩
  · split
    · exact ⟨v, s.regs.offset, rfl⟩
    · exact ⟨s.regs.bufLen, v, rfl⟩
    · exact ⟨s.regs.bufLen, s.regs.offset, rfl⟩

theorem tableRead_eq_setRdata (off : Nat) (s : State) : ∃ v k, tableRead off s = (s.setRdata v).setFresh k := by
  unfold tableRead
  split
  · exact ⟨entryWord _ (off % 32), s.fresh, rfl⟩
  · exact ⟨_, _, rfl⟩

/-- `t` is `s` but for the operand registers, the buffer and the host's side: what a host move other than reset and a
write to `CMD` may change. -/
def HostWrites (s t : State) : Prop :=
  ∃ b o m v k, t = (((s.setOperands b o).setBuf m).setRdata v).setFresh k

theorem hostWriteReg_hostWrites {size off : Nat} {v : Word} {s t : State} (h : hostWriteReg size off v s = .next t) :
    HostWrites s t := by
  unfold hostWriteReg at h
  split_ifs at h
  obtain ⟨b, o, e⟩ := storeReg_eq_setOperands off v s
  cases h
  exact ⟨b, o, s.buf, s.rdata, s.fresh, e⟩

theorem hostMove_hostWrites {m : HostMove} {s t : State} (h : hostMove m s = .next t) :
    HostWrites s t ∨ t = resetStep s := by
  cases m with
  | rdReg size off =>
    rw [hostMove, hostReadReg] at h
    split_ifs at h
    cases h
    exact .inl ⟨s.regs.bufLen, s.regs.offset, s.buf, regRead s.regs off, s.fresh, rfl⟩
  | wrReg size off v => exact .inl (hostWriteReg_hostWrites h)
  | wrRegLast size off => exact .inl (hostWriteReg_hostWrites h)
  | rdTbl size off =>
    rw [hostMove, hostReadTbl] at h
    split_ifs at h
    obtain ⟨v, k, e⟩ := tableRead_eq_setRdata off s
    cases h
    exact .inl ⟨s.regs.bufLen, s.regs.offset, s.buf, v, k, e⟩
  | rdBuf addr =>
    rw [hostMove, hostReadBuf] at h
    split_ifs at h
    cases h
    exact .inl ⟨s.regs.bufLen, s.regs.offset, s.buf, (byteAt s addr).setWidth 32, s.fresh, rfl⟩
  | wrBuf addr v =>
    rw [hostMove, hostWriteBuf] at h
    split_ifs at h
    cases h
    exact .inl ⟨s.regs.bufLen, s.regs.offset, sparseSet s.buf addr v, s.rdata, s.fresh, rfl⟩
  | reset => cases h; exact .inr rfl

/-! The cause noted on the way to `FAIL`. -/

theorem Cause.code_ok (c : Cause) : CauseOk c.code := by
  cases c <;> decide

/-- In `FAIL` a check's cause has been noted: the last clause of `BusyOk`, which every step keeps by itself. -/
def FailNoted (h : Hidden) : Prop :=
  h.ph = .fail → CauseOk h.ecause

theorem FailNoted.of_ne {h : Hidden} (hp : h.ph ≠ .fail) : FailNoted h := fun hf => absurd hf hp

/-- `t` is `s` but for the table and the hidden registers, which hold a cause if they are in `FAIL`: what a transition
does that does not end the command. -/
def GoesOn (s t : State) : Prop :=
  ∃ tb h, FailNoted h ∧ t = (s.setAvpt tb).setHid h

theorem GoesOn.of_setHid {s : State} {h : Hidden} (hn : FailNoted h) : GoesOn s (s.setHid h) := ⟨s.avpt, h, hn, rfl⟩

theorem phAAvail_goesOn (s : State) : GoesOn s (phAAvail s) := by
  rw [phAAvail_eq]
  refine .of_setHid ?_
  split
  · exact fun _ => Cause.avpHdrShort.code_ok
  · exact .of_ne nofun

theorem phAHdr_goesOn {s t : State} (h : phAHdr s = .next t) : GoesOn s t := by
  obtain ⟨_, -, h⟩ := withRead_eq_next h
  obtain ⟨_, -, h⟩ := withRead_eq_next h
  obtain ⟨_, -, h⟩ := withRead_eq_next h
  cases h
  exact .of_setHid (.of_ne nofun)

theorem phACheck_goesOn (s : State) : GoesOn s (phACheck s) := by
  rw [phACheck_eq]
  refine .of_setHid ?_
  split
  · exact fun _ => Cause.avpLenLtHdr.code_ok
  · split
    · exact fun _ => Cause.avpLenGtAvail.code_ok
    · exact .of_ne nofun

theorem phAVid_goesOn {s t : State} (h : phAVid s = .next t) : GoesOn s t := by
  obtain ⟨v, rfl⟩ := phAVid_eq_next h
  exact .of_setHid (.of_ne nofun)

theorem phAAdv_goesOn (s : State) : GoesOn s (phAAdv s) := .of_setHid (.of_ne (phAAdv_ph_ne_fail s))

theorem phMAvail_goesOn (s : State) : GoesOn s (phMAvail s) := by
  rw [phMAvail_eq]
  refine .of_setHid ?_
  split
  · exact fun _ => Cause.msgHdrShort.code_ok
  · exact .of_ne nofun

theorem phMLen_goesOn {s t : State} (h : phMLen s = .next t) : GoesOn s t := by
  obtain ⟨_, -, h⟩ := withRead_eq_next h
  obtain ⟨_, -, h⟩ := withRead_eq_next h
  cases h
  exact .of_setHid (.of_ne nofun)

theorem phMCheck_goesOn (s : State) : GoesOn s (phMCheck s) := by
  rw [phMCheck_eq]
  refine .of_setHid ?_
  split
  · exact fun _ => Cause.msgLenLtHdr.code_ok
  · split
    · exact fun _ => Cause.msgLenGtAvail.code_ok
    · exact .of_ne nofun

theorem phMHdr_goesOn {s t : State} (h : phMHdr s = .next t) : GoesOn s t := by
  obtain ⟨_, -, h⟩ := withRead_eq_next h
  obtain ⟨_, -, h⟩ := withRead_eq_next h
  obtain ⟨_, -, h⟩ := withRead_eq_next h
  obtain ⟨_, -, h⟩ := withRead_eq_next h
  obtain ⟨_, -, h⟩ := withRead_eq_next h
  cases h
  exact .of_setHid (.of_ne nofun)

theorem phMLoop_goesOn (s : State) : GoesOn s (phMLoop s) := by
  rw [phMLoop_eq]
  refine .of_setHid (.of_ne ?_)
  dsimp only
  split <;> decide

theorem phMAppend_goesOn {s t : State} (h : phMAppend s = .next t) : GoesOn s t := by
  unfold phMAppend at h
  split_ifs at h
  cases h
  refine ⟨_, _, ?_, rfl⟩
  exact .of_ne nofun

/-- A transition goes on, commits, or in `FAIL` takes the fail step (44_fsm.md R246). -/
theorem phaseStep_goesOn {s t : State} (h : phaseStep s = .next t) :
    GoesOn s t ∨ t = phCommit s ∨ s.hid.ph = .fail ∧ t = failStep s := by
  cases hp : s.hid.ph with
  | aAvail => cases (phaseStep_aAvail hp).symm.trans h; exact .inl (phAAvail_goesOn s)
  | aHdr => exact .inl (phAHdr_goesOn ((phaseStep_aHdr hp).symm.trans h))
  | aCheck => cases (phaseStep_aCheck hp).symm.trans h; exact .inl (phACheck_goesOn s)
  | aVid => exact .inl (phAVid_goesOn ((phaseStep_aVid hp).symm.trans h))
  | aAdv => cases (phaseStep_aAdv hp).symm.trans h; exact .inl (phAAdv_goesOn s)
  | mAvail => cases (phaseStep_mAvail hp).symm.trans h; exact .inl (phMAvail_goesOn s)
  | mLen => exact .inl (phMLen_goesOn ((phaseStep_mLen hp).symm.trans h))
  | mCheck => cases (phaseStep_mCheck hp).symm.trans h; exact .inl (phMCheck_goesOn s)
  | mHdr => exact .inl (phMHdr_goesOn ((phaseStep_mHdr hp).symm.trans h))
  | mLoop => cases (phaseStep_mLoop hp).symm.trans h; exact .inl (phMLoop_goesOn s)
  | mAppend => exact .inl (phMAppend_goesOn ((phaseStep_mAppend hp).symm.trans h))
  | commit => cases (phaseStep_commit hp).symm.trans h; exact .inr (.inl rfl)
  | fail => cases (phaseStep_fail hp).symm.trans h; exact .inr (.inr ⟨rfl, rfl⟩)

theorem avpRecord_goesOn {code : Word} {flags : Byte} {len : U24} {s t : State}
    (h : avpRecord code flags len s = .next t) : GoesOn s t := by
  by_cases h8 : s.hid.lenL.toNat < s.hid.cur.toNat + 8
  · cases (avpRecord_short h8).symm.trans h
    exact .of_setHid fun _ => Cause.avpHdrShort.code_ok
  by_cases hbad : len.toNat < headerSize flags ∨ s.hid.lenL.toNat < s.hid.cur.toNat + len.toNat
  · cases (avpRecord_badLength (by omega) hbad).symm.trans h
    exact .of_setHid fun _ => Cause.code_ok (if len.toNat < headerSize flags then .avpLenLtHdr else .avpLenGtAvail)
  · cases (avpRecord_ok (by omega) (by omega)).symm.trans h
    exact .of_setHid (.of_ne (phAAdv_ph_ne_fail _))

theorem execMsgh_goesOn {version : Byte} {len : U24} {flags : Byte} {cc : U24} {app hbh e2e : Word} {s t : State}
    (h : execMsgh version len flags cc app hbh e2e s = .next t) : GoesOn s t := by
  by_cases h20 : s.hid.lenL.toNat < s.hid.base.toNat + 20
  · cases (execMsgh_short h20).symm.trans h
    exact .of_setHid fun _ => Cause.msgHdrShort.code_ok
  by_cases hbad : len.toNat < 20 ∨ s.hid.lenL.toNat < s.hid.base.toNat + len.toNat
  · cases (execMsgh_badLength (by omega) hbad).symm.trans h
    exact .of_setHid fun _ => Cause.code_ok (if len.toNat < 20 then .msgLenLtHdr else .msgLenGtAvail)
  · cases (execMsgh_ok (by omega) (by omega)).symm.trans h
    exact .of_setHid (.of_ne nofun)

/-! `ERR` along a run. -/

/-- `ERR` holds no error, or a Structural one with a check's cause. -/
def ErrReg.NoneOrStructural (e : ErrReg) : Prop :=
  e = { kind := 0, cause := 0 } ∨ e.kind = 1 ∧ CauseOk e.cause

/-- `ERR` is as it should be, and what the fail step would copy into it. -/
structure ErrorOk (s : State) : Prop where
  err : s.regs.err.NoneOrStructural
  noted : FailNoted s.hid

theorem ErrorOk.of_goesOn {s t : State} (hs : ErrorOk s) (h : GoesOn s t) : ErrorOk t := by
  obtain ⟨tb, h', hn, rfl⟩ := h
  exact ⟨hs.err, hn⟩

theorem ErrorOk.of_hostWrites {s t : State} (hs : ErrorOk s) (h : HostWrites s t) : ErrorOk t := by
  obtain ⟨b, o, m, v, k, rfl⟩ := h
  exact ⟨hs.err, hs.noted⟩

theorem ErrorOk.phCommit {s : State} (hs : ErrorOk s) : ErrorOk (phCommit s) := by
  unfold Machine.phCommit
  cases s.hid.top <;> exact ⟨hs.err, hs.noted⟩

theorem ErrorOk.failStep {s : State} (hs : ErrorOk s) (hp : s.hid.ph = .fail) : ErrorOk (failStep s) :=
  ⟨.inr ⟨rfl, hs.noted hp⟩, hs.noted⟩

theorem acceptStep_errorOk (top : Top) (w : BitVec 2) (s : State) : ErrorOk (acceptStep top w s) :=
  ⟨.inl rfl, .of_ne (by cases top <;> nofun)⟩

theorem accept_keeps_errorOk {top : Top} {w : BitVec 2} {s t : State} (hs : ErrorOk s) (h : accept top w s = .next t) :
    ErrorOk t := by
  rcases accept_cases top w s with ⟨-, e⟩ | ⟨-, -, e⟩ | ⟨-, -, e⟩ <;> cases e.symm.trans h
  · exact hs
  · exact acceptStep_errorOk top w s

theorem parserTurn_keeps_errorOk {s t : State} (hs : ErrorOk s) (h : parserTurn s = .next t) : ErrorOk t := by
  unfold parserTurn at h
  split at h
  · rcases phaseStep_goesOn h with hgo | rfl | ⟨hp, rfl⟩
    · exact hs.of_goesOn hgo
    · exact hs.phCommit
    · exact hs.failStep hp
  · cases h; exact hs

theorem exec_keeps_errorOk {i : Instr} {s t : State} (hs : ErrorOk s) (h : exec i s = .next t) : ErrorOk t := by
  cases i with
  | clear =>
    rcases execClear_cases s with ⟨-, e⟩ | ⟨-, e⟩ <;> cases e.symm.trans h
    · exact hs
    · exact ⟨.inl rfl, hs.noted⟩
  | decodeAvp => exact accept_keeps_errorOk hs h
  | decodeMsg => exact accept_keeps_errorOk hs h
  | avp8 code m p rsv len => exact hs.of_goesOn (avpRecord_goesOn h)
  | avp12 code m p rsv len => exact hs.of_goesOn (avpRecord_goesOn h)
  | msgh version len flags cc app hbh e2e => exact hs.of_goesOn (execMsgh_goesOn h)

theorem hostMove_keeps_errorOk {m : HostMove} {s t : State} (hs : ErrorOk s) (h : hostMove m s = .next t) :
    ErrorOk t := by
  rcases hostMove_hostWrites h with hw | rfl
  · exact hs.of_hostWrites hw
  · exact ⟨.inl rfl, .of_ne nofun⟩

theorem step_keeps_errorOk {s t : State} (hs : ErrorOk s) (h : step s = .next t) : ErrorOk t := by
  rcases step_cases s with ⟨ts, v, e⟩ | ⟨ts, i, e, -⟩ | ⟨m, ts, -, e⟩ | ⟨ts, v, e⟩ <;> rw [e] at h
  · exact parserTurn_keeps_errorOk (s := (s.setRdata v).setTurns ts) ⟨hs.err, hs.noted⟩ h
  · exact exec_keeps_errorOk (s := s.setTurns ts) ⟨hs.err, hs.noted⟩ h
  · exact hostMove_keeps_errorOk (s := s.setTurns ts) ⟨hs.err, hs.noted⟩ h
  · cases h; exact ⟨hs.err, hs.noted⟩

theorem Reachable.errorOk {s : State} (hs : Reachable s) : ErrorOk s := by
  induction hs with
  | reset cap turns hcap => exact ⟨.inl rfl, .of_ne nofun⟩
  | step s t _ h ih => exact step_keeps_errorOk ih h

/-- The words of the six Structural errors, the cause in bits [10:8] (10_state.md R29). -/
theorem ErrReg.word_of_structural (c : BitVec 3) (hc : CauseOk c) :
    ErrReg.word { kind := 1, cause := c } ∈
      [0x00000101, 0x00000201, 0x00000301, 0x00000401, 0x00000501, (0x00000601 : Word)] := by
  revert c
  decide

/-- Settles O56: reset has no error and no cause noted, and every step keeps `ERR` none or Structural
(`step_keeps_errorOk`); the words are those of the six causes. -/
theorem errKindIsNoneOrStructural : Obligations.ErrKindIsNoneOrStructural := by
  intro s hs
  generalize herr : s.regs.err = e
  rcases herr ▸ hs.errorOk.err with rfl | ⟨hkind, hcause⟩
  · exact ⟨.inl rfl, by decide⟩
  · obtain ⟨kind, cause⟩ := e
    cases hkind
    exact ⟨.inr rfl, List.mem_cons_of_mem _ (ErrReg.word_of_structural cause hcause)⟩

end Sys2Proof.Machine
end

section
/-! 30_encoding.md sections 1 to 4: the round trip of encoder and decoder in both directions, field by field, and the V
bit. -/

namespace Sys2Proof.Machine

/-- A field of whole bytes, read back from the front of the bytes it was written to. -/
theorem ofNat_fieldAt_front {w n : Nat} (v : BitVec w) (rest : List Byte) (h : 2 ^ w = 256 ^ n) :
    BitVec.ofNat w (fieldAt (beBytes n v.toNat ++ rest) 0 n) = v := by
  have hfront := fieldAt_append_left (beBytes n v.toNat) rest
  rw [beBytes_length, beValue_beBytes_of_lt (h ▸ v.isLt)] at hfront
  rw [hfront, BitVec.ofNat_toNat, BitVec.setWidth_eq]

theorem fieldAt_beBytes_skip {n k : Nat} (v w : Nat) (rest : List Byte) (h : n ≤ k) :
    fieldAt (beBytes n v ++ rest) k w = fieldAt rest (k - n) w := by
  obtain ⟨j, rfl⟩ := Nat.exists_eq_add_of_le h
  have hskip := fieldAt_append_right (beBytes n v) rest j w
  rw [beBytes_length] at hskip
  rw [hskip, Nat.add_sub_cancel_left]

theorem encode_length (i : Instr) : (encode i).length = i.format.bytes := by
  cases i with
  | clear => exact Laws.Width.clear
  | decodeAvp => exact Laws.Width.decodeAvp
  | decodeMsg => exact Laws.Width.decodeMsg
  | avp8 code m p rsv len => exact Laws.Width.avp8 code m p rsv len
  | avp12 code m p rsv len => exact Laws.Width.avp12 code m p rsv len
  | msgh version len flags cc app hbh e2e => exact Laws.Width.msgh version len flags cc app hbh e2e

/-- The fields of an AVP base header, read back from its bytes (30_encoding.md R91). -/
theorem decodeAvpHeader_encodeAvpHeader (code : Word) (flags : Byte) (len : U24) (rest : List Byte) :
    decodeAvpHeader (encodeAvpHeader code flags len ++ rest) = avpInstr code flags len := by
  simp (disch := decide) [decodeAvpHeader, encodeAvpHeader, fieldAt_beBytes_skip, ofNat_fieldAt_front]

/-- The fields of a Message header, read back from its bytes (30_encoding.md R95). -/
theorem decodeMsgHeader_encode (version : Byte) (len : U24) (flags : Byte) (cc : U24) (app hbh e2e : Word)
    (rest : List Byte) :
    decodeMsgHeader (encode (.msgh version len flags cc app hbh e2e) ++ rest) =
      .msgh version len flags cc app hbh e2e := by
  simp (disch := decide) [decodeMsgHeader, encode, fieldAt_beBytes_skip, ofNat_fieldAt_front]

/-- The V bit of the flags written chooses the form, and the other bits are its operands (30_encoding.md R92, R99). -/
theorem avpInstr_flagsByte (code : Word) (v m p : Bool) (rsv : BitVec 5) (len : U24) :
    avpInstr code (flagsByte v m p rsv) len = if v then .avp12 code m p rsv len else .avp8 code m p rsv len := by
  obtain ⟨hm, hp, hrsv⟩ := flagsByte_fields v m p rsv
  rw [avpInstr, hasVendorId_flagsByte, hm, hp, hrsv]

section
variable {bs : List Byte}

theorem decode_cmdw_of_le (h : 4 ≤ bs.length) :
    decode .cmdw bs = (decodeCmd (BitVec.ofNat 32 (fieldAt bs 0 4))).map fun i => (i, bs.drop 4) :=
  if_neg (Nat.not_lt.2 h)

theorem decode_avp_of_le (h : 8 ≤ bs.length) : decode .avp bs = .ok (decodeAvpHeader bs, bs.drop 8) :=
  if_neg (Nat.not_lt.2 h)

theorem decode_msgh_of_le (h : 20 ≤ bs.length) : decode .msgh bs = .ok (decodeMsgHeader bs, bs.drop 20) :=
  if_neg (Nat.not_lt.2 h)

theorem le_of_decode_ok {f : Format} {x : Instr × List Byte} (h : decode f bs = .ok x) : f.bytes ≤ bs.length := by
  by_contra hlt
  unfold decode at h
  rw [if_pos (Nat.lt_of_not_le hlt)] at h
  cases h

end

theorem decode_encode_avp (code : Word) (v m p : Bool) (rsv : BitVec 5) (len : U24) (rest : List Byte) :
    decode .avp (encodeAvpHeader code (flagsByte v m p rsv) len ++ rest) =
      .ok (if v then .avp12 code m p rsv len else .avp8 code m p rsv len, rest) := by
  have hlen : (encodeAvpHeader code (flagsByte v m p rsv) len).length = 8 := by simp [encodeAvpHeader]
  rw [decode_avp_of_le (by simp [hlen]), decodeAvpHeader_encodeAvpHeader, avpInstr_flagsByte, List.drop_left' hlen]

theorem decode_encode_cmd (w : Word) (rest : List Byte) :
    decode .cmdw (beBytes 4 w.toNat ++ rest) = (decodeCmd w).map fun i => (i, rest) := by
  rw [decode_cmdw_of_le (by simp), ofNat_fieldAt_front w rest (by decide), List.drop_left' (beBytes_length _ _)]

/-- Decoding undoes encoding, and hands back what stands behind the record. -/
theorem decode_encode (i : Instr) (rest : List Byte) : decode i.format (encode i ++ rest) = .ok (i, rest) := by
  cases i with
  | clear => exact decode_encode_cmd 0 rest
  | decodeAvp => exact decode_encode_cmd 1 rest
  | decodeMsg => exact decode_encode_cmd 2 rest
  | avp8 code m p rsv len => exact decode_encode_avp code false m p rsv len rest
  | avp12 code m p rsv len => exact decode_encode_avp code true m p rsv len rest
  | msgh version len flags cc app hbh e2e =>
    have hlen : (encode (.msgh version len flags cc app hbh e2e)).length = 20 := encode_length _
    exact (decode_msgh_of_le (by simp [hlen])).trans (by rw [decodeMsgHeader_encode, List.drop_left' hlen])

theorem formatOfBits_bytes (f : Format) : formatOfBits (8 * f.bytes) = some f := by
  cases f <;> rfl

/-- The table's number of an instruction is below `2 ^ width`, and its bytes are the encoding (30_encoding.md R108). -/
theorem decodeTableWord_encodeTableWord (i : Instr) :
    decodeTableWord (8 * i.format.bytes) (encodeTableWord i) = some i := by
  have hlt := beValue_lt (encode i)
  rw [encode_length, show (256 : Nat) = 2 ^ 8 from rfl, ← pow_mul] at hlt
  have hbytes := beBytes_beValue (encode i)
  rw [encode_length] at hbytes
  have hdec := decode_encode i []
  rw [List.append_nil] at hdec
  rw [decodeTableWord, encodeTableWord, if_pos hlt, formatOfBits_bytes, Nat.mul_div_cancel_left _ (by decide), hbytes]
  simp only [hdec, decodedInstr]

/-- Settles O2: the bytes by `decode_encode`, form by form; the table's number is the same bytes as one number. -/
theorem decodeOfEncodeIsTheInstruction : Obligations.DecodeOfEncodeIsTheInstruction :=
  fun i rest => ⟨decode_encode i rest, decodeTableWord_encodeTableWord i⟩

/-- The bytes of a field are where it was read. -/
theorem beBytes_fieldAt {bs : List Byte} {k n : Nat} (h : k + n ≤ bs.length) :
    beBytes n (fieldAt bs k n) = (bs.drop k).take n := by
  have hbytes := beBytes_beValue ((bs.drop k).take n)
  rwa [List.length_take, List.length_drop, Nat.min_eq_left (by omega)] at hbytes

/-- The same with the field in a register of its width. -/
theorem beBytes_ofNat_fieldAt {bs : List Byte} {k n w : Nat} (h : k + n ≤ bs.length) (hw : 2 ^ w = 256 ^ n) :
    beBytes n (BitVec.ofNat w (fieldAt bs k n)).toNat = (bs.drop k).take n := by
  rw [BitVec.toNat_ofNat, hw, Nat.mod_eq_of_lt (fieldAt_lt bs k n), beBytes_fieldAt h]

/-- Two neighbouring fields are one. -/
theorem take_drop_append (bs : List Byte) (k n m : Nat) :
    (bs.drop k).take n ++ (bs.drop (k + n)).take m = (bs.drop k).take (n + m) := by
  rw [List.take_add, List.drop_drop]

theorem encode_avpInstr (code : Word) (flags : Byte) (len : U24) :
    (avpInstr code flags len).format = .avp ∧ encode (avpInstr code flags len) = encodeAvpHeader code flags len := by
  have hflags := flagsByte_eta flags
  unfold avpInstr
  split
  · next hv => rw [hv] at hflags; exact ⟨rfl, congrArg (encodeAvpHeader code · len) hflags⟩
  · next hv => rw [Bool.eq_false_of_not_eq_true hv] at hflags; exact ⟨rfl, congrArg (encodeAvpHeader code · len) hflags⟩

theorem encode_decodeAvpHeader {bs : List Byte} (h : 8 ≤ bs.length) : encode (decodeAvpHeader bs) = bs.take 8 := by
  rw [decodeAvpHeader, (encode_avpInstr _ _ _).2, encodeAvpHeader, beBytes_ofNat_fieldAt (by omega) (by decide),
    beBytes_ofNat_fieldAt (by omega) (by decide), beBytes_ofNat_fieldAt (by omega) (by decide),
    take_drop_append bs 4 1 3]
  exact take_drop_append bs 0 4 4

theorem encode_decodeMsgHeader {bs : List Byte} (h : 20 ≤ bs.length) : encode (decodeMsgHeader bs) = bs.take 20 := by
  simp (disch := omega) only [decodeMsgHeader, encode, beBytes_ofNat_fieldAt]
  rw [take_drop_append bs 12 4 4, take_drop_append bs 8 4 (4 + 4), take_drop_append bs 5 3 12,
    take_drop_append bs 4 1 15, take_drop_append bs 1 3 16]
  exact take_drop_append bs 0 1 19

/-- A command that decodes is one of the three words, whose number its encoding is. -/
theorem encode_of_decodeCmd {w : Word} {i : Instr} (h : decodeCmd w = .ok i) :
    i.format = .cmdw ∧ encode i = beBytes 4 w.toNat := by
  unfold decodeCmd at h
  split_ifs at h with h0 h1 h2 <;> cases h
  · exact ⟨rfl, by rw [h0]; rfl⟩
  · exact ⟨rfl, by rw [h1]; rfl⟩
  · exact ⟨rfl, by rw [h2]; rfl⟩

/-- What is decoded is of the format asked for, and its encoding is the bytes read. -/
theorem encode_of_decode {f : Format} {bs rest : List Byte} {i : Instr} (h : decode f bs = .ok (i, rest)) :
    i.format = f ∧ encode i = bs.take f.bytes ∧ rest = bs.drop f.bytes := by
  have hlen := le_of_decode_ok h
  cases f with
  | cmdw =>
    rw [decode_cmdw_of_le hlen] at h
    cases hd : decodeCmd (BitVec.ofNat 32 (fieldAt bs 0 4)) with
    | error e => rw [hd] at h; cases h
    | ok j =>
      rw [hd] at h
      cases h
      obtain ⟨hf, henc⟩ := encode_of_decodeCmd hd
      exact ⟨hf, henc.trans (beBytes_ofNat_fieldAt hlen (by decide)), rfl⟩
  | avp =>
    rw [decode_avp_of_le hlen] at h
    cases h
    exact ⟨(encode_avpInstr _ _ _).1, encode_decodeAvpHeader hlen, rfl⟩
  | msgh =>
    rw [decode_msgh_of_le hlen] at h
    cases h
    exact ⟨rfl, encode_decodeMsgHeader hlen, rfl⟩

/-- Settles O3: each format's fields are its bytes in their places (`encode_of_decode`). -/
theorem encodeOfDecodeIsTheBytes : Obligations.EncodeOfDecodeIsTheBytes := by
  intro f bs rest i h
  obtain ⟨hf, henc, hrest⟩ := encode_of_decode h
  exact ⟨hf, by rw [henc, hrest, List.take_append_drop]⟩

/-- Which form a header is, and nothing but the V bit of its flags decides it (30_encoding.md R99). -/
theorem avpInstr_form (code : Word) (flags : Byte) (len : U24) :
    ((∃ c m p r l, avpInstr code flags len = .avp12 c m p r l) ↔ hasVendorId flags = true) ∧
    ((∃ c m p r l, avpInstr code flags len = .avp8 c m p r l) ↔ hasVendorId flags = false) := by
  cases hv : hasVendorId flags <;> simp [avpInstr, hv]

theorem ofNat_fieldAt_byte {bs : List Byte} {k : Nat} (h : k < bs.length) :
    BitVec.ofNat 8 (fieldAt bs k 1) = bs.getD k 0 := by
  rw [fieldAt, List.drop_eq_getElem_cons h, List.getD_eq_getElem _ _ h, List.take_succ_cons, List.take_zero]
  simp [beValue]

/-- Settles O5: the form is chosen by the V bit of byte 4, which is its mask 0x80. -/
theorem vBitPicksTheAvpForm : Obligations.VBitPicksTheAvpForm := by
  intro bs rest i h
  have hlen : 8 ≤ bs.length := le_of_decode_ok h
  rw [decode_avp_of_le hlen] at h
  cases h
  obtain ⟨h12, h8⟩ := avpInstr_form (BitVec.ofNat 32 (fieldAt bs 0 4)) (bs.getD 4 0) (BitVec.ofNat 24 (fieldAt bs 5 3))
  rw [decodeAvpHeader, ofNat_fieldAt_byte (by omega), h12, h8, ← Bool.not_eq_true, hasVendorId_iff_mask]
  exact ⟨Iff.rfl, not_ne_iff⟩

/-- Settles O4: the decoder run on each of the words. -/
theorem wordsOfTheTableDecode : Obligations.WordsOfTheTableDecode := by
  refine ⟨?_, ?_, ?_, ?_, ?_, ?_, ?_, ?_, ?_⟩ <;> decide

end Sys2Proof.Machine
end

section
/-! The invariant of a BUSY block, phase by phase (44_fsm.md R232 to R246): each transition completes, keeps the
invariant, never moves the cursor back, and leaves fewer transitions to come. -/

namespace Sys2Proof.Machine

/-- What the hidden registers hold in phase `p`: the clauses of `BusyOk` as one, by the phase. -/
def PhaseOk (cap : Nat) (h : Hidden) (p : Phase) : Prop :=
  match p with
  | .aAvail => AvpStart h
  | .aHdr => AvpHeaderIn h
  | .aCheck => AvpHeaderIn h ∧ h.sAvp.len = h.alen
  | .aVid => AvpChecked h
  | .aAdv => AvpChecked h ∧ (hasVendorId h.sAvp.flags = false → h.sAvp.vendorId = 0)
  | .mAvail => MsgStart h
  | .mLen => MsgHeaderIn h
  | .mCheck => MsgHeaderIn h ∧ h.sMsg.length = h.mlen
  | .mHdr => MsgHeaderIn h ∧ MsgRunning h
  | .mLoop => BetweenAvps h
  | .mAppend =>
    BetweenAvps h ∧ h.base.toNat + 28 + 8 * h.n.toNat ≤ h.cur.toNat ∧
      h.base.toNat + 28 + 8 * h.n.toNat ≤ h.lenL.toNat ∧ 20 + 8 * h.n.toNat < h.mlen.toNat ∧ DescOk cap h.sAvp
  | .commit =>
    (h.top = .avp → DescOk cap h.sAvp ∧ h.base.toNat + 8 ≤ h.cur.toNat ∧ h.cur.toNat ≤ h.lenL.toNat + 3) ∧
      (h.top = .msg → BetweenAvps h ∧ h.base.toNat + h.mlen.toNat ≤ h.cur.toNat)
  | .fail => CauseOk h.ecause

/-- What holds of a running command in every phase. -/
structure CommandOk (cap : Nat) (t : Table) (h : Hidden) : Prop where
  len : h.lenL.toNat ≤ cap
  base : h.base.toNat ≤ h.cur.toNat
  aligned : (h.cur.toNat - h.base.toNat) % 4 = 0
  entries : ∀ i, i < h.n.toNat → entryOk cap t i = true

theorem busyOk_iff {cap : Nat} {t : Table} {h : Hidden} : BusyOk cap t h ↔ CommandOk cap t h ∧ PhaseOk cap h h.ph := by
  have hcommon : CommandOk cap t h ↔ h.lenL.toNat ≤ cap ∧ (h.base.toNat ≤ h.cur.toNat ∧
      (h.cur.toNat - h.base.toNat) % 4 = 0) ∧ ∀ i, i < h.n.toNat → entryOk cap t i = true :=
    ⟨fun ⟨h1, h2, h3, h4⟩ => ⟨h1, ⟨h2, h3⟩, h4⟩, fun ⟨h1, ⟨h2, h3⟩, h4⟩ => ⟨h1, h2, h3, h4⟩⟩
  rw [hcommon]
  cases hp : h.ph <;> simp only [BusyOk, PhaseOk, hp, reduceCtorEq, false_imp_iff, true_imp_iff, and_true, true_and, and_assoc]

/-- `h'` is at or behind where `h` is in the same command: the cursor moves forward, by whole words. -/
structure Forward (h h' : Hidden) : Prop where
  base : h'.base = h.base
  lenL : h'.lenL = h.lenL
  top : h'.top = h.top
  cur_le : h.cur.toNat ≤ h'.cur.toNat
  aligned : (h'.cur.toNat - h.cur.toNat) % 4 = 0

theorem Forward.of_cur_eq {h h' : Hidden} (hb : h'.base = h.base) (hl : h'.lenL = h.lenL) (ht : h'.top = h.top)
    (hc : h'.cur = h.cur) : Forward h h' :=
  ⟨hb, hl, ht, by rw [hc], by rw [hc, Nat.sub_self]⟩

theorem Forward.refl (h : Hidden) : Forward h h := .of_cur_eq rfl rfl rfl rfl

theorem Forward.trans {h h' h'' : Hidden} (h1 : Forward h h') (h2 : Forward h' h'') : Forward h h'' := by
  obtain ⟨hb1, hl1, ht1, hc1, ha1⟩ := h1
  obtain ⟨hb2, hl2, ht2, hc2, ha2⟩ := h2
  exact ⟨hb2.trans hb1, hl2.trans hl1, ht2.trans ht1, hc1.trans hc2, by omega⟩

/-- How many AVPs a Message can still hold from the cursor on: each takes at least 8 bytes (42_decode_msg.md R185). -/
def avpsLeft (h : Hidden) : Nat :=
  match h.top with
  | .avp => 0
  | .msg => (h.mlen.toNat + 7 - (h.cur.toNat - h.base.toNat)) / 8

/-- A bound on the transitions a BUSY block still takes, the last one included (44_fsm.md section 6): seven for each AVP. Up to
`M_LEN` the declared length is not known, but below 2^24. -/
def stepsLeft (h : Hidden) : Nat :=
  match h.ph with
  | .aAvail => 8 + 7 * (avpsLeft h - 1)
  | .aHdr => 7 + 7 * (avpsLeft h - 1)
  | .aCheck => 6 + 7 * (avpsLeft h - 1)
  | .aVid => 5 + 7 * (avpsLeft h - 1)
  | .aAdv => 4 + 7 * (avpsLeft h - 1)
  | .mAvail => 6 + 7 * 2 ^ 21
  | .mLen => 5 + 7 * 2 ^ 21
  | .mCheck => 4 + 7 * ((h.mlen.toNat + 7 - 20) / 8)
  | .mHdr => 3 + 7 * ((h.mlen.toNat + 7 - 20) / 8)
  | .mLoop => 2 + 7 * avpsLeft h
  | .mAppend => 3 + 7 * avpsLeft h
  | .commit => 1
  | .fail => 1

theorem avpsLeft_le (h : Hidden) : avpsLeft h ≤ 2 ^ 21 := by
  have := h.mlen.isLt
  unfold avpsLeft
  split <;> omega

theorem stepsLeft_le (h : Hidden) : stepsLeft h ≤ 2 ^ 24 := by
  have := h.mlen.isLt
  have := avpsLeft_le h
  unfold stepsLeft
  split <;> omega

theorem stepsLeft_pos (h : Hidden) : 0 < stepsLeft h := by
  unfold stepsLeft
  split <;> omega

/-- The registers of a BUSY block do not depend on the table or, but for `TOP`, on the hidden registers. -/
theorem regsOk_moved {s : State} {tb : Table} {h : Hidden} (hr : RegsOk s) (hb : s.regs.status = .busy)
    (ht : h.top = s.hid.top) : RegsOk ((s.setAvpt tb).setHid h) := by
  obtain ⟨h1, h2, h3, h4, hcmd, h6, h7, hzero, h9, h10, h11, -⟩ := hr
  have hcount : s.regs.avpCount = 0 := (hzero (by rw [hb]; decide)).2.2
  refine ⟨h1, h2, h3, h4, fun hst => (hcmd hst).trans (congrArg _ ht.symm), h6, h7, hzero, h9, h10, h11, fun i hi => ?_⟩
  exact absurd hi (by simp [hcount])

/-- A BUSY block with other hidden registers and another table. -/
theorem Inv.moved {s : State} {tb : Table} {h : Hidden} (hs : Inv s) (hb : s.regs.status = .busy)
    (ht : h.top = s.hid.top) (hwf : Table.wf tb = true) (hbelow : keysBelow (Config.avptCap s.bufCap) tb = true)
    (hc : CommandOk s.bufCap tb h) (hp : PhaseOk s.bufCap h h.ph) : Inv ((s.setAvpt tb).setHid h) :=
  ⟨hs.cap, hs.bufWf, hs.bufBelow, hwf, hbelow, hs.done, regsOk_moved hs.regs hb ht, fun _ => busyOk_iff.2 ⟨hc, hp⟩⟩

/-- What a transition of a BUSY block in a state of the invariant does. -/
structure Advances (s t : State) : Prop where
  step : phaseStep s = .next t
  inv : Inv t
  forward : Forward s.hid t.hid
  progress : t.regs = s.regs ∧ stepsLeft t.hid < stepsLeft s.hid ∨
    (s.hid.ph = .commit ∨ s.hid.ph = .fail) ∧ t.regs.status.isDone = true

/-- A BUSY block in a state of the invariant, and what that says of its phase. -/
structure BusyInv (s : State) : Prop where
  inv : Inv s
  busy : s.regs.status = .busy
  command : CommandOk s.bufCap s.avpt s.hid
  phase : PhaseOk s.bufCap s.hid s.hid.ph

theorem Inv.busyInv {s : State} (hs : Inv s) (hb : s.regs.status = .busy) : BusyInv s :=
  have ⟨hc, hp⟩ := busyOk_iff.1 (hs.busy hb)
  ⟨hs, hb, hc, hp⟩

theorem BusyInv.at {s : State} {p : Phase} (hs : BusyInv s) (hp : s.hid.ph = p) : PhaseOk s.bufCap s.hid p :=
  hp ▸ hs.phase

/-- A transition that writes the hidden registers alone. -/
theorem BusyInv.advances_setHid {s : State} {h : Hidden} (hs : BusyInv s) (hstep : phaseStep s = .next (s.setHid h))
    (hf : Forward s.hid h) (hn : h.n = s.hid.n) (hp : PhaseOk s.bufCap h h.ph) (hless : stepsLeft h < stepsLeft s.hid) :
    ∃ t, Advances s t := by
  obtain ⟨hlen, hbase, haligned, hentries⟩ := hs.command
  obtain ⟨fb, fl, ft, fc, fa⟩ := hf
  have hc : CommandOk s.bufCap s.avpt h := by
    refine ⟨fl ▸ hlen, fb ▸ hbase.trans fc, ?_, hn ▸ hentries⟩
    rw [fb]
    omega
  exact ⟨_, hstep, hs.inv.moved hs.busy ft hs.inv.avptWf hs.inv.avptBelow hc hp, ⟨fb, fl, ft, fc, fa⟩,
    .inl ⟨rfl, hless⟩⟩

/-- A transition to `FAIL`, the cause noted. -/
theorem BusyInv.advances_fail {s : State} {h : Hidden} (hs : BusyInv s) (hstep : phaseStep s = .next (s.setHid h))
    (hf : Forward s.hid h) (hn : h.n = s.hid.n) (hp : h.ph = .fail) (hcause : CauseOk h.ecause)
    (hless : 1 < stepsLeft s.hid) : ∃ t, Advances s t :=
  hs.advances_setHid hstep hf hn (by rw [hp]; exact hcause) (by rw [stepsLeft, hp]; exact hless)

/-- `HS` is 12 exactly where the record has a vendor id. -/
theorem hs_eq_twelve {h : Hidden} (hhs : h.hs.toNat = headerSize h.sAvp.flags) :
    h.hs = 12 ↔ hasVendorId h.sAvp.flags = true := by
  rw [← headerSize_code, ← hhs, BitVec.ofNat_toNat, BitVec.setWidth_eq]

/-- The registers `A_ADV` writes, as naturals: nothing wraps, the data view lies in the buffer, and the cursor goes behind
the padded record (44_fsm.md R237). -/
structure AvpAdvanced (h h' : Hidden) : Prop where
  off : h'.sAvp.dataOff.toNat = h.cur.toNat + headerSize h.sAvp.flags
  len : h'.sAvp.dataLen.toNat = h.alen.toNat - headerSize h.sAvp.flags
  cur : h'.cur.toNat = h.cur.toNat + headerSize h.sAvp.flags + paddedLength (h.alen.toNat - headerSize h.sAvp.flags)

theorem phAAdv_advanced {s : State} (hcap : s.hid.lenL.toNat ≤ Config.bufCapMax) (h : AvpChecked s.hid) :
    AvpAdvanced s.hid (phAAdv s).hid := by
  obtain ⟨⟨-, hin, havail⟩, -, hhs, hhdr, hle⟩ := h
  have hpad := paddedLength_bounds (s.hid.alen.toNat - headerSize s.hid.sAvp.flags)
  have halen := s.hid.alen.isLt
  rw [Config.bufCapMax] at hcap
  refine ⟨?_, ?_, ?_⟩ <;> simp only [phAAdv, State.setHid_hid, hhs, BitVec.toNat_ofNat] <;>
    exact Nat.mod_eq_of_lt (by omega)

/-- Writing entry `n` leaves the entries below it, and makes it a decoded AVP. -/
theorem entryOk_set {cap n : Nat} {t : Table} {d : Desc} (ht : ∀ i, i < n → entryOk cap t i = true)
    (hd : DescOk cap d) {i : Nat} (hi : i < n + 1) : entryOk cap (sparseSet t n d) i = true := by
  rw [entryOk, sparseGet_set]
  rcases Nat.lt_succ_iff_lt_or_eq.1 hi with hlt | rfl
  · rw [if_neg (Nat.ne_of_lt hlt)]
    exact ht i hlt
  · rw [if_pos rfl]
    exact decide_eq_true hd

section
variable {s : State} (hs : BusyInv s)
include hs

theorem BusyInv.advances_aAvail (hp : s.hid.ph = .aAvail) : ∃ t, Advances s t := by
  have hstart : AvpStart s.hid := hs.at hp
  by_cases h8 : s.hid.cur.toNat + 8 ≤ s.hid.lenL.toNat
  · refine hs.advances_setHid ((phaseStep_aAvail hp).trans (congrArg _ (phAAvail_of_le h8)))
      (.of_cur_eq rfl rfl rfl rfl) rfl ⟨hstart, h8, bytesLeft_toNat _ _⟩ ?_
    simp only [stepsLeft, hp]
    exact Nat.add_lt_add_right (by decide) _
  · exact hs.advances_fail ((phaseStep_aAvail hp).trans (congrArg _ (phAAvail_of_lt (Nat.lt_of_not_le h8))))
      (.of_cur_eq rfl rfl rfl rfl) rfl rfl (Cause.code_ok _) (by simp only [stepsLeft, hp]; omega)

theorem BusyInv.advances_aHdr (hp : s.hid.ph = .aHdr) : ∃ t, Advances s t := by
  have hin : AvpHeaderIn s.hid := hs.at hp
  refine hs.advances_setHid ((phaseStep_aHdr hp).trans (phAHdr_of_le hin.2.1))
    (.of_cur_eq rfl rfl rfl rfl) rfl ⟨hin, rfl⟩ ?_
  simp only [stepsLeft, hp]
  exact Nat.add_lt_add_right (by decide) _

theorem BusyInv.advances_aCheck (hp : s.hid.ph = .aCheck) : ∃ t, Advances s t := by
  obtain ⟨hin, hlen⟩ := hs.at hp
  have hstep := phaseStep_aCheck hp
  rw [phACheck_eq] at hstep
  have hless : 1 < stepsLeft s.hid := by simp only [stepsLeft, hp]; omega
  by_cases h1 : s.hid.alen.toNat < headerSize s.hid.sAvp.flags
  · rw [if_pos h1] at hstep
    exact hs.advances_fail hstep (.of_cur_eq rfl rfl rfl rfl) rfl rfl (Cause.code_ok _) hless
  rw [if_neg h1] at hstep
  by_cases h2 : s.hid.avail.toNat < s.hid.alen.toNat
  · rw [if_pos h2] at hstep
    exact hs.advances_fail hstep (.of_cur_eq rfl rfl rfl rfl) rfl rfl (Cause.code_ok _) hless
  rw [if_neg h2] at hstep
  refine hs.advances_setHid hstep (.of_cur_eq rfl rfl rfl rfl) rfl
    ⟨hin, hlen, headerSize_toNat _, Nat.le_of_not_lt h1, Nat.le_of_not_lt h2⟩ ?_
  simp only [stepsLeft, hp]
  exact Nat.add_lt_add_right (by decide) _

theorem BusyInv.advances_aVid (hp : s.hid.ph = .aVid) : ∃ t, Advances s t := by
  have hchecked : AvpChecked s.hid := hs.at hp
  obtain ⟨⟨-, hin, havail⟩, -, hhs, hhdr, hle⟩ := hchecked
  have hread : s.hid.hs = 12 → s.hid.cur.toNat + 12 ≤ s.hid.lenL.toNat := fun h12 => by
    rw [h12] at hhs
    change 12 = _ at hhs
    omega
  refine hs.advances_setHid ((phaseStep_aVid hp).trans (phAVid_of_le hread)) (.of_cur_eq rfl rfl rfl rfl) rfl
    ⟨hs.at hp, fun hv => if_neg fun h12 => ?_⟩ ?_
  · rw [(hs_eq_twelve hhs).1 h12] at hv
    cases hv
  · simp only [stepsLeft, hp]
    exact Nat.add_lt_add_right (by decide) _

/-- The descriptor that `A_ADV` completes. -/
theorem BusyInv.descOk_advanced (hp : s.hid.ph = .aAdv) : DescOk s.bufCap (phAAdv s).hid.sAvp := by
  obtain ⟨hchecked, hvid⟩ := hs.at hp
  have hlenL := hs.command.len
  obtain ⟨hoff, hlen, -⟩ := phAAdv_advanced (hlenL.trans hs.inv.cap) hchecked
  obtain ⟨⟨-, hin, havail⟩, hsl, -, hhdr, hle⟩ := hchecked
  refine ⟨hsl ▸ hhdr, hsl ▸ hlen, ?_, ?_, hvid⟩
  · rw [hoff]
    exact Nat.le_add_left _ _
  · omega

theorem BusyInv.advances_aAdv (hp : s.hid.ph = .aAdv) : ∃ t, Advances s t := by
  have hdesc := hs.descOk_advanced hp
  obtain ⟨hchecked, -⟩ := hs.at hp
  obtain ⟨-, -, hcur⟩ := phAAdv_advanced (hs.command.len.trans hs.inv.cap) hchecked
  obtain ⟨⟨⟨havp, hmsg⟩, hin, havail⟩, -, -, hhdr, hle⟩ := hchecked
  have hpad := paddedLength_bounds (s.hid.alen.toNat - headerSize s.hid.sAvp.flags)
  have hsize := headerSize_cases s.hid.sAvp.flags
  have hbase := hs.command.base
  have hcur8 : s.hid.cur.toNat + 8 ≤ (phAAdv s).hid.cur.toNat := by omega
  have hcur3 : (phAAdv s).hid.cur.toNat ≤ s.hid.lenL.toNat + 3 := by omega
  have hforward : Forward s.hid (phAAdv s).hid := ⟨rfl, rfl, rfl, by omega, by omega⟩
  refine hs.advances_setHid (phaseStep_aAdv hp) hforward rfl ?_ ?_
  · change PhaseOk _ (phAAdv s).hid (afterAvp s.hid.top)
    cases htop : s.hid.top with
    | avp => exact ⟨fun _ => ⟨hdesc, (Nat.add_le_add_right hbase 8).trans hcur8, hcur3⟩,
        fun hm => absurd (htop.symm.trans hm) nofun⟩
    | msg =>
      obtain ⟨hrun, hrec, hend⟩ := hmsg htop
      exact ⟨⟨hrun, by change s.hid.base.toNat + 20 + 8 * s.hid.n.toNat ≤ _; omega, hcur3⟩,
        by change s.hid.base.toNat + 28 + 8 * s.hid.n.toNat ≤ _; omega,
        by change s.hid.base.toNat + 28 + 8 * s.hid.n.toNat ≤ s.hid.lenL.toNat; omega,
        by change 20 + 8 * s.hid.n.toNat < s.hid.mlen.toNat; omega, hdesc⟩
  · change stepsLeft (phAAdv s).hid < _
    have hph : (phAAdv s).hid.ph = afterAvp s.hid.top := rfl
    cases htop : s.hid.top with
    | avp =>
      rw [htop] at hph
      simp only [stepsLeft, hp, hph, afterAvp]
      omega
    | msg =>
      obtain ⟨-, hrec, hend⟩ := hmsg htop
      rw [htop] at hph
      have hmlen : (phAAdv s).hid.mlen = s.hid.mlen := rfl
      simp only [stepsLeft, hp, hph, afterAvp, avpsLeft, hforward.top, htop, hforward.base, hmlen]
      omega

theorem BusyInv.advances_mAvail (hp : s.hid.ph = .mAvail) : ∃ t, Advances s t := by
  have hstart : MsgStart s.hid := hs.at hp
  by_cases h20 : s.hid.base.toNat + 20 ≤ s.hid.lenL.toNat
  · refine hs.advances_setHid ((phaseStep_mAvail hp).trans (congrArg _ (phMAvail_of_le h20)))
      (.of_cur_eq rfl rfl rfl rfl) rfl ⟨hstart, h20, bytesLeft_toNat _ _⟩ ?_
    simp only [stepsLeft, hp]
    omega
  · exact hs.advances_fail ((phaseStep_mAvail hp).trans (congrArg _ (phMAvail_of_lt (Nat.lt_of_not_le h20))))
      (.of_cur_eq rfl rfl rfl rfl) rfl rfl (Cause.code_ok _) (by simp only [stepsLeft, hp]; omega)

theorem BusyInv.advances_mLen (hp : s.hid.ph = .mLen) : ∃ t, Advances s t := by
  have hin : MsgHeaderIn s.hid := hs.at hp
  refine hs.advances_setHid ((phaseStep_mLen hp).trans (phMLen_of_le hin.2.1))
    (.of_cur_eq rfl rfl rfl rfl) rfl ⟨hin, rfl⟩ ?_
  have hlt := (BitVec.ofNat 24 (beRead (byteAt s) (s.hid.base.toNat + 1) 3)).isLt
  simp only [stepsLeft, hp]
  omega

theorem BusyInv.advances_mCheck (hp : s.hid.ph = .mCheck) : ∃ t, Advances s t := by
  obtain ⟨hin, hlen⟩ := hs.at hp
  obtain ⟨⟨htop, -, -⟩, hbuf, havail⟩ := hin
  have hstep := phaseStep_mCheck hp
  rw [phMCheck_eq] at hstep
  have hless : 1 < stepsLeft s.hid := by simp only [stepsLeft, hp]; omega
  by_cases h1 : s.hid.mlen.toNat < 20
  · rw [if_pos h1] at hstep
    exact hs.advances_fail hstep (.of_cur_eq rfl rfl rfl rfl) rfl rfl (Cause.code_ok _) hless
  rw [if_neg h1] at hstep
  by_cases h2 : s.hid.avail.toNat < s.hid.mlen.toNat
  · rw [if_pos h2] at hstep
    exact hs.advances_fail hstep (.of_cur_eq rfl rfl rfl rfl) rfl rfl (Cause.code_ok _) hless
  rw [if_neg h2] at hstep
  have hrun : MsgRunning s.hid := ⟨htop, Nat.le_of_not_lt h1, by omega, hlen⟩
  refine hs.advances_setHid hstep (.of_cur_eq rfl rfl rfl rfl) rfl ⟨(hs.at hp).1, hrun⟩ ?_
  simp only [stepsLeft, hp]
  exact Nat.add_lt_add_right (by decide) _

theorem BusyInv.advances_mHdr (hp : s.hid.ph = .mHdr) : ∃ t, Advances s t := by
  obtain ⟨⟨⟨htop, hcur, hn⟩, hbuf, -⟩, hrun⟩ := hs.at hp
  have hnew : (BitVec.ofNat 32 (s.hid.base.toNat + 20)).toNat = s.hid.base.toNat + 20 :=
    (BitVec.toNat_ofNat _ 32).trans (Nat.mod_eq_of_lt (by have := s.hid.lenL.isLt; omega))
  have hn0 : s.hid.n.toNat = 0 := congrArg BitVec.toNat hn
  refine hs.advances_setHid ((phaseStep_mHdr hp).trans (phMHdr_of_le hbuf)) ⟨rfl, rfl, rfl, ?_, ?_⟩ rfl
    ⟨hrun, ?_, ?_⟩ ?_ <;>
    simp only [stepsLeft, avpsLeft, hp, htop, hcur, hnew] <;> omega

theorem BusyInv.advances_mLoop (hp : s.hid.ph = .mLoop) : ∃ t, Advances s t := by
  obtain ⟨hrun, hrec, hend⟩ := hs.at hp
  have hstep := phaseStep_mLoop hp
  have htop : s.hid.top ≠ .avp := by rw [hrun.1]; decide
  rw [phMLoop_eq] at hstep
  by_cases hlt : s.hid.cur.toNat - s.hid.base.toNat < s.hid.mlen.toNat
  · rw [if_pos hlt] at hstep
    refine hs.advances_setHid hstep (.of_cur_eq rfl rfl rfl rfl) rfl
      ⟨fun havp => absurd havp htop, fun _ => ⟨hrun, hrec, ?_⟩⟩ ?_
    · change s.hid.cur.toNat < s.hid.base.toNat + s.hid.mlen.toNat
      omega
    · simp only [stepsLeft, avpsLeft, hp, hrun.1]
      omega
  · rw [if_neg hlt] at hstep
    refine hs.advances_setHid hstep (.of_cur_eq rfl rfl rfl rfl) rfl
      ⟨fun havp => absurd havp htop, fun _ => ⟨⟨hrun, hrec, hend⟩, ?_⟩⟩ ?_
    · change s.hid.base.toNat + s.hid.mlen.toNat ≤ s.hid.cur.toNat
      omega
    · simp only [stepsLeft, hp]
      omega

theorem BusyInv.advances_mAppend (hp : s.hid.ph = .mAppend) : ∃ t, Advances s t := by
  obtain ⟨⟨hrun, -, hend⟩, hrec, hbuf, hcount, hdesc⟩ := hs.at hp
  obtain ⟨hlen, hbase, haligned, hentries⟩ := hs.command
  have hmlt := s.hid.mlen.isLt
  have hroom := room_for_entry (base := s.hid.base.toNat) hlen hmlt hcount (by omega)
  have hn : (s.hid.n + 1).toNat = s.hid.n.toNat + 1 := BitVec.toNat_add_of_lt (by simp; omega)
  refine ⟨_, (phaseStep_mAppend hp).trans (phMAppend_of_lt hroom),
    hs.inv.moved hs.busy rfl (Table.wf_set _ _ _ hs.inv.avptWf) (keysBelow_set _ _ _ _ hs.inv.avptBelow hroom)
      ⟨hlen, hbase, haligned, fun i hi => entryOk_set hentries hdesc (hn ▸ hi)⟩ ⟨hrun, ?_, hend⟩,
    .of_cur_eq rfl rfl rfl rfl, .inl ⟨rfl, ?_⟩⟩
  · change s.hid.base.toNat + 20 + 8 * (s.hid.n + 1).toNat ≤ s.hid.cur.toNat
    omega
  · simp only [stepsLeft, avpsLeft, hp, State.setHid_hid]
    exact Nat.add_lt_add_right (by decide) _

/-- A transition that ends the command: registers and the line `done`. -/
theorem BusyInv.advances_finish {r : Regs} (hp : s.hid.ph = .commit ∨ s.hid.ph = .fail) (hstep : phaseStep s = .next (s.finish r)) (hr : RegsOk (s.finish r))
    (hd : r.status.isDone = true) : ∃ t, Advances s t := by
  have hbusy : r.status ≠ .busy := fun hb => by rw [hb] at hd; cases hd
  exact ⟨_, hstep, ⟨hs.inv.cap, hs.inv.bufWf, hs.inv.bufBelow, hs.inv.avptWf, hs.inv.avptBelow, hd.symm, hr,
    fun hb => absurd hb hbusy⟩, .refl _, .inr ⟨hp, hd⟩⟩

theorem BusyInv.advances_commit (hp : s.hid.ph = .commit) : ∃ t, Advances s t := by
  obtain ⟨havp, hmsg⟩ := hs.at hp
  obtain ⟨hkind, herr, -, -, hcmd, -, -, hzero, -⟩ := hs.inv.regs
  obtain ⟨hnone, hat⟩ := herr (by rw [hs.busy]; decide)
  obtain ⟨havp0, hmsg0, hcount0⟩ := hzero (by rw [hs.busy]; decide)
  have hop := hcmd hs.busy
  have hlen := hs.command.len
  have hstep := phaseStep_commit hp
  cases htop : s.hid.top with
  | avp =>
    obtain ⟨hdesc, -, hcur⟩ := havp htop
    rw [htop] at hop
    rw [phCommit_of_avp htop] at hstep
    refine hs.advances_finish (.inl hp) hstep ?_ rfl
    refine ⟨?_, fun _ => ⟨hnone, hat⟩, nofun, nofun, nofun, fun _ => .inl hop, nofun, fun h => absurd rfl h,
      fun _ => hcur.trans (Nat.add_le_add_right hlen 3), fun _ _ => ⟨hdesc, hmsg0, hcount0⟩, fun _ h2 => ?_,
      fun i hi => ?_⟩
    · simp [State.finish, hnone]
    · exact absurd (hop.symm.trans h2) (by decide)
    · exact absurd hi (by simp [State.finish, hcount0])
  | msg =>
    obtain ⟨⟨⟨-, h20, -, hsmsg⟩, -, hcur⟩, -⟩ := hmsg htop
    rw [htop] at hop
    rw [phCommit_of_msg htop] at hstep
    refine hs.advances_finish (.inl hp) hstep ?_ rfl
    refine ⟨?_, fun _ => ⟨hnone, hat⟩, nofun, nofun, nofun, fun _ => .inr hop, nofun, fun h => absurd rfl h,
      fun _ => hcur.trans (Nat.add_le_add_right hlen 3), fun _ h1 => ?_, fun _ _ => ⟨havp0, hsmsg ▸ h20⟩,
      hs.command.entries⟩
    · simp [State.finish, hnone]
    · exact absurd (hop.symm.trans h1) (by decide)

theorem BusyInv.advances_at_fail (hp : s.hid.ph = .fail) : ∃ t, Advances s t := by
  obtain ⟨-, -, -, -, hcmd, -, -, hzero, -⟩ := hs.inv.regs
  have hzero := hzero (by rw [hs.busy]; decide)
  have hop : s.regs.cmd = 1 ∨ s.regs.cmd = 2 := by
    rw [hcmd hs.busy]
    cases s.hid.top
    · exact .inl rfl
    · exact .inr rfl
  refine hs.advances_finish (.inr hp) (phaseStep_fail hp) ?_ rfl
  refine ⟨⟨fun _ => (by decide : (1 : BitVec 2) ≠ 0), fun _ => rfl⟩, fun h => absurd rfl h, fun _ => ⟨rfl, hs.at hp⟩, nofun, nofun,
    fun _ => hop, nofun, fun _ => hzero, nofun, nofun, nofun, fun i hi => ?_⟩
  exact absurd hi (by simp [State.finish, hzero.2.2])

/-- Every transition of a BUSY block in a state of the invariant: it completes, and keeps the invariant. -/
theorem BusyInv.advances : ∃ t, Advances s t := by
  cases hp : s.hid.ph with
  | aAvail => exact hs.advances_aAvail hp
  | aHdr => exact hs.advances_aHdr hp
  | aCheck => exact hs.advances_aCheck hp
  | aVid => exact hs.advances_aVid hp
  | aAdv => exact hs.advances_aAdv hp
  | mAvail => exact hs.advances_mAvail hp
  | mLen => exact hs.advances_mLen hp
  | mCheck => exact hs.advances_mCheck hp
  | mHdr => exact hs.advances_mHdr hp
  | mLoop => exact hs.advances_mLoop hp
  | mAppend => exact hs.advances_mAppend hp
  | commit => exact hs.advances_commit hp
  | fail => exact hs.advances_at_fail hp

end

end Sys2Proof.Machine
end

section
/-! A step of a BUSY block in a state of the invariant, whatever turn is first: the host's side takes no part in a
transition, and a record turn is one to five of them (44_fsm.md R248). -/

namespace Sys2Proof.Machine

/-- `s` with the host's side given: the turns to come, what the host last read, and the count of unspecified reads. -/
def State.withHost (s : State) (ts : List Turn) (v : Word) (k : Nat) : State :=
  ((s.setTurns ts).setRdata v).setFresh k

/-- A transition neither reads nor writes the host's side. -/
theorem phaseStep_withHost (s : State) (ts : List Turn) (v : Word) (k : Nat) :
    phaseStep (s.withHost ts v k) = andThen (phaseStep s) fun t => .next (t.withHost ts v k) := by
  have hhid : (s.withHost ts v k).hid = s.hid := rfl
  cases hp : s.hid.ph with
  | aAvail => rw [phaseStep_aAvail hp, phaseStep_aAvail (hhid ▸ hp), phAAvail_eq, phAAvail_eq]; rfl
  | aHdr =>
    rw [phaseStep_aHdr hp, phaseStep_aHdr (hhid ▸ hp)]
    simp only [phAHdr, andThen_withRead]
    rfl
  | aCheck => rw [phaseStep_aCheck hp, phaseStep_aCheck (hhid ▸ hp), phACheck_eq, phACheck_eq]; rfl
  | aVid =>
    rw [phaseStep_aVid hp, phaseStep_aVid (hhid ▸ hp), phAVid, phAVid, hhid]
    split
    · rw [andThen_withRead]; rfl
    · rfl
  | aAdv => rw [phaseStep_aAdv hp, phaseStep_aAdv (hhid ▸ hp)]; rfl
  | mAvail => rw [phaseStep_mAvail hp, phaseStep_mAvail (hhid ▸ hp), phMAvail_eq, phMAvail_eq]; rfl
  | mLen =>
    rw [phaseStep_mLen hp, phaseStep_mLen (hhid ▸ hp)]
    simp only [phMLen, andThen_withRead]
    rfl
  | mCheck => rw [phaseStep_mCheck hp, phaseStep_mCheck (hhid ▸ hp), phMCheck_eq, phMCheck_eq]; rfl
  | mHdr =>
    rw [phaseStep_mHdr hp, phaseStep_mHdr (hhid ▸ hp)]
    simp only [phMHdr, andThen_withRead]
    rfl
  | mLoop => rw [phaseStep_mLoop hp, phaseStep_mLoop (hhid ▸ hp), phMLoop_eq, phMLoop_eq]; rfl
  | mAppend =>
    rw [phaseStep_mAppend hp, phaseStep_mAppend (hhid ▸ hp)]
    by_cases hn : s.hid.n.toNat < Config.avptCap s.bufCap
    · rw [phMAppend_of_lt hn, phMAppend_of_lt (s := s.withHost ts v k) hn]; rfl
    · rw [phMAppend, phMAppend, if_neg hn]; exact if_neg hn
  | commit =>
    rw [phaseStep_commit hp, phaseStep_commit (hhid ▸ hp), phCommit, phCommit, hhid]
    cases s.hid.top <;> rfl
  | fail => rw [phaseStep_fail hp, phaseStep_fail (hhid ▸ hp)]; rfl

theorem phaseStep_withHost_of_next {s t : State} (h : phaseStep s = .next t) (ts : List Turn) (v : Word) (k : Nat) :
    phaseStep (s.withHost ts v k) = .next (t.withHost ts v k) := by
  rw [phaseStep_withHost, h, andThen_next]

section
variable (s : State) (ts : List Turn) (v : Word) (k : Nat)

/-- Nor does an AVP record. -/
theorem avpRecord_withHost (code : Word) (flags : Byte) (len : U24) :
    avpRecord code flags len (s.withHost ts v k) =
      andThen (avpRecord code flags len s) fun t => .next (t.withHost ts v k) := by
  by_cases h8 : s.hid.lenL.toNat < s.hid.cur.toNat + 8
  · rw [avpRecord_short h8, avpRecord_short (s := s.withHost ts v k) h8]; rfl
  have hin := Nat.le_of_not_lt h8
  by_cases hbad : len.toNat < headerSize flags ∨ s.hid.lenL.toNat < s.hid.cur.toNat + len.toNat
  · rw [avpRecord_badLength hin hbad, avpRecord_badLength (s := s.withHost ts v k) hin hbad]; rfl
  obtain ⟨hl, ha⟩ := not_or.1 hbad
  rw [avpRecord_ok (Nat.le_of_not_lt hl) (Nat.le_of_not_lt ha),
    avpRecord_ok (s := s.withHost ts v k) (Nat.le_of_not_lt hl) (Nat.le_of_not_lt ha)]
  rfl

/-- Nor does a Message header. -/
theorem execMsgh_withHost (version : Byte) (len : U24) (flags : Byte) (cc : U24) (app hbh e2e : Word) :
    execMsgh version len flags cc app hbh e2e (s.withHost ts v k) =
      andThen (execMsgh version len flags cc app hbh e2e s) fun t => .next (t.withHost ts v k) := by
  by_cases h20 : s.hid.lenL.toNat < s.hid.base.toNat + 20
  · rw [execMsgh_short h20, execMsgh_short (s := s.withHost ts v k) h20]; rfl
  have hin := Nat.le_of_not_lt h20
  by_cases hbad : len.toNat < 20 ∨ s.hid.lenL.toNat < s.hid.base.toNat + len.toNat
  · rw [execMsgh_badLength hin hbad, execMsgh_badLength (s := s.withHost ts v k) hin hbad]; rfl
  obtain ⟨hl, ha⟩ := not_or.1 hbad
  rw [execMsgh_ok (Nat.le_of_not_lt hl) (Nat.le_of_not_lt ha),
    execMsgh_ok (s := s.withHost ts v k) (Nat.le_of_not_lt hl) (Nat.le_of_not_lt ha)]
  rfl

end

/-- The command is decided: the next transition ends it. -/
def AtEnd (h : Hidden) : Prop :=
  h.ph = .commit ∨ h.ph = .fail

/-- The step of `s`, whose first turn is a record turn, leaves `u` with the turns `ts`; ordinary parser steps, 1 to 5 of
them, leave the same. It ends no command that was not decided before. -/
structure Merges (s u : State) (ts : List Turn) : Prop where
  step : step s = .next (u.withHost ts s.rdata s.fresh)
  run : ∃ k, 1 ≤ k ∧ k ≤ 5 ∧ ∀ v f, runSteps k (s.withHost [] v f) = .next (u.withHost [] v f)
  regs : u.regs = s.regs ∨ AtEnd s.hid

/-- A record turn of a BUSY block is a run of transitions: those of the record's engine, or one. -/
theorem BusyInv.record_merges {s : State} {ts : List Turn} (hs : BusyInv s) (ht : s.turns = .record :: ts) :
    ∃ u, Merges s u ts := by
  have hrun (v : Word) (f : Nat) : Running (s.withHost [] v f) := ⟨hs.busy, rfl⟩
  rcases fetchRecord_cases (s.setTurns ts) with
    ⟨i, rest, -, hp, hin, hd, e⟩ | ⟨i, rest, -, hp, hin, hd, e⟩ | e
  · have hmeaning := exec_of_avpHeader hd
    obtain ⟨h, hrec⟩ : ∃ h, avpRecordAtCursor s = .next (s.setHid h) := avpRecord_eq_setHid _ _ _ s
    have hexec ts v k := (avpRecord_withHost s ts v k _ _ _).trans (congrArg (andThen · _) hrec)
    have hphases (v f) : runSteps (if h.ph = .fail then 3 else 5) (s.withHost [] v f) =
        .next ((s.setHid h).withHost [] v f) :=
      runSteps_of_avpRecord (hrun v f) hp hin (hexec [] v f)
    refine ⟨_, (step_of_record_run ht e).trans ((hmeaning _).trans (hexec ts s.rdata s.fresh)), ⟨_, ?_, ?_, hphases⟩, .inl rfl⟩ <;>
      split <;> decide
  · have hmeaning := exec_of_msgHeader hd
    obtain ⟨h, hrec⟩ : ∃ h, msgHeaderAtBase s = .next (s.setHid h) := execMsgh_eq_setHid _ _ _ _ _ _ _ s
    have hexec ts v k := (execMsgh_withHost s ts v k _ _ _ _ _ _ _).trans (congrArg (andThen · _) hrec)
    have hphases (v f) : runSteps (if h.ph = .fail then 3 else 4) (s.withHost [] v f) =
        .next ((s.setHid h).withHost [] v f) :=
      runSteps_of_msgHeader (hrun v f) hp hin (hexec [] v f)
    refine ⟨_, (step_of_record_run ht e).trans ((hmeaning _).trans (hexec ts s.rdata s.fresh)), ⟨_, ?_, ?_, hphases⟩, .inl rfl⟩ <;>
      split <;> decide
  · obtain ⟨u, hu⟩ := hs.advances
    have hphase := phaseStep_withHost_of_next hu.step
    have hturn : parserTurn (s.setTurns ts) = phaseStep (s.setTurns ts) := parserTurn_of_busy hs.busy
    exact ⟨u, (step_of_record_act ht e).trans (hturn.trans (hphase ts s.rdata s.fresh)),
      ⟨1, by decide, by decide, fun v f => runSteps_one (hrun v f) (hphase [] v f)⟩, hu.progress.imp And.left And.left⟩

/-- Settles O23: `BusyInv.record_merges`, with the host's side left as it is. -/
theorem recordTurnMergesPhases : Obligations.RecordTurnMergesPhases := by
  intro s ts hs hb ht
  obtain ⟨u, hstep, ⟨k, h1, h5, hrun⟩, -⟩ := (hs.busyInv hb).record_merges ht
  exact ⟨k, u.withHost [] s.rdata s.fresh, h1, h5, hstep, hrun s.rdata s.fresh⟩

end Sys2Proof.Machine
end

section
/-! The invariant along steps (43_host_commands.md R200 to R212, 44_fsm.md R246): for each kind of turn what a step of a
state of the invariant leaves. -/

namespace Sys2Proof.Machine

/-- Every step, by the kind of its turn, with a record turn of a BUSY block kept apart. -/
theorem step_kinds (s : State) :
    (∃ ts v, step s = parserTurn ((s.setRdata v).setTurns ts)) ∨
    (∃ ts i, i.format = .cmdw ∧ step s = exec i (s.setTurns ts)) ∨
    (∃ ts, s.turns = .record :: ts ∧ s.regs.status = .busy) ∨
    (∃ m ts, s.turns = .host m :: ts ∧ step s = hostMove m (s.setTurns ts)) ∨
    (∃ ts v, step s = .next ((s.setRdata v).setTurns ts)) := by
  cases ht : s.turns with
  | nil => exact .inl ⟨s.turns, s.rdata, step_of_nil ht⟩
  | cons x ts =>
    cases x with
    | parser => exact .inl ⟨ts, s.rdata, step_of_parser ht⟩
    | wait =>
      rw [step_of_wait ht]
      unfold waitTurn
      dsimp only
      split
      · exact .inr (.inr (.inr (.inr ⟨ts, _, rfl⟩)))
      · exact .inl ⟨s.turns, regRead s.regs RegName.status.off, rfl⟩
    | record =>
      by_cases hb : s.regs.status = .busy
      · exact .inr (.inr (.inl ⟨ts, rfl, hb⟩))
      · refine .inl ⟨ts, s.rdata, step_of_record_act ht ?_⟩
        rw [fetchRecord, if_neg (by exact hb)]
        exact congrArg Fetched.act (parserTurn_of_quiet (s := s.setTurns ts) hb).symm
    | host m =>
      cases hm : cmdWrite m (s.setTurns ts) with
      | none => exact .inr (.inr (.inr (.inl ⟨m, ts, rfl, step_of_host ht hm⟩)))
      | some w =>
        cases hd : decode .cmdw (beBytes 4 w.toNat) with
        | ok x => exact .inr (.inl ⟨ts, x.1, decode_cmdw_format hd, step_of_cmdWrite ht hm hd⟩)
        | error e => exact .inr (.inr (.inr (.inr ⟨ts, s.rdata, step_of_cmdWrite_reserved ht hm hd⟩)))

theorem inv_withHost {s : State} (ts : List Turn) (v : Word) (k : Nat) (h : Inv s) : Inv (s.withHost ts v k) :=
  ⟨h.cap, h.bufWf, h.bufBelow, h.avptWf, h.avptBelow, h.done, h.regs, h.busy⟩

/-- A parser turn in a state of the invariant, BUSY or not: it completes, keeps the invariant, and moves forward. -/
theorem Inv.parserTurn {s : State} (hs : Inv s) : ∃ t, parserTurn s = .next t ∧ Inv t ∧ Forward s.hid t.hid := by
  by_cases hb : s.regs.status = .busy
  · obtain ⟨t, ht⟩ := (hs.busyInv hb).advances
    exact ⟨t, (parserTurn_of_busy hb).trans ht.step, ht.inv, ht.forward⟩
  · exact ⟨s, parserTurn_of_quiet hb, hs, .refl _⟩

/-- The same of any number of ordinary parser steps. -/
theorem Inv.runSteps {s : State} (hs : Inv s) (ht : s.turns = []) (k : Nat) :
    ∃ t, runSteps k s = .next t ∧ t.turns = [] ∧ Inv t ∧ Forward s.hid t.hid := by
  induction k generalizing s with
  | zero => exact ⟨s, rfl, ht, hs, .refl _⟩
  | succ k ih =>
    obtain ⟨u, hstep, hu, hf⟩ := hs.parserTurn
    obtain ⟨-, -, hturns, -⟩ := parserTurn_frame hstep
    obtain ⟨t, hrun, htt, hinv, hf'⟩ := ih hu (hturns.trans ht)
    refine ⟨t, ?_, htt, hinv, hf.trans hf'⟩
    rw [Machine.runSteps, step_of_nil ht, hstep, andThen_next, hrun]

/-- A record turn of a BUSY block. -/
theorem BusyInv.recordTurn {s : State} {ts : List Turn} (hs : BusyInv s) (ht : s.turns = .record :: ts) :
    ∃ t, step s = .next t ∧ Inv t ∧ Forward s.hid t.hid := by
  obtain ⟨u, hstep, ⟨k, -, -, hrun⟩, -⟩ := hs.record_merges ht
  obtain ⟨t, e, -, hinv, hf⟩ := (inv_withHost [] s.rdata s.fresh hs.inv).runSteps rfl k
  cases (hrun s.rdata s.fresh).symm.trans e
  exact ⟨_, hstep, inv_withHost (s := u.withHost [] s.rdata s.fresh) ts s.rdata s.fresh hinv, hf⟩

/-! The registers after a command, a commit or reset. -/

/-- A command is dropped while BUSY; else CLEAR clears and a decode command is accepted. -/
theorem exec_command_cases {i : Instr} {s t : State} (hi : i.format = .cmdw) (h : exec i s = .next t) :
    (s.regs.status = .busy ∧ t = s) ∨ (s.regs.status ≠ .busy ∧ i = .clear ∧ t = clearStep s) ∨
    ∃ top, s.regs.status ≠ .busy ∧ i ≠ .clear ∧ s.regs.bufLen.toNat ≤ s.bufCap ∧ t = acceptStep top top.opcode s := by
  by_cases hb : s.regs.status = .busy
  · cases (exec_command_of_busy hb hi).symm.trans h
    exact .inl ⟨hb, rfl⟩
  have accepted {top : Top} (hne : i ≠ .clear) (h : accept top top.opcode s = .next t) :
      ∃ top, s.regs.status ≠ .busy ∧ i ≠ .clear ∧ s.regs.bufLen.toNat ≤ s.bufCap ∧
        t = acceptStep top top.opcode s := by
    rcases accept_cases top top.opcode s with ⟨hbusy, -⟩ | ⟨-, hl, e⟩ | ⟨-, -, e⟩
    · exact absurd hbusy hb
    · cases e.symm.trans h
      exact ⟨top, hb, hne, hl, rfl⟩
    · cases e.symm.trans h
  cases i with
  | clear =>
    cases (execClear_of_quiet hb).symm.trans h
    exact .inr (.inl ⟨hb, rfl, rfl⟩)
  | decodeAvp => exact .inr (.inr (accepted (top := .avp) nofun h))
  | decodeMsg => exact .inr (.inr (accepted (top := .msg) nofun h))
  | avp8 | avp12 | msgh => cases hi

/-- Registers with every result at 0 are as IDLE and BUSY ask for. -/
theorem regsOk_of_clear {s : State} (hclear : clearResults s.regs = s.regs)
    (hst : s.regs.status = .idle ∧ s.regs.cmd = 0 ∨ s.regs.status = .busy ∧ s.regs.cmd = s.hid.top.opcode) :
    RegsOk s := by
  have hnew : s.regs.newOffset = 0 := congrArg Regs.newOffset hclear.symm
  have herr : s.regs.err = { kind := 0, cause := 0 } := congrArg Regs.err hclear.symm
  have hat : s.regs.errOffset = 0 := congrArg Regs.errOffset hclear.symm
  have havp : s.regs.avp = .zero := congrArg Regs.avp hclear.symm
  have hmsg : s.regs.msg = .zero := congrArg Regs.msg hclear.symm
  have hcount : s.regs.avpCount = 0 := congrArg Regs.avpCount hclear.symm
  rcases hst with ⟨hidle, hcmd⟩ | ⟨hbusy, hcmd⟩
  · simp [RegsOk, hidle, hcmd, hnew, herr, hat, havp, hmsg, hcount, RunState.isDone]
  · simp [RegsOk, hbusy, hcmd, hnew, herr, hat, havp, hmsg, hcount, RunState.isDone]

theorem inv_resetWith {cap : Nat} (hcap : cap ≤ Config.bufCapMax) (ts : List Turn) : Inv (State.resetWith cap ts) :=
  ⟨hcap, rfl, rfl, rfl, rfl, rfl, regsOk_of_clear rfl (.inl ⟨rfl, rfl⟩), nofun⟩

theorem Inv.resetStep {s : State} (hs : Inv s) : Inv (resetStep s) :=
  have h := inv_resetWith hs.cap s.turns
  ⟨h.cap, h.bufWf, h.bufBelow, h.avptWf, h.avptBelow, h.done, h.regs, h.busy⟩

theorem Inv.clearStep {s : State} (hs : Inv s) : Inv (clearStep s) :=
  ⟨hs.cap, hs.bufWf, hs.bufBelow, hs.avptWf, hs.avptBelow, rfl, regsOk_of_clear rfl (.inl ⟨rfl, rfl⟩), nofun⟩

/-- After accept the command is at its start (44_fsm.md R232). -/
theorem Inv.acceptStep {s : State} (hs : Inv s) (hl : s.regs.bufLen.toNat ≤ s.bufCap) (top : Top) :
    Inv (acceptStep top top.opcode s) := by
  refine ⟨hs.cap, hs.bufWf, hs.bufBelow, hs.avptWf, hs.avptBelow, rfl, regsOk_of_clear rfl (.inr ⟨rfl, rfl⟩),
    fun _ => busyOk_iff.2 ⟨⟨hl, le_refl _, ?_, fun i hi => absurd hi (Nat.not_lt_zero i)⟩, ?_⟩⟩
  · change (s.regs.offset.toNat - s.regs.offset.toNat) % 4 = 0
    rw [Nat.sub_self]
  · cases top
    · exact ⟨fun _ => ⟨rfl, rfl⟩, nofun⟩
    · exact ⟨rfl, rfl, rfl⟩

theorem Inv.command {i : Instr} {s t : State} (hs : Inv s) (hi : i.format = .cmdw) (h : exec i s = .next t) : Inv t := by
  rcases exec_command_cases hi h with ⟨-, rfl⟩ | ⟨-, -, rfl⟩ | ⟨top, -, -, hl, rfl⟩
  · exact hs
  · exact hs.clearStep
  · exact hs.acceptStep hl top

/-! The host's moves. -/

/-- Of a host move only a buffer write and reset touch the buffer (43_host_commands.md R203). -/
theorem hostMove_buf {m : HostMove} {s t : State} (h : hostMove m s = .next t) :
    m = .reset ∨ (t.buf = s.buf ∧ t.epoch = s.epoch) ∨
    ∃ a v, m = .wrBuf a v ∧ a < s.bufCap ∧ t = s.setBuf (sparseSet s.buf a v) := by
  have stored {size off : Nat} {v : Word} (h : hostWriteReg size off v s = .next t) :
      t.buf = s.buf ∧ t.epoch = s.epoch := by
    unfold hostWriteReg at h
    split_ifs at h
    obtain ⟨b, o, e⟩ := storeReg_eq_setOperands off v s
    cases h
    rw [e]
    exact ⟨rfl, rfl⟩
  cases m with
  | rdReg size off =>
    rw [hostMove, hostReadReg] at h
    split_ifs at h
    cases h
    exact .inr (.inl ⟨rfl, rfl⟩)
  | wrReg size off v => exact .inr (.inl (stored h))
  | wrRegLast size off => exact .inr (.inl (stored h))
  | rdTbl size off =>
    rw [hostMove, hostReadTbl] at h
    split_ifs at h
    obtain ⟨v, k, e⟩ := tableRead_eq_setRdata off s
    cases h
    rw [e]
    exact .inr (.inl ⟨rfl, rfl⟩)
  | rdBuf addr =>
    rw [hostMove, hostReadBuf] at h
    split_ifs at h
    cases h
    exact .inr (.inl ⟨rfl, rfl⟩)
  | wrBuf a v =>
    rw [hostMove, hostWriteBuf] at h
    split_ifs at h with ha
    cases h
    exact .inr (.inr ⟨a, v, rfl, ha, rfl⟩)
  | reset => exact .inl rfl

theorem Inv.hostMove {m : HostMove} {s t : State} (hs : Inv s) (h : hostMove m s = .next t) : Inv t := by
  have hbuf : t = Machine.resetStep s ∨ Memory.wf t.buf = true ∧ keysBelow s.bufCap t.buf = true := by
    rcases hostMove_buf h with rfl | ⟨e, -⟩ | ⟨a, v, -, ha, rfl⟩
    · cases h
      exact .inl rfl
    · exact .inr ⟨e ▸ hs.bufWf, e ▸ hs.bufBelow⟩
    · exact .inr ⟨Memory.wf_set _ _ _ hs.bufWf, keysBelow_set _ _ _ _ hs.bufBelow ha⟩
  rcases hostMove_hostWrites h with ⟨b, o, m', v, k, rfl⟩ | rfl
  · rcases hbuf with e | ⟨hwf, hbelow⟩
    · rw [e]
      exact hs.resetStep
    · exact ⟨hs.cap, hwf, hbelow, hs.avptWf, hs.avptBelow, hs.done, hs.regs, hs.busy⟩
  · exact hs.resetStep

/-- Every step keeps the invariant. -/
theorem Inv.step {s t : State} (hs : Inv s) (h : step s = .next t) : Inv t := by
  rcases step_kinds s with ⟨ts, v, e⟩ | ⟨ts, i, hi, e⟩ | ⟨ts, ht, hb⟩ | ⟨m, ts, -, e⟩ | ⟨ts, v, e⟩
  · obtain ⟨u, hu, hinv, -⟩ := (inv_withHost ts v s.fresh hs).parserTurn
    cases (e.trans hu).symm.trans h
    exact hinv
  · exact (inv_setTurns ts hs).command hi (e.symm.trans h)
  · obtain ⟨u, hu, hinv, -⟩ := (hs.busyInv hb).recordTurn ht
    cases hu.symm.trans h
    exact hinv
  · exact (inv_setTurns ts hs).hostMove (e.symm.trans h)
  · cases e.symm.trans h
    exact inv_withHost ts v s.fresh hs

/-- Settles O54: turn by turn (`step_kinds`); the transitions of the FSM are `BusyInv.advances`, phase by phase. -/
theorem stepKeepsInv : Obligations.StepKeepsInv := fun _ _ hs h => hs.step h

/-- Settles O53: at reset every result is 0 and nothing is listed. -/
theorem resetMeetsInv : Obligations.ResetMeetsInv :=
  ⟨inv_resetWith (by decide) [], fun _ turns hcap => inv_resetWith hcap turns⟩

end Sys2Proof.Machine
end

section
/-! What follows from the invariant of every step: no step faults, the results of each run state, the cursor's direction,
the transition table (20_memory.md R66, 43_host_commands.md R209, 44_fsm.md R246, R249). -/

namespace Sys2Proof.Machine

/-- A host move is answered or refused; the two faults are the parser's alone. -/
theorem hostMove_ne_fault (m : HostMove) (s : State) (r : Fault) : hostMove m s ≠ .fault r := by
  have stored (size off : Nat) (v : Word) : hostWriteReg size off v s ≠ .fault r := by
    unfold hostWriteReg
    split_ifs <;> nofun
  cases m with
  | wrReg size off v => exact stored size off v
  | wrRegLast size off => exact stored size off s.rdata
  | rdReg => rw [hostMove, hostReadReg]; split_ifs <;> nofun
  | rdTbl => rw [hostMove, hostReadTbl]; split_ifs <;> nofun
  | rdBuf => rw [hostMove, hostReadBuf]; split_ifs <;> nofun
  | wrBuf => rw [hostMove, hostWriteBuf]; split_ifs <;> nofun
  | reset => nofun

theorem accept_ne_fault (top : Top) (w : BitVec 2) (s : State) (r : Fault) : accept top w s ≠ .fault r := by
  rcases accept_cases top w s with ⟨-, e⟩ | ⟨-, -, e⟩ | ⟨-, -, e⟩ <;> rw [e] <;> nofun

theorem exec_command_ne_fault {i : Instr} (hi : i.format = .cmdw) (s : State) (r : Fault) : exec i s ≠ .fault r := by
  cases i with
  | clear => rcases execClear_cases s with ⟨-, e⟩ | ⟨-, e⟩ <;> rw [exec, e] <;> nofun
  | decodeAvp => exact accept_ne_fault .avp 1 s r
  | decodeMsg => exact accept_ne_fault .msg 2 s r
  | avp8 | avp12 | msgh => cases hi

/-- Settles O55: the parser's turns complete (`Inv.parserTurn`, `BusyInv.recordTurn`), and no other turn can fault. -/
theorem noStepFaults : Obligations.NoStepFaults := by
  intro s r hs h
  rcases step_kinds s with ⟨ts, v, e⟩ | ⟨ts, i, hi, e⟩ | ⟨ts, ht, hb⟩ | ⟨m, ts, -, e⟩ | ⟨ts, v, e⟩
  · obtain ⟨u, hu, -⟩ := (inv_withHost ts v s.fresh hs).parserTurn
    cases (e.trans hu).symm.trans h
  · exact exec_command_ne_fault hi _ r (e.symm.trans h)
  · obtain ⟨u, hu, -⟩ := (hs.busyInv hb).recordTurn ht
    cases hu.symm.trans h
  · exact hostMove_ne_fault m _ r (e.symm.trans h)
  · cases e.symm.trans h

theorem Reachable.inv {s : State} (hs : Reachable s) : Inv s := by
  induction hs with
  | reset cap turns hcap => exact inv_resetWith hcap turns
  | step s t _ h ih => exact ih.step h

/-- A valid entry has been written, and is a decoded AVP. -/
theorem Inv.entry {s : State} (hs : Inv s) {i : Nat} (hi : i < s.regs.avpCount.toNat) :
    ∃ d, sparseGet s.avpt i = some d := by
  obtain ⟨-, -, -, -, -, -, -, -, -, -, -, hentries⟩ := hs.regs
  have hok := hentries i hi
  unfold entryOk at hok
  split at hok
  · next d hd => exact ⟨d, hd⟩
  · cases hok

/-- Outside DONE_ERR there is no error record (10_state.md R29). -/
theorem Inv.err_zero {s : State} (hs : Inv s) (hst : s.regs.status ≠ .doneErr) :
    s.regs.err.word = 0 ∧ s.regs.errOffset = 0 := by
  obtain ⟨-, herr, -⟩ := hs.regs
  obtain ⟨hnone, hat⟩ := herr hst
  exact ⟨by rw [hnone]; rfl, hat⟩

/-- Settles O58: the invariant holds of every reachable state, and its clauses on the registers say this. -/
theorem resultsValidByState : Obligations.ResultsValidByState := by
  intro s hreach
  have hs := hreach.inv
  obtain ⟨-, -, hkind, -, -, hcmd, hnew, -, -, havp, hmsg, -⟩ := hs.regs
  refine ⟨fun hst => ?_, fun hok => ?_, fun herr => ⟨(hkind herr).1, hs.results_zero (by rw [herr]; decide)⟩⟩
  · have hnot : s.regs.status ≠ .doneErr ∧ s.regs.status ≠ .doneOk ∧ s.regs.status.isDone = false := by
      rcases hst with h | h <;> rw [h] <;> decide
    obtain ⟨he, ho, hd⟩ := hnot
    obtain ⟨hword, hat⟩ := hs.err_zero he
    exact ⟨hnew hd, hword, hat, hs.results_zero ho⟩
  · obtain ⟨hword, hat⟩ := hs.err_zero (by rw [hok]; decide)
    refine ⟨hword, hat, ?_⟩
    rcases hcmd (by rw [hok]; rfl) with h1 | h2
    · exact .inl ⟨h1, (havp hok h1).2⟩
    · exact .inr ⟨h2, (hmsg hok h2).1, fun i hi => hs.entry hi⟩

/-- A host move leaves the hidden registers of a block that is BUSY and stays so. -/
theorem hostMove_hid_of_busy {m : HostMove} {s t : State} (hb : s.regs.status = .busy) (h : hostMove m s = .next t)
    (hbt : t.regs.status = .busy) : t.hid = s.hid := by
  by_cases hm : m = .reset
  · subst hm
    cases h
    cases hbt
  · obtain ⟨-, hhid, -⟩ := hostMove_sameCommand hb hm h
    exact hhid

/-- A step from BUSY to BUSY moves forward. -/
theorem Inv.step_forward {s t : State} (hs : Inv s) (hb : s.regs.status = .busy) (h : Machine.step s = .next t)
    (hbt : t.regs.status = .busy) : Forward s.hid t.hid := by
  rcases step_kinds s with ⟨ts, v, e⟩ | ⟨ts, i, hi, e⟩ | ⟨ts, ht, -⟩ | ⟨m, ts, -, e⟩ | ⟨ts, v, e⟩
  · obtain ⟨u, hu, -, hf⟩ := (inv_withHost ts v s.fresh hs).parserTurn
    cases (e.trans hu).symm.trans h
    exact hf
  · cases (e.trans (exec_command_of_busy (s := s.setTurns ts) hb hi)).symm.trans h
    exact .refl _
  · obtain ⟨u, hu, -, hf⟩ := (hs.busyInv hb).recordTurn ht
    cases hu.symm.trans h
    exact hf
  · have hhid := hostMove_hid_of_busy (s := s.setTurns ts) hb (e.symm.trans h) hbt
    rw [hhid]
    exact .refl _
  · cases e.symm.trans h
    exact .refl _

/-- Settles O29: `Inv.step_forward`, field by field. -/
theorem cursorNeverMovesBack : Obligations.CursorNeverMovesBack := by
  intro s t hs hb h hbt
  obtain ⟨hbase, hlen, htop, hcur, haligned⟩ := hs.step_forward hb h hbt
  exact ⟨hcur, haligned, hbase, hlen, htop⟩

/-! What each transition writes to `PH` (44_fsm.md section 5). -/

theorem phAAvail_ph (s : State) :
    (phAAvail s).hid.ph = if (phAAvail s).hid.avail.toNat < 8 then .fail else .aHdr := by
  rw [phAAvail_eq, ← bytesLeft_toNat]
  split
  · next h => exact (if_pos h).symm
  · next h => exact (if_neg h).symm

theorem phMAvail_ph (s : State) :
    (phMAvail s).hid.ph = if (phMAvail s).hid.avail.toNat < 20 then .fail else .mLen := by
  rw [phMAvail_eq, ← bytesLeft_toNat]
  split
  · next h => exact (if_pos h).symm
  · next h => exact (if_neg h).symm

theorem phACheck_ph_eq (s : State) :
    (phACheck s).hid.ph =
      if (phACheck s).hid.alen.toNat < (phACheck s).hid.hs.toNat then .fail
      else if (phACheck s).hid.alen.toNat > (phACheck s).hid.avail.toNat then .fail else .aVid := by
  rw [phACheck_eq]
  split
  · next h => exact (if_pos ((headerSize_toNat _).symm ▸ h)).symm
  · next h =>
    split
    · next h' => exact ((if_neg ((headerSize_toNat _).symm ▸ h)).trans (if_pos h')).symm
    · next h' => exact ((if_neg ((headerSize_toNat _).symm ▸ h)).trans (if_neg h')).symm

theorem phMCheck_ph_eq (s : State) :
    (phMCheck s).hid.ph =
      if (phMCheck s).hid.mlen.toNat < 20 then .fail
      else if (phMCheck s).hid.mlen.toNat > (phMCheck s).hid.avail.toNat then .fail else .mHdr := by
  rw [phMCheck_eq]
  split
  · next h => exact (if_pos h).symm
  · next h =>
    split
    · next h' => exact ((if_neg h).trans (if_pos h')).symm
    · next h' => exact ((if_neg h).trans (if_neg h')).symm

theorem phAHdr_ph {s t : State} (h : phAHdr s = .next t) : t.hid.ph = .aCheck := by
  obtain ⟨_, -, h⟩ := withRead_eq_next h
  obtain ⟨_, -, h⟩ := withRead_eq_next h
  obtain ⟨_, -, h⟩ := withRead_eq_next h
  cases h
  rfl

theorem phAVid_ph {s t : State} (h : phAVid s = .next t) : t.hid.ph = .aAdv := by
  obtain ⟨v, rfl⟩ := phAVid_eq_next h
  rfl

theorem phMLen_ph {s t : State} (h : phMLen s = .next t) : t.hid.ph = .mCheck := by
  obtain ⟨_, -, h⟩ := withRead_eq_next h
  obtain ⟨_, -, h⟩ := withRead_eq_next h
  cases h
  rfl

theorem phMHdr_ph {s t : State} (h : phMHdr s = .next t) : t.hid.ph = .mLoop := by
  obtain ⟨_, -, h⟩ := withRead_eq_next h
  obtain ⟨_, -, h⟩ := withRead_eq_next h
  obtain ⟨_, -, h⟩ := withRead_eq_next h
  obtain ⟨_, -, h⟩ := withRead_eq_next h
  obtain ⟨_, -, h⟩ := withRead_eq_next h
  cases h
  rfl

theorem phMLoop_ph (s : State) :
    (phMLoop s).hid.ph =
      if s.hid.cur.toNat - s.hid.base.toNat < s.hid.mlen.toNat then .aAvail else .commit := by
  rw [phMLoop_eq]
  rfl

theorem phMAppend_ph {s t : State} (h : phMAppend s = .next t) : t.hid.ph = .mLoop := by
  unfold phMAppend at h
  split_ifs at h
  cases h
  rfl

theorem phCommit_status (s : State) : (phCommit s).regs.status = .doneOk := by
  unfold phCommit
  cases s.hid.top <;> rfl

/-- A transition that does not end the command leaves the registers. -/
theorem Advances.regs_eq {s t : State} (h : Advances s t) (hc : s.hid.ph ≠ .commit) (hf : s.hid.ph ≠ .fail) :
    t.regs = s.regs := by
  rcases h.progress with ⟨hregs, -⟩ | ⟨hp, -⟩
  · exact hregs
  · exact (hp.elim hc hf).elim

/-- Settles O28: the step exists by `BusyInv.advances` and is the transition of its phase; what that writes to `PH` are the
lemmas above. -/
theorem transitionTable : Obligations.TransitionTable := by
  intro s hs ht
  refine ⟨fun hb => (step_of_nil ht).trans (parserTurn_of_quiet hb), fun hb => ?_⟩
  obtain ⟨t, hadv⟩ := (hs.busyInv hb).advances
  have hstep := hadv.step
  have eq {u : State} (h : phaseStep s = .next u) : t = u := Host.Outcome.next.inj (hstep.symm.trans h)
  refine ⟨t, (step_of_running ⟨hb, ht⟩).trans hstep, fun hp => ?_, fun hp => ?_,
    fun hc hf => (congrArg Regs.status (hadv.regs_eq hc hf)).trans hb, fun hp => ?_, fun hp => ?_, fun hp => ?_,
    fun hp => ?_, fun hp htop => ?_, fun hp htop => ?_, fun hp => ?_, fun hp => ?_, fun hp => ?_, fun hp => ?_,
    fun hp => ?_, fun hp => ?_⟩
  · rw [eq (phaseStep_commit hp)]; exact phCommit_status s
  · rw [eq (phaseStep_fail hp)]; rfl
  · rw [eq (phaseStep_aAvail hp)]; exact phAAvail_ph s
  · exact phAHdr_ph ((phaseStep_aHdr hp).symm.trans hstep)
  · rw [eq (phaseStep_aCheck hp)]; exact phACheck_ph_eq s
  · exact phAVid_ph ((phaseStep_aVid hp).symm.trans hstep)
  · rw [eq (phaseStep_aAdv hp)]; exact congrArg afterAvp htop
  · rw [eq (phaseStep_aAdv hp)]; exact congrArg afterAvp htop
  · rw [eq (phaseStep_mAvail hp)]; exact phMAvail_ph s
  · exact phMLen_ph ((phaseStep_mLen hp).symm.trans hstep)
  · rw [eq (phaseStep_mCheck hp)]; exact phMCheck_ph_eq s
  · exact phMHdr_ph ((phaseStep_mHdr hp).symm.trans hstep)
  · rw [eq (phaseStep_mLoop hp)]; exact phMLoop_ph s
  · exact phMAppend_ph ((phaseStep_mAppend hp).symm.trans hstep)

/-- A BUSY block with no turn pending is DONE after at most as many steps as `stepsLeft` bounds. -/
theorem Inv.finishes_within {s : State} {m : Nat} (hs : Inv s) (hb : s.regs.status = .busy) (ht : s.turns = [])
    (hm : stepsLeft s.hid ≤ m) : ∃ k t, k ≤ m ∧ Machine.runSteps k s = .next t ∧ t.regs.status.isDone = true := by
  induction m generalizing s with
  | zero => exact absurd hm (Nat.not_le.2 (stepsLeft_pos s.hid))
  | succ m ih =>
    obtain ⟨u, hu⟩ := (hs.busyInv hb).advances
    obtain ⟨-, -, hturns, -⟩ := phaseStep_frame hu.step
    rcases hu.progress with ⟨hregs, hless⟩ | ⟨-, hdone⟩
    · have hbu : u.regs.status = .busy := by rw [hregs]; exact hb
      obtain ⟨k, t, hk, hrun, hdone⟩ := ih hu.inv hbu (hturns.trans ht) (by omega)
      exact ⟨k + 1, t, Nat.succ_le_succ hk, runSteps_cons ⟨hb, ht⟩ hu.step hrun, hdone⟩
    · exact ⟨1, u, Nat.le_add_left 1 m, runSteps_one ⟨hb, ht⟩ hu.step, hdone⟩

/-- Settles O30: `stepsLeft` is at most 2^24. -/
theorem everyCommandFinishes : Obligations.EveryCommandFinishes :=
  fun s hs hb ht => hs.finishes_within hb ht (stepsLeft_le s.hid)

end Sys2Proof.Machine
end

section
/-! 44_fsm.md R247 with the host's quiet turns interleaved: a BUSY block among quiet turns makes the same transitions as
one left alone, until the command is decided. -/

namespace Sys2Proof.Machine

/-- The block with no host: no turn pending, nothing read. -/
def State.alone (s : State) : State :=
  s.withHost [] 0 0

/-- Every turn to come is quiet (70_reset_and_hazards.md R316). -/
def QuietTurns (s : State) : Prop :=
  ∀ x ∈ s.turns, quietTurn s.bufCap x = true

theorem AtEnd.ends {s : State} (h : AtEnd s.hid) : ∃ t, phaseStep s = .next t ∧ t.regs.status ≠ .busy := by
  rcases h with hp | hp
  · exact ⟨_, phaseStep_commit hp, by rw [phCommit_status]; decide⟩
  · exact ⟨_, phaseStep_fail hp, nofun⟩

/-- A run that passes through a decided command ends with the block not BUSY. -/
theorem runSteps_succ_of_atEnd {s t : State} {k : Nat} (hs : Running s) (hend : AtEnd s.hid)
    (h : runSteps (k + 1) s = .next t) : t.regs.status ≠ .busy := by
  obtain ⟨u, hstep, hquiet⟩ := hend.ends
  obtain ⟨-, -, hturns, -⟩ := phaseStep_frame hstep
  rw [runSteps_succ_of_busy hs.1 hs.2, hstep, andThen_next, runSteps_of_quiet hquiet (hturns.trans hs.2)] at h
  cases h
  exact hquiet

/-- A command left alone is decided in one state only. -/
theorem decided_unique {s t u : State} {j k : Nat} (hjk : j ≤ k) (ht : runSteps j s = .next t) (hrun : Running t)
    (hend : AtEnd t.hid) (hu : runSteps k s = .next u) (hbu : u.regs.status = .busy) : u = t := by
  obtain ⟨i, rfl⟩ := Nat.exists_eq_add_of_le hjk
  rw [Nat.add_comm, runSteps_add, ht, andThen_next] at hu
  cases i with
  | zero => cases hu; rfl
  | succ i => exact absurd hbu (runSteps_succ_of_atEnd hrun hend hu)

/-- Steps that leave the block BUSY leave fewer to come. -/
theorem Inv.runSteps_fewer {s t : State} {k : Nat} (hs : Inv s) (hr : Running s)
    (h : Machine.runSteps (k + 1) s = .next t) (hbt : t.regs.status = .busy) : stepsLeft t.hid < stepsLeft s.hid := by
  induction k generalizing s with
  | zero =>
    obtain ⟨u, hu⟩ := (hs.busyInv hr.1).advances
    cases (runSteps_one hr hu.step).symm.trans h
    rcases hu.progress with ⟨-, hless⟩ | ⟨-, hdone⟩
    · exact hless
    · rw [hbt] at hdone; cases hdone
  | succ k ih =>
    obtain ⟨u, hu⟩ := (hs.busyInv hr.1).advances
    obtain ⟨-, -, hturns, -⟩ := phaseStep_frame hu.step
    rw [runSteps_succ_of_busy hr.1 hr.2, hu.step, andThen_next] at h
    rcases hu.progress with ⟨hregs, hless⟩ | ⟨hend, -⟩
    · exact (ih hu.inv ⟨by rw [hregs]; exact hr.1, hturns.trans hr.2⟩ h).trans hless
    · have hstop := runSteps_succ_of_atEnd (k := k + 1) hr hend
        (by rw [runSteps_succ_of_busy hr.1 hr.2, hu.step, andThen_next, h])
      exact absurd hbt hstop

/-- A quiet host move is answered, and touches the host's side alone while the block is BUSY. -/
theorem hostMove_of_quiet {m : HostMove} {s : State} (hb : s.regs.status = .busy)
    (hq : quietTurn s.bufCap (.host m) = true) : ∃ v k, hostMove m s = .next (s.withHost s.turns v k) := by
  have stored {size off : Nat} (v : Word) (h : (alignedWord size off && decide (off < 256)) = true) :
      hostWriteReg size off v s = .next s := by
    rw [Bool.and_eq_true, decide_eq_true_eq] at h
    rw [hostWriteReg, if_pos h.1, if_pos h.2, storeReg_of_busy hb]
  cases m with
  | rdReg size off =>
    rw [quietTurn, Bool.and_eq_true, decide_eq_true_eq] at hq
    exact ⟨regRead s.regs off, s.fresh, by rw [hostMove, hostReadReg, if_pos hq.1, if_pos hq.2]; rfl⟩
  | wrReg size off v => exact ⟨s.rdata, s.fresh, stored v hq⟩
  | wrRegLast size off => exact ⟨s.rdata, s.fresh, stored s.rdata hq⟩
  | rdTbl size off =>
    rw [quietTurn, Bool.and_eq_true, decide_eq_true_eq] at hq
    obtain ⟨v, k, e⟩ := tableRead_eq_setRdata off s
    exact ⟨v, k, by rw [hostMove, hostReadTbl, if_pos hq.1, if_pos hq.2, e]; rfl⟩
  | rdBuf addr => exact ⟨(byteAt s addr).setWidth 32, s.fresh, hostReadBuf_of_lt (of_decide_eq_true hq)⟩
  | wrBuf a v => cases hq
  | reset => cases hq

/-- What a quiet turn does to a BUSY block whose command is not decided: nothing but to the host's side; or the same as
transitions of the block left alone. -/
structure QuietStep (s t : State) : Prop where
  step : step s = .next t
  busy : BusyInv t
  quiet : QuietTurns t
  run : ∃ k, runSteps k s.alone = .next t.alone
  less : stepsLeft t.hid + t.turns.length < stepsLeft s.hid + s.turns.length

section
variable {s : State} (hs : BusyInv s)
include hs

/-- A turn that does not touch the block. -/
theorem BusyInv.quietStep_host {x : Turn} {ts : List Turn} (ht : s.turns = x :: ts) (hq : QuietTurns s) {v : Word} {k : Nat}
    (hstep : step s = .next (s.withHost ts v k)) : QuietStep s (s.withHost ts v k) := by
  refine ⟨hstep, (inv_withHost ts v k hs.inv).busyInv hs.busy, fun y hy => hq y (by rw [ht]; exact .tail _ hy), ⟨0, rfl⟩, ?_⟩
  rw [ht]
  exact Nat.lt_succ_self _

/-- A parser turn. -/
theorem BusyInv.quietStep_parser {ts : List Turn} {v : Word} (hend : ¬ AtEnd s.hid) (hts : ts.length ≤ s.turns.length)
    (hq : ∀ x ∈ ts, quietTurn s.bufCap x = true)
    (hstep : step s = parserTurn (s.withHost ts v s.fresh)) : ∃ t, QuietStep s t := by
  obtain ⟨u, hu⟩ := hs.advances
  have hphase := phaseStep_withHost_of_next hu.step
  obtain ⟨-, hcap, -⟩ := phaseStep_frame hu.step
  rcases hu.progress with ⟨hregs, hless⟩ | ⟨h, -⟩
  · have hbu : u.regs.status = .busy := by rw [hregs]; exact hs.busy
    refine ⟨u.withHost ts v s.fresh, hstep.trans ((parserTurn_of_busy (s := s.withHost ts v s.fresh) hs.busy).trans (hphase ts v s.fresh)),
      (inv_withHost ts v s.fresh hu.inv).busyInv hbu, fun x hx => ?_, ⟨1, runSteps_one ⟨hs.busy, rfl⟩ (hphase [] 0 0)⟩,
      Nat.add_lt_add_of_lt_of_le hless hts⟩
    rw [show (u.withHost ts v s.fresh).bufCap = s.bufCap from hcap]
    exact hq x hx
  · exact absurd h hend

/-- A record turn. -/
theorem BusyInv.quietStep_record {ts : List Turn} (hend : ¬ AtEnd s.hid) (ht : s.turns = .record :: ts)
    (hq : QuietTurns s) : ∃ t, QuietStep s t := by
  obtain ⟨u, hstep, ⟨k, h1, -, hrun⟩, hregs⟩ := hs.record_merges ht
  have hregs := hregs.resolve_right hend
  have halone : Running s.alone := ⟨hs.busy, rfl⟩
  obtain ⟨k, rfl⟩ := Nat.exists_eq_add_of_le' h1
  have hbu : u.regs.status = .busy := by rw [hregs]; exact hs.busy
  obtain ⟨t, hrunInv, -, hinv, -⟩ := (inv_withHost [] 0 0 hs.inv).runSteps rfl (k + 1)
  cases (hrun 0 0).symm.trans hrunInv
  obtain ⟨-, hcap, -⟩ := runSteps_frame (s := s.alone) rfl (hrun 0 0)
  refine ⟨_, hstep, (inv_withHost (s := u.withHost [] 0 0) ts s.rdata s.fresh hinv).busyInv hbu, fun x hx => ?_,
    ⟨k + 1, hrun 0 0⟩, ?_⟩
  · rw [show (u.withHost ts s.rdata s.fresh).bufCap = s.bufCap from hcap]
    exact hq x (by rw [ht]; exact .tail _ hx)
  · have hless := Inv.runSteps_fewer (inv_withHost [] 0 0 hs.inv) halone (hrun 0 0) hbu
    rw [ht]
    exact Nat.add_lt_add_of_lt_of_le hless (Nat.le_succ _)

/-- Every quiet turn. -/
theorem BusyInv.quietStep (hend : ¬ AtEnd s.hid) (hq : QuietTurns s) : ∃ t, QuietStep s t := by
  cases ht : s.turns with
  | nil => exact hs.quietStep_parser (ts := s.turns) (v := s.rdata) hend (le_refl _) hq (step_of_nil ht)
  | cons x ts =>
    have htail : ∀ y ∈ ts, quietTurn s.bufCap y = true := fun y hy => hq y (by rw [ht]; exact .tail _ hy)
    have hlen : ts.length ≤ s.turns.length := by rw [ht]; exact Nat.le_succ _
    cases x with
    | parser => exact hs.quietStep_parser (v := s.rdata) hend hlen htail (step_of_parser ht)
    | wait =>
      refine hs.quietStep_parser (ts := s.turns) (v := regRead s.regs RegName.status.off) hend (le_refl _) hq ?_
      rw [step_of_wait ht, waitTurn, hs.busy]
      rfl
    | record => exact hs.quietStep_record hend ht hq
    | host m =>
      cases hm : cmdWrite m (s.setTurns ts) with
      | none =>
        obtain ⟨v, k, e⟩ := hostMove_of_quiet (m := m) (s := s.setTurns ts) hs.busy (hq _ (by rw [ht]; exact .head _))
        exact ⟨_, hs.quietStep_host ht hq ((step_of_host ht hm).trans e)⟩
      | some w =>
        exact ⟨_, hs.quietStep_host (v := s.rdata) (k := s.fresh) ht hq (step_of_cmdWrite_busy hs.busy ht hm)⟩

end

/-- Among quiet turns a command is decided, and as it would be with the block left alone. -/
theorem BusyInv.decided {s : State} {m : Nat} (hs : BusyInv s) (hq : QuietTurns s)
    (hm : stepsLeft s.hid + s.turns.length ≤ m) :
    ∃ k j u, runSteps k s = .next u ∧ u.regs.status = .busy ∧ AtEnd u.hid ∧ runSteps j s.alone = .next u.alone := by
  induction m generalizing s with
  | zero => exact absurd hm (by have := stepsLeft_pos s.hid; omega)
  | succ m ih =>
    by_cases hend : AtEnd s.hid
    · exact ⟨0, 0, s, rfl, hs.busy, hend, rfl⟩
    obtain ⟨t, hstep, hbt, hqt, ⟨i, hrun⟩, hless⟩ := hs.quietStep hend hq
    obtain ⟨k, j, u, hk, hbu, hendu, hj⟩ := ih hbt hqt (by omega)
    exact ⟨k + 1, i + j, u, by rw [runSteps, hstep, andThen_next, hk], hbu, hendu, runSteps_trans hrun hj⟩

/-- The state in which a command left alone is decided is, but for the host's side, the one among quiet turns. -/
theorem BusyInv.decided_as {s t : State} {k : Nat} (hs : BusyInv s) (hq : QuietTurns s)
    (ht : runSteps k s.alone = .next t) (hr : Running t) (hend : AtEnd t.hid) :
    ∃ j u, runSteps j s = .next u ∧ u.regs.status = .busy ∧ u.hid = t.hid ∧ u.avpt = t.avpt := by
  obtain ⟨j, i, u, hrun, hbu, hendu, hi⟩ := hs.decided hq (le_refl _)
  have hsame : u.alone = t := by
    rcases Nat.le_total k i with hle | hle
    · exact decided_unique hle ht hr hend hi hbu
    · exact (decided_unique hle hi ⟨hbu, rfl⟩ hendu ht hr.1).symm
  subst hsame
  exact ⟨j, u, hrun, hbu, rfl, rfl⟩

/-- Settles O17: with the block left alone the engines end as the functions say (`avpEngine_ends`, `msgEngine_ends`), and
quiet turns change nothing of that (`BusyInv.decided_as`). -/
theorem fsmAgreesWithTheFunctions : Obligations.FsmAgreesWithTheFunctions := by
  intro s hs hb hl hq
  have hcap := hs.cap
  have start (top : Top) : BusyInv (acceptStep top top.opcode s) := (hs.acceptStep hl top).busyInv rfl
  have hrun (top : Top) : Running (acceptStep top top.opcode s).alone := ⟨rfl, rfl⟩
  constructor
  · have hends := avpEngine_ends (hrun .avp) rfl
    change AvpEnds _ (decodeAvpAt (byteAt s) s.regs.bufLen.toNat s.regs.offset.toNat) at hends
    cases hres : decodeAvpAt (byteAt s) s.regs.bufLen.toNat s.regs.offset.toNat with
    | ok d n =>
      rw [hres] at hends
      obtain ⟨j, u, hj, hbu, hhid, -⟩ := (start .avp).decided_as hq hends ⟨rfl, rfl⟩ (.inl rfl)
      obtain ⟨-, -, hn⟩ := decodeAvpAt_ok_bounds hres
      refine ⟨_, u, j, accept_of_quiet hb hl, hj, hbu, ?_⟩
      rw [hhid]
      rw [Config.bufCapMax] at hcap
      exact ⟨rfl, rfl, (BitVec.toNat_ofNat n 32).trans (Nat.mod_eq_of_lt (by omega))⟩
    | err kind c a =>
      rw [hres] at hends
      obtain ⟨h, hends, hkind, hph, hcause, heat, -⟩ := hends
      obtain ⟨j, u, hj, hbu, hhid, -⟩ := (start .avp).decided_as hq hends ⟨rfl, rfl⟩ (.inr hph)
      refine ⟨_, u, j, accept_of_quiet hb hl, hj, hbu, ?_⟩
      rw [hhid]
      exact ⟨hkind, hph, hcause, heat⟩
  · have hends := msgEngine_ends (hrun .msg) rfl ⟨rfl, rfl, rfl⟩ hl hcap
    change MsgEnds _ (decodeMsgAt (byteAt s) s.regs.bufLen.toNat s.regs.offset.toNat) at hends
    cases hres : decodeMsgAt (byteAt s) s.regs.bufLen.toNat s.regs.offset.toNat with
    | ok m n =>
      rw [hres] at hends
      obtain ⟨tb, h, hends, hph, -, hmsg, hcur, hn, htab⟩ := hends
      obtain ⟨j, u, hj, hbu, hhid, havpt⟩ := (start .msg).decided_as hq hends ⟨rfl, rfl⟩ (.inl hph)
      refine ⟨_, u, j, accept_of_quiet hb hl, hj, hbu, ?_⟩
      rw [hhid, havpt]
      exact ⟨hph, hmsg, hcur, hn, htab⟩
    | err kind c a =>
      rw [hres] at hends
      obtain ⟨_, tb, h, hends, hkind, hph, hcause, heat, -⟩ := hends
      obtain ⟨j, u, hj, hbu, hhid, -⟩ := (start .msg).decided_as hq hends ⟨rfl, rfl⟩ (.inr hph)
      refine ⟨_, u, j, accept_of_quiet hb hl, hj, hbu, ?_⟩
      rw [hhid]
      exact ⟨hkind, hph, hcause, heat⟩

end Sys2Proof.Machine
end

section
/-! The commands and the record forms taken alone: the launch premise, the frames, the step counts, and a Message header at
`BASE` (43_host_commands.md R205 to R208, 44_fsm.md R248, 42_decode_msg.md R171 to R174). -/

namespace Sys2Proof.Machine

theorem accept_refused {s : State} (hb : s.regs.status ≠ .busy) (hl : s.bufCap < s.regs.bufLen.toNat) (top : Top)
    (w : BitVec 2) : accept top w s = .refused .bufLenExceedsCap :=
  (if_neg hb).trans (if_neg (Nat.not_le.2 hl))

/-- Settles O12: both commands are `accept`, whose guard fails. -/
theorem decodeRefusedBeyondCapacity : Obligations.DecodeRefusedBeyondCapacity :=
  fun _ hb hl => ⟨accept_refused hb hl .avp 1, accept_refused hb hl .msg 2⟩

/-- Settles O14: a command is dropped, clears or is accepted (`exec_command_cases`); each writes registers, `done`, and at
accept the hidden registers it latches. -/
theorem commandFrame : Obligations.CommandFrame := by
  intro i s t hi h
  rcases exec_command_cases hi h with ⟨-, rfl⟩ | ⟨-, -, rfl⟩ | ⟨top, -, hne, -, rfl⟩
  · exact ⟨fun _ => rfl, rfl, rfl, rfl, rfl, rfl, rfl, rfl, rfl, rfl, rfl, fun _ => rfl⟩
  · exact ⟨fun _ => rfl, rfl, rfl, rfl, rfl, rfl, rfl, rfl, rfl, rfl, rfl, fun _ => rfl⟩
  · exact ⟨fun _ => rfl, rfl, rfl, rfl, rfl, rfl, rfl, rfl, rfl, rfl, rfl, fun hc => absurd hc hne⟩

/-- Settles O18: the counts are those of `AvpEnds` and `MsgEnds`, plus the step that commits or fails. -/
theorem stepCounts : Obligations.StepCounts := by
  intro s hs hb hl ht
  have hrun (top : Top) : Running (acceptStep top top.opcode s) := ⟨rfl, ht⟩
  constructor
  · have hends := avpEngine_ends (hrun .avp) rfl
    change AvpEnds _ (decodeAvpAt (byteAt s) s.regs.bufLen.toNat s.regs.offset.toNat) at hends
    have last (h : Hidden) := step_of_running (s := (acceptStep .avp 1 s).setHid h) (hrun .avp)
    have failed {j : Nat} {h : Hidden} (hj : runSteps j (acceptStep .avp 1 s) = .next ((acceptStep .avp 1 s).setHid h))
        (hph : h.ph = .fail) : ∃ s1 u t : State, exec .decodeAvp s = .next s1 ∧ runSteps j s1 = .next u ∧
          u.regs.status = .busy ∧ step u = .next t ∧ t.regs.status = .doneErr :=
      ⟨_, _, _, accept_of_quiet hb hl, hj, rfl, (last h).trans (phaseStep_fail hph), rfl⟩
    cases hres : decodeAvpAt (byteAt s) s.regs.bufLen.toNat s.regs.offset.toNat with
    | ok d n =>
      rw [hres] at hends
      exact ⟨_, _, _, accept_of_quiet hb hl, hends, rfl, (last _).trans (phaseStep_commit rfl), phCommit_status _⟩
    | err k c a =>
      rw [hres] at hends
      obtain ⟨h, hj, hfail⟩ := hends
      cases c <;> exact failed hj hfail.ph
  · intro m n hres
    have hends := msgEngine_ends (hrun .msg) rfl ⟨rfl, rfl, rfl⟩ hl hs.cap
    change MsgEnds _ (decodeMsgAt (byteAt s) s.regs.bufLen.toNat s.regs.offset.toNat) at hends
    rw [hres] at hends
    obtain ⟨tb, h, hj, hph, -⟩ := hends
    exact ⟨_, _, _, accept_of_quiet hb hl, hj, rfl,
      (step_of_running_moved (hrun .msg) tb h).trans (phaseStep_commit hph), phCommit_status _⟩

/-- Settles O21: the four answers of `execMsgh`; within a legal capacity the cursor does not wrap. -/
theorem msghAtTheBase : Obligations.MsghAtTheBase := by
  intro s version len flags cc app hbh e2e hcap
  refine ⟨fun hl ha => ⟨_, execMsgh_ok hl ha, rfl, rfl, ?_, rfl⟩, fun hl hin => ?_, fun hl hin ha => ?_,
    fun h => ⟨_, execMsgh_short h, rfl, rfl, rfl⟩⟩
  · rw [Config.bufCapMax] at hcap
    exact (BitVec.toNat_ofNat _ 32).trans (Nat.mod_eq_of_lt (by omega))
  · exact ⟨_, execMsgh_badLength hin (.inl hl), rfl, congrArg Cause.code (if_pos hl), rfl⟩
  · exact ⟨_, execMsgh_badLength hin (.inr ha), rfl, congrArg Cause.code (if_neg (Nat.not_lt.2 hl)), rfl⟩

/-- `t` is `s` but for hidden registers that are not the command's own (44_fsm.md R232). -/
structure RecordKeeps (s t : State) : Prop where
  eq : t = s.setHid t.hid
  top : t.hid.top = s.hid.top
  base : t.hid.base = s.hid.base
  lenL : t.hid.lenL = s.hid.lenL
  n : t.hid.n = s.hid.n

theorem RecordKeeps.byteAt_eq {s t : State} (h : RecordKeeps s t) : byteAt t = byteAt s := by
  rw [h.eq]
  rfl

/-- An AVP record leaves the Message engine's registers. -/
theorem avpRecord_keeps {code : Word} {flags : Byte} {len : U24} {s t : State} (h : avpRecord code flags len s = .next t) :
    RecordKeeps s t ∧ t.hid.sMsg = s.hid.sMsg ∧ t.hid.mlen = s.hid.mlen := by
  by_cases h8 : s.hid.lenL.toNat < s.hid.cur.toNat + 8
  · cases (avpRecord_short h8).symm.trans h
    exact ⟨⟨rfl, rfl, rfl, rfl, rfl⟩, rfl, rfl⟩
  by_cases hbad : len.toNat < headerSize flags ∨ s.hid.lenL.toNat < s.hid.cur.toNat + len.toNat
  · cases (avpRecord_badLength (by omega) hbad).symm.trans h
    exact ⟨⟨rfl, rfl, rfl, rfl, rfl⟩, rfl, rfl⟩
  · cases (avpRecord_ok (by omega) (by omega)).symm.trans h
    exact ⟨⟨rfl, rfl, rfl, rfl, rfl⟩, rfl, rfl⟩

/-- A Message header leaves the AVP engine's registers. -/
theorem execMsgh_keeps {version : Byte} {len : U24} {flags : Byte} {cc : U24} {app hbh e2e : Word} {s t : State}
    (h : execMsgh version len flags cc app hbh e2e s = .next t) :
    RecordKeeps s t ∧ t.hid.sAvp = s.hid.sAvp ∧ t.hid.hs = s.hid.hs ∧ t.hid.alen = s.hid.alen := by
  by_cases h20 : s.hid.lenL.toNat < s.hid.base.toNat + 20
  · cases (execMsgh_short h20).symm.trans h
    exact ⟨⟨rfl, rfl, rfl, rfl, rfl⟩, rfl, rfl, rfl⟩
  by_cases hbad : len.toNat < 20 ∨ s.hid.lenL.toNat < s.hid.base.toNat + len.toNat
  · cases (execMsgh_badLength (by omega) hbad).symm.trans h
    exact ⟨⟨rfl, rfl, rfl, rfl, rfl⟩, rfl, rfl, rfl⟩
  · cases (execMsgh_ok (by omega) (by omega)).symm.trans h
    exact ⟨⟨rfl, rfl, rfl, rfl, rfl⟩, rfl, rfl, rfl⟩

/-- Settles O22: both AVP forms are `avpRecord`, whose answers write hidden registers alone, as do those of `execMsgh`. -/
theorem recordFrame : Obligations.RecordFrame := by
  intro i s t hi h
  cases i with
  | clear | decodeAvp | decodeMsg => exact absurd rfl hi
  | avp8 | avp12 =>
    obtain ⟨hkeep, hmsg⟩ := avpRecord_keeps h
    exact ⟨hkeep.eq, congrFun hkeep.byteAt_eq, hkeep.top, hkeep.base, hkeep.lenL, hkeep.n, fun _ => hmsg, nofun⟩
  | msgh =>
    obtain ⟨hkeep, havp⟩ := execMsgh_keeps h
    exact ⟨hkeep.eq, congrFun hkeep.byteAt_eq, hkeep.top, hkeep.base, hkeep.lenL, hkeep.n, nofun, fun _ => havp⟩

end Sys2Proof.Machine
end

section
/-! The decoding functions and their helpers over the naturals (40_helpers.md R122; 20_memory.md R65; 41_decode_avp.md R150;
42_decode_msg.md R182, R185; 60_exceptions.md section 3). -/

namespace Sys2Proof.Machine

/-- Masking the low `k` bits away is shifting them out and zeros in. -/
theorem and_allOnes_shiftLeft {w : Nat} (x : BitVec w) (k : Nat) :
    x &&& (BitVec.allOnes w <<< k) = (x >>> k) <<< k := by
  ext i hi
  by_cases hk : i < k
  · simp [hk]
  · simp [hk, Nat.add_sub_cancel' (Nat.le_of_not_lt hk), BitVec.getLsbD_eq_getElem hi]

/-- Masking the low two bits away rounds down to a multiple of 4. -/
theorem and_not_three_toNat (x : Word) : (x &&& ~~~(3 : Word)).toNat = 4 * (x.toNat / 4) := by
  have hmask : ~~~(3 : Word) = BitVec.allOnes 32 <<< 2 := by decide
  have hx := x.isLt
  rw [hmask, and_allOnes_shiftLeft, BitVec.toNat_shiftLeft, BitVec.toNat_ushiftRight, Nat.shiftRight_eq_div_pow,
    Nat.shiftLeft_eq, Nat.mod_eq_of_lt (by omega), Nat.mul_comm]

/-- Settles O40: up to 2^32 - 4 the sum does not wrap, and the mask rounds down. -/
theorem paddedLengthBitFormula : Obligations.PaddedLengthBitFormula := by
  intro n hn
  have hsum : (n + 3).toNat = n.toNat + 3 := BitVec.toNat_add_of_lt (by change n.toNat + 3 < 2 ^ 32; omega)
  rw [paddedLengthBits, and_not_three_toNat, hsum, paddedLength]

/-- Settles O43: the record without padding lies in the buffer, and the padding is the rest to a multiple of 4. -/
theorem avpOvershoot : Obligations.AvpOvershoot := by
  intro read bufLen s n d hcap h
  obtain ⟨hlen, hoff, hin⟩ := decodeAvpAt_ok_layout hcap h
  obtain ⟨-, hn⟩ := decodeAvpAt_ok_consumed h
  obtain ⟨-, -, hover⟩ := decodeAvpAt_ok_bounds h
  have hpad : paddedLength d.dataLen.toNat = 4 * ((d.dataLen.toNat + 3) / 4) := rfl
  refine ⟨hover, by omega, fun hlt => ?_⟩
  rcases decodeAvpAt_cases read bufLen n with ⟨-, e⟩ | ⟨f, l, h8, -⟩
  · exact e
  · rw [availableAt_eq] at h8
    omega

/-- Settles O45: the checks read the 8 header bytes, and the vendor id is read only where the answer is an AVP12. -/
theorem avpReadSet : Obligations.AvpReadSet := by
  intro read read' bufLen s hhdr hvid
  rcases decodeAvpAt_cases read bufLen s with ⟨h8, e⟩ | ⟨f, l, h8, hf, hl, -, hcases⟩
  · rw [e, decodeAvpAt, if_pos h8]
  have field {k n : Nat} (hk : k + n ≤ 8) : beRead read (s + k) n = beRead read' (s + k) n :=
    beRead_congr fun b h1 h2 => hhdr h8 b (by omega) (by omega)
  have hcode : beRead read s 4 = beRead read' s 4 := field (k := 0) (by decide)
  rw [field (by decide)] at hf hl
  rcases hcases with ⟨h1, e⟩ | ⟨h1, h2, e⟩ | ⟨h1, h2, e⟩ <;>
    rw [e, decodeAvpAt, if_neg (Nat.not_lt.2 h8), ← hf, ← hl]
  · rw [if_pos h1]
  · rw [if_neg (Nat.not_lt.2 h1), if_pos h2]
  · have hread : (if hasVendorId f then beRead read (s + 8) 4 else 0) =
        if hasVendorId f then beRead read' (s + 8) 4 else 0 :=
      ite_congr rfl (fun hv => beRead_congr fun b hb hb' => hvid _ _ e hv b hb (by omega)) fun _ => rfl
    rw [if_neg (Nat.not_lt.2 h1), if_neg (Nat.not_lt.2 h2), hread, hcode]

/-- Fuel for the bytes still to come, 8 to a record, is as good as any more (42_decode_msg.md R185). -/
theorem decodeAvpsAt_fuel {read : Nat → Byte} {bufLen s m fuel fuel' cur : Nat} (hcur : s ≤ cur)
    (hf : m ≤ 8 * fuel + (cur - s)) (hf' : m ≤ 8 * fuel' + (cur - s)) :
    decodeAvpsAt read bufLen s m fuel cur = decodeAvpsAt read bufLen s m fuel' cur := by
  induction fuel generalizing fuel' cur with
  | zero => rw [decodeAvpsAt_stop _ _ _ _ _ _ (by omega), decodeAvpsAt_stop _ _ _ _ _ _ (by omega)]
  | succ fuel ih =>
    by_cases hlt : cur - s < m
    · cases fuel' with
      | zero => omega
      | succ fuel' =>
        rw [decodeAvpsAt, decodeAvpsAt, if_pos hlt, if_pos hlt]
        cases hd : decodeAvpAt read bufLen cur with
        | err k c a => rfl
        | ok d n =>
          obtain ⟨-, hadv, -⟩ := decodeAvpAt_ok_bounds hd
          dsimp only
          rw [ih (fuel' := fuel') (by omega) (by omega) (by omega)]
    · rw [decodeAvpsAt_stop _ _ _ _ _ _ hlt, decodeAvpsAt_stop _ _ _ _ _ _ hlt]

/-- Settles O48: the bound is enough fuel, so more is as good (`decodeAvpsAt_fuel`); and the entries are a chain of records
of at least 8 bytes. -/
theorem messageLoopTerminates : Obligations.MessageLoopTerminates := by
  refine ⟨fun read bufLen s m fuel h20 hf => ⟨decodeAvpsAt_fuel (by omega) (by omega) (by omega), by omega⟩,
    fun read bufLen s n m h => ?_⟩
  have hmax := m.scalars.length.isLt
  by_cases hne : m.avps = []
  · rw [hne]
    exact ⟨Nat.zero_le _, Nat.zero_le _, Nat.zero_le _⟩
  · obtain ⟨-, hbelow⟩ := (decodeMsgAt_ok_chain h).length_bounds (Nat.le_add_right s 20) hne
    omega

/-- Entry `i` of a chain is decoded where the padded entries before it end, and ends where the next one starts. -/
theorem AvpChain.entry {read : Nat → Byte} {bufLen s m cur n : Nat} {ds : List Desc}
    (h : AvpChain read bufLen s m cur ds n) {i : Nat} {d : Desc} (hd : ds[i]? = some d) :
    decodeAvpAt read bufLen (cur + ((ds.take i).map fun e => paddedLength e.len.toNat).sum) =
      .ok d (cur + ((ds.take (i + 1)).map fun e => paddedLength e.len.toNat).sum) := by
  induction h generalizing i with
  | nil => cases hd
  | @cons cur n n' d₀ ds _ hdec _ ih =>
    have hnext := decodeAvpAt_ok_next hdec
    cases i with
    | zero =>
      cases hd
      simpa [← hnext] using hdec
    | succ i =>
      have hrest := ih (i := i) hd
      simpa only [List.take_succ_cons, List.map_cons, List.sum_cons, ← Nat.add_assoc, ← hnext] using hrest

/-- Settles O50: the AVPs of a decoded Message are a chain from behind its header (`AvpChain.entry`). -/
theorem messageEntriesInWireOrder : Obligations.MessageEntriesInWireOrder :=
  fun _ _ _ _ _ h _ _ hd => (decodeMsgAt_ok_chain h).entry hd

/-- The three causes an AVP's checks raise (60_exceptions.md R272). -/
theorem decodeAvpAt_err_cause {read : Nat → Byte} {bufLen s a : Nat} {k : ErrKind} {c : Cause}
    (h : decodeAvpAt read bufLen s = .err k c a) : c = .avpHdrShort ∨ c = .avpLenLtHdr ∨ c = .avpLenGtAvail := by
  rcases decodeAvpAt_cases read bufLen s with ⟨-, e⟩ | ⟨f, l, -, -, -, -, ⟨-, e⟩ | ⟨-, -, e⟩ | ⟨-, -, e⟩⟩ <;>
    cases e.symm.trans h
  · exact .inl rfl
  · exact .inr (.inl rfl)
  · exact .inr (.inr rfl)

/-- A loop that fails does so on a record it came to, with that record's error. -/
theorem decodeAvpsAt_err {read : Nat → Byte} {bufLen s m fuel cur a : Nat} {k : ErrKind} {c : Cause}
    (h : decodeAvpsAt read bufLen s m fuel cur = .err k c a) : cur ≤ a ∧ decodeAvpAt read bufLen a = .err k c a := by
  induction fuel generalizing cur with
  | zero => cases h
  | succ fuel ih =>
    by_cases hlt : cur - s < m
    · rcases decodeAvpsAt_turn read bufLen s m fuel cur hlt with
        ⟨k', c', a', hd, e⟩ | ⟨d, n, hd, ⟨k', c', a', hrest, e⟩ | ⟨_, _, -, e⟩⟩ <;> cases e.symm.trans h
      · obtain ⟨-, rfl⟩ := decodeAvpAt_err hd
        exact ⟨le_refl _, hd⟩
      · obtain ⟨-, hadv, -⟩ := decodeAvpAt_ok_bounds hd
        obtain ⟨hle, herr⟩ := ih hrest
        exact ⟨by omega, herr⟩
    · cases (decodeAvpsAt_stop read bufLen s m (fuel + 1) cur hlt).symm.trans h

/-- Settles O51: a failed check of the header names `s`; else the loop failed on one of the AVPs behind the header. -/
theorem messageErrorNamesTheRecord : Obligations.MessageErrorNamesTheRecord := by
  intro read bufLen s a k c h
  rcases decodeMsgAt_cases read bufLen s with
    ⟨-, e⟩ | ⟨l, -, -, -, ⟨-, e⟩ | ⟨-, -, e⟩ | ⟨-, -, ⟨k', c', a', hloop, e⟩ | ⟨_, _, -, e⟩⟩⟩ <;> cases e.symm.trans h
  · exact ⟨rfl, .inl ⟨.inl rfl, rfl⟩⟩
  · exact ⟨rfl, .inl ⟨.inr (.inl rfl), rfl⟩⟩
  · exact ⟨rfl, .inl ⟨.inr (.inr rfl), rfl⟩⟩
  · obtain ⟨hle, herr⟩ := decodeAvpsAt_err hloop
    exact ⟨(decodeAvpAt_err herr).1, .inr ⟨decodeAvpAt_err_cause herr, hle, herr⟩⟩

end Sys2Proof.Machine
end

section
/-! A step runs the decoded instruction (10_state.md R22, 20_memory.md R73), and the host's moves on registers, table and
buffer (10_state.md R21, R46; 43_host_commands.md R200 to R203; 70_reset_and_hazards.md section 1). -/

namespace Sys2Proof.Machine

/-- Settles O6: the aligned write to offset 0 is the one `cmdWrite` answers, with the value given or the one last read. -/
theorem stepRunsTheCommandWord : Obligations.StepRunsTheCommandWord :=
  fun _ _ _ _ _ hd => ⟨fun ht => step_of_cmdWrite ht rfl hd, fun ht hw => step_of_cmdWrite ht (congrArg some hw) hd⟩

/-- A header that lies in the buffer and decodes is run. -/
theorem fetchHeader_of_decode {f : Format} {a : Nat} {s : State} {i : Instr} {rest : List Byte}
    (hin : a + f.bytes ≤ s.hid.lenL.toNat) (hd : decode f (slice (byteAt s) a f.bytes) = .ok (i, rest)) :
    fetchHeader f a s = .run i s := by
  rw [fetchHeader, if_pos hin, hd, runDecoded]

/-- Settles O7: BUSY and at the start of a record, a record turn takes up the header there. -/
theorem stepRunsTheRecordAtTheCursor : Obligations.StepRunsTheRecordAtTheCursor := by
  intro s ts i rest ht hb
  refine ⟨fun hp hin hd => step_of_record_run ht ?_, fun hp hin hd => step_of_record_run ht ?_⟩
  · rw [fetchRecord, if_pos (by exact hb), if_pos (by exact hp)]
    exact fetchHeader_of_decode (f := .avp) (s := s.setTurns ts) hin hd
  · rw [fetchRecord, if_pos (by exact hb), if_neg (by rw [State.setTurns_hid, hp]; decide), if_pos (by exact hp)]
    exact fetchHeader_of_decode (f := .msgh) (s := s.setTurns ts) hin hd

/-! Placing an instruction (notes/assumptions/7.md). -/

theorem sparseGet_writeBytes_below (bs : List Byte) (m : Memory) {a b : Nat} (h : b < a) :
    sparseGet (writeBytes m a bs) b = sparseGet m b := by
  induction bs generalizing m a with
  | nil => rfl
  | cons x bs ih => rw [writeBytes, ih _ (Nat.lt_succ_of_lt h), sparseGet_set_other _ _ (Nat.ne_of_lt h)]

/-- Bytes read back from where they were written. -/
theorem slice_of_writeBytes {s : State} {m : Memory} {a : Nat} {bs : List Byte} (h : s.buf = writeBytes m a bs) :
    slice (byteAt s) a bs.length = bs := by
  induction bs generalizing m a with
  | nil => rfl
  | cons b bs ih =>
    have hfirst : byteAt s a = b := by
      rw [byteAt, h, writeBytes, sparseGet_writeBytes_below _ _ (Nat.lt_succ_self a), sparseGet_set_self]
      rfl
    rw [List.length_cons, slice, hfirst, ih h]

section
variable (s : State) (ph : Phase) {a : Word} {bs : List Byte}

/-- The placed record stands at its address. -/
theorem slice_placeRecord : slice (byteAt (placeRecord s ph a bs)) a.toNat bs.length = bs := by
  have hslice := slice_of_writeBytes (s := placeRecord s ph a bs) (m := s.buf) (a := a.toNat)
    (bs := bs ++ List.replicate (20 - bs.length) 0) rfl
  have htake := congrArg (List.take bs.length) hslice
  rwa [List.take_left, slice_take _ _ _ _ (by simp)] at htake

/-- The placed record and the zeros behind it lie in the buffer. -/
theorem placeRecord_lenL (ha : a.toNat + 20 < 2 ^ 32) : a.toNat + 20 ≤ (placeRecord s ph a bs).hid.lenL.toNat := by
  have hlen := s.hid.lenL.isLt
  change _ ≤ (BitVec.ofNat 32 (max s.hid.lenL.toNat (a.toNat + 20))).toNat
  rw [BitVec.toNat_ofNat, Nat.mod_eq_of_lt (max_lt hlen ha)]
  exact le_max_right _ _

end

/-- What the decoder reads from a table word of a format's width. -/
theorem decode_of_decodeTableWord {f : Format} {w : Nat} {i : Instr} (h : decodeTableWord (8 * f.bytes) w = some i) :
    w < 2 ^ (8 * f.bytes) ∧ ∃ rest, decode f (beBytes f.bytes w) = .ok (i, rest) := by
  unfold decodeTableWord at h
  split at h
  · next hw =>
    rw [formatOfBits_bytes, Nat.mul_div_cancel_left _ (by decide)] at h
    change decodedInstr (decode f (beBytes f.bytes w)) = some i at h
    cases hd : decode f (beBytes f.bytes w) with
    | error e => rw [hd] at h; cases h
    | ok x => rw [hd] at h; cases h; exact ⟨hw, x.2, rfl⟩
  · cases h

/-- Settles O8: a command word is placed as the write of `CMD` that comes next; a header as the record at the cursor or at
`BASE`, which a record turn takes up (`stepRunsTheRecordAtTheCursor`). -/
theorem placedTableWordIsRunNext : Obligations.PlacedTableWordIsRunNext := by
  intro s w i
  refine ⟨fun h => ?_, fun h ha => ?_, fun h ha => ?_⟩
  · obtain ⟨hw, rest, hd⟩ := decode_of_decodeTableWord (f := .cmdw) h
    have hword : (BitVec.ofNat 32 w).toNat = w := (BitVec.toNat_ofNat w 32).trans (Nat.mod_eq_of_lt hw)
    have hstep := step_of_cmdWrite (s := placeCmd s w) (w := BitVec.ofNat 32 w) rfl rfl (by rw [hword]; exact hd)
    exact hstep
  · obtain ⟨-, rest, hd⟩ := decode_of_decodeTableWord (f := .avp) h
    have hlen := placeRecord_lenL s .aAvail (bs := beBytes 8 w) ha
    have hslice := slice_placeRecord s .aAvail (a := s.hid.cur) (bs := beBytes 8 w)
    rw [beBytes_length] at hslice
    exact (stepRunsTheRecordAtTheCursor (s.withFetchWord 64 w) s.turns i rest rfl rfl).1 rfl
      (le_trans (Nat.add_le_add_left (by decide) _) hlen) (hslice.symm ▸ hd)
  · obtain ⟨-, rest, hd⟩ := decode_of_decodeTableWord (f := .msgh) h
    have hlen := placeRecord_lenL (s.setHid { s.hid with top := .msg }) .mAvail (bs := beBytes 20 w) ha
    have hslice := slice_placeRecord (s.setHid { s.hid with top := .msg }) .mAvail (a := s.hid.base) (bs := beBytes 20 w)
    rw [beBytes_length] at hslice
    exact (stepRunsTheRecordAtTheCursor (s.withFetchWord 160 w) s.turns i rest rfl rfl).2 rfl hlen (hslice.symm ▸ hd)

/-- Settles O32: parser turns and instructions leave the buffer (`parserTurn_frame`, `exec_frame`), and of the host's moves
only a write changes it, at the byte written (`hostMove_buf`). -/
theorem onlyTheHostWritesTheBuffer : Obligations.OnlyTheHostWritesTheBuffer := by
  intro s t a h hne
  rcases step_cases s with ⟨ts, v, e⟩ | ⟨ts, i, e, -⟩ | ⟨m, ts, ht, e⟩ | ⟨ts, v, e⟩ <;> rw [e] at h
  · obtain ⟨hbuf, -, -, -, hepoch, -⟩ := parserTurn_frame h
    exact absurd (congrFun (byteAt_congr hbuf hepoch) a) hne
  · obtain ⟨hbuf, -, -, -, hepoch, -⟩ := exec_frame h
    exact absurd (congrFun (byteAt_congr hbuf hepoch) a) hne
  · rcases hostMove_buf h with rfl | ⟨hbuf, hepoch⟩ | ⟨b, v, rfl, -, rfl⟩
    · exact .inr ⟨ts, ht⟩
    · exact absurd (congrFun (byteAt_congr (s := s.setTurns ts) hbuf hepoch) a) hne
    · by_cases hab : a = b
      · exact .inl ⟨v, ts, hab ▸ ht⟩
      · exact absurd ((byteAt_setBuf (s.setTurns ts) b a v).trans (if_neg hab)) hne
  · cases h
    exact absurd rfl hne

end Sys2Proof.Machine
end

section
/-! The host's accesses to registers and table, and reset (10_state.md R21, R46, R51; 43_host_commands.md R201, R202;
70_reset_and_hazards.md section 1). -/

namespace Sys2Proof.Machine

theorem regAt_off {off : Nat} {r : RegName} (h : regAt off = some r) : r.off = off := by
  have hfound := List.find?_some (p := fun r => decide (RegName.off r = off)) h
  exact of_decide_eq_true hfound

theorem RegName.mem_all (r : RegName) : r ∈ RegName.all := by
  cases r <;> decide

/-- At a reserved offset no register stands. -/
theorem off_ne_of_regAt_none {off : Nat} (h : regAt off = none) (r : RegName) : off ≠ r.off := by
  have hne := List.find?_eq_none.1 h r r.mem_all
  rw [decide_eq_true_eq] at hne
  exact Ne.symm hne

/-- `ERR` as a number: the kind, and the cause from bit 8 on (10_state.md R29). -/
theorem ErrReg.word_eq (e : ErrReg) : e.word = BitVec.ofNat 32 (e.kind.toNat + 256 * e.cause.toNat) := by
  obtain ⟨kind, cause⟩ := e
  revert kind cause
  decide

theorem alignedWord_four {off : Nat} (h : off % 4 = 0) : alignedWord 4 off = true := by
  rw [alignedWord, h]
  rfl

theorem alignedWord_bad {size off : Nat} (h : size ≠ 4 ∨ off % 4 ≠ 0) : ¬ alignedWord size off = true := by
  rw [alignedWord, Bool.and_eq_true, decide_eq_true_eq, decide_eq_true_eq]
  rintro ⟨h1, h2⟩
  exact h.elim (absurd h1) (absurd h2)

/-- Settles O33: the register at the offset, one case for each row of the map; where there is none every test fails. -/
theorem registerMapReads : Obligations.RegisterMapReads := by
  intro s ts off ht halign hlt
  refine (step_of_host ht rfl).trans ?_
  rw [hostMove, hostReadReg, if_pos (alignedWord_four halign), if_pos hlt]
  refine congrArg (fun v => Host.Outcome.next ((s.setTurns ts).setRdata v)) ?_
  rw [State.setTurns_regs, regRead]
  cases hr : regAt off with
  | some r =>
    rw [← regAt_off hr]
    cases r with
    | err => exact s.regs.err.word_eq
    | status =>
      change s.regs.status.code.setWidth 32 = _
      cases s.regs.status <;> rfl
    | _ => rfl
  | none =>
    have hne : ∀ r ∈ RegName.all, off ≠ r.off := fun r _ => off_ne_of_regAt_none hr r
    simp only [RegName.all, List.cons_append, List.nil_append, List.forall_mem_cons, RegName.off] at hne
    simp only [hne, if_false]

/-- What `storeReg` stores while not BUSY: `BUF_LEN` or `OFFSET`, by the offset. -/
theorem storeReg_of_quiet {s : State} (hb : s.regs.status ≠ .busy) (off : Nat) (v : Word) :
    storeReg off v s =
      if off = 0x08 then s.setRegs { s.regs with bufLen := v }
      else if off = 0x0C then s.setRegs { s.regs with offset := v } else s := by
  rw [storeReg, if_neg hb]
  cases hr : regAt off with
  | some r =>
    rw [← regAt_off hr]
    cases r <;> rfl
  | none =>
    have hne := off_ne_of_regAt_none hr
    exact ((if_neg (hne .bufLen)).trans (if_neg (hne .offset))).symm

/-- Settles O34: off `CMD` the move is a store (`storeReg_of_quiet`). -/
theorem registerMapWrites : Obligations.RegisterMapWrites := by
  intro s ts off v ht halign hlt hb hoff
  refine (step_of_host ht (if_neg fun h => hoff h.2)).trans ?_
  rw [hostMove, hostWriteReg, if_pos (alignedWord_four halign), if_pos hlt,
    storeReg_of_quiet (s := s.setTurns ts) hb]
  rfl

/-- `t` is `s` but for the value read and the count of unspecified reads. -/
theorem hostRead_keeps {m : HostMove} {size off : Nat} (hm : m = .rdReg size off ∨ m = .rdTbl size off ∨ m = .rdBuf off)
    {s t : State} (h : hostMove m s = .next t) : ∃ v k, t = (s.setRdata v).setFresh k := by
  rcases hm with rfl | rfl | rfl
  · rw [hostMove, hostReadReg] at h
    split_ifs at h
    cases h
    exact ⟨regRead s.regs off, s.fresh, rfl⟩
  · rw [hostMove, hostReadTbl] at h
    split_ifs at h
    cases h
    exact tableRead_eq_setRdata off s
  · rw [hostMove, hostReadBuf] at h
    split_ifs at h
    cases h
    exact ⟨(byteAt s off).setWidth 32, s.fresh, rfl⟩

/-- Settles O35: a read leaves its value with the host alone (`hostRead_keeps`); the alignment test comes first. -/
theorem hostReadsAndBadAccesses : Obligations.HostReadsAndBadAccesses := by
  intro s ts size off
  refine ⟨fun m t hm ht h => ?_, fun m v hm ht hbad => ?_⟩
  · have hmove := step_of_host ht (by rcases hm with rfl | rfl | rfl <;> rfl)
    obtain ⟨v, k, rfl⟩ := hostRead_keeps hm (hmove.symm.trans h)
    exact ⟨rfl, rfl, rfl, rfl, rfl, rfl, rfl, rfl⟩
  · have hbad' := alignedWord_bad hbad
    rcases hm with rfl | rfl | rfl
    · exact (step_of_host ht rfl).trans (if_neg hbad')
    · exact (step_of_host ht rfl).trans (if_neg hbad')
    · refine (step_of_host ht (if_neg ?_)).trans (if_neg hbad')
      rintro ⟨h4, h0⟩
      exact hbad.elim (absurd h4) (absurd (by rw [h0]; rfl))

/-- Settles O36: the offset names entry and word; a valid entry has been written, so it lies in the table. -/
theorem tableReads : Obligations.TableReads := by
  intro s ts i k hs ht hk
  have hentry : (32 * i + 4 * k) / 32 = i := by omega
  have hword : (32 * i + 4 * k) % 32 = 4 * k := by omega
  have inside (hi : i < Config.avptCap s.bufCap) :
      step s = .next (tableRead (32 * i + 4 * k) (s.setTurns ts)) := by
    refine (step_of_host ht rfl).trans ?_
    rw [hostMove, hostReadTbl, if_pos (alignedWord_four (by omega)), if_pos (by rw [State.setTurns_bufCap]; omega)]
  refine ⟨fun d hi hd => ?_, fun hi => hs.entry hi, fun hle hi => ?_⟩
  · rw [inside (lt_of_sparseGet _ _ _ _ hs.avptBelow hd), tableRead, hentry, hword, State.setTurns_regs,
      State.setTurns_avpt, if_pos hi, hd]
    interval_cases k <;> rfl
  · refine ⟨Config.tableWord s.fresh, ?_⟩
    rw [inside hi, tableRead, hentry, State.setTurns_regs, if_neg (Nat.not_lt.2 hle)]
    rfl

/-- Every register reads 0 after reset (10_state.md R51). -/
theorem regRead_reset (off : Nat) : regRead Regs.reset off = 0 := by
  rw [regRead]
  cases regAt off with
  | none => rfl
  | some r => cases r <;> rfl

/-- Settles O37: the step is `resetStep` in every state. -/
theorem resetAbandonsTheCommand : Obligations.ResetAbandonsTheCommand :=
  fun _ _ ht => ⟨_, step_of_host ht rfl, rfl, rfl, rfl, rfl, regRead_reset, rfl, rfl⟩

/-- A `WAIT` of a BUSY block is a parser turn, and the `WAIT` stays. -/
theorem step_of_wait_busy {s : State} {ts : List Turn} (ht : s.turns = .wait :: ts) (hb : s.regs.status = .busy) :
    step s = phaseStep (s.setRdata (regRead s.regs RegName.status.off)) := by
  rw [step_of_wait ht, waitTurn, hb]
  exact parserTurn_of_busy (s := s.setRdata _) hb

/-- A `WAIT` of a block that is DONE ends. -/
theorem step_of_wait_done {s : State} {ts : List Turn} (ht : s.turns = .wait :: ts) (hd : s.regs.status.isDone = true) :
    step s = .next ((s.setRdata (regRead s.regs RegName.status.off)).setTurns ts) := by
  rw [step_of_wait ht, waitTurn, hd]
  rfl

theorem runSteps_two {s t u : State} (h1 : step s = .next t) (h2 : step t = .next u) : runSteps 2 s = .next u := by
  rw [runSteps, h1, andThen_next, runSteps, h2]
  rfl

/-- A command that a `WAIT` finds in `FAIL`: the fail step, then the end of the `WAIT`. -/
theorem runSteps_wait_of_fail {s : State} (ht : s.turns = [.wait]) (hb : s.regs.status = .busy) (hp : s.hid.ph = .fail) :
    ∃ u, runSteps 2 s = .next u ∧ u.regs = (failStep s).regs :=
  ⟨_, runSteps_two ((step_of_wait_busy ht hb).trans (phaseStep_fail hp)) (step_of_wait_done ht rfl), rfl⟩

/-- A decode command accepted straight after reset, once the host has read `STATUS` as BUSY. -/
def startAfterReset (cap : Nat) (top : Top) : State :=
  (acceptStep top top.opcode (State.resetWith cap [.wait])).setRdata 1

/-- A decode command and a `WAIT` straight after reset, where the first check fails: two steps to `FAIL`, and two to the end
of the `WAIT`. -/
theorem runSteps_after_reset {cap : Nat} {top : Top} {w : Word} {i : Instr} {v : Word} {c : Cause}
    (hd : decode .cmdw (beBytes 4 w.toNat) = .ok (i, [])) (hi : ∀ s, exec i s = accept top top.opcode s)
    (hcheck : phaseStep (startAfterReset cap top) = .next ((startAfterReset cap top).setHid
      { (startAfterReset cap top).hid with avail := v, ecause := c.code, eat := 0, ph := .fail })) :
    ∃ t, runSteps 2 (State.resetWith cap [wrTurn .cmd w, .wait]) = .next t ∧
      ∃ u, runSteps 2 t = .next u ∧ u.regs.err.word = ErrReg.word { kind := 1, cause := c.code } ∧
        u.regs.errOffset = 0 ∧ u.regs.newOffset = 0 := by
  have hcmd := step_of_cmdWrite (s := State.resetWith cap [wrTurn .cmd w, .wait]) rfl rfl hd
  have haccept := hcmd.trans ((hi _).trans (accept_of_quiet nofun (Nat.zero_le cap)))
  have hwait := (step_of_wait_busy (s := acceptStep top top.opcode (State.resetWith cap [.wait])) rfl rfl).trans hcheck
  obtain ⟨u, hu, hregs⟩ := runSteps_wait_of_fail (s := (startAfterReset cap top).setHid
    { (startAfterReset cap top).hid with avail := v, ecause := c.code, eat := 0, ph := .fail }) rfl rfl rfl
  refine ⟨_, runSteps_two haccept hwait, u, hu, ?_⟩
  rw [hregs]
  exact ⟨rfl, rfl, rfl⟩

/-- Settles O38: the reset registers; and for each command the first check, which finds no byte in the buffer. -/
theorem resetState : Obligations.ResetState := by
  refine ⟨regRead_reset, rfl, rfl, fun cap => ?_, fun cap => ?_⟩
  · have hshort := phAAvail_of_lt (s := startAfterReset cap .avp) (Nat.succ_pos 7)
    exact runSteps_after_reset (c := .avpHdrShort) (decode_cmdw 1) (fun _ => rfl)
      ((phaseStep_aAvail rfl).trans (congrArg _ hshort))
  · have hshort := phMAvail_of_lt (s := startAfterReset cap .msg) (Nat.succ_pos 19)
    exact runSteps_after_reset (c := .msgHdrShort) (decode_cmdw 2) (fun _ => rfl)
      ((phaseStep_mAvail rfl).trans (congrArg _ hshort))

end Sys2Proof.Machine
end
